-- ==== Sys2Proof/Word.lean ====
section
/-! DEFINITION. The words DXT1C computes with: bytes, RGB565 halves, 32-bit words, and the RGB8 colour triple of
30_encoding.md R67. -/

namespace Sys2Proof

/-- One channel value of a pixel, or one byte of a memory (00_scope.md R5, `CH_BITS`). -/
abbrev Byte := BitVec 8

/-- One RGB565 colour (30_encoding.md R66). -/
abbrev Half := BitVec 16

/-- One word of the register port, of a command, or of the DST space (R5 `REG_BITS`, R44). -/
abbrev Word := BitVec 32

/-- An RGB8 colour triple (R67): the format of `PIX[k]` and `PAL[i]`. -/
structure Rgb where
  r : Byte
  g : Byte
  b : Byte
deriving DecidableEq, Repr

/-- The three colour channels; it also names the three widening functions of the codec (40_color_codec.md). -/
inductive Channel where
  | red
  | green
  | blue
deriving DecidableEq, Repr

end Sys2Proof
end

