-- ==== Sys2Proof/Syntax.lean ====
section
/-! DEFINITION. The instructions of DXT1C, one constructor per row of spec/opcode_table.json: the four commands a host
writes to `CMD` (30_encoding.md R60), the thirteen phase codes of the engine (R64) and the four combinational codec
functions (00_scope.md R2), whose only syntax is their operands. -/

namespace Sys2Proof

inductive Instr where
  -- commands (format CMD)
  | nop
  | compress
  | tfill
  | clear
  -- phases (format PHASE)
  | idle
  | check
  | fetch
  | bbox
  | inset
  | endpt
  | order
  | palette
  | index
  | encode
  | store
  | next
  | fill
  -- codec functions (format FUNC)
  | pack565 (r g b : Byte)
  | unpackr565 (c : Half)
  | unpackg565 (c : Half)
  | unpackb565 (c : Half)
deriving DecidableEq, Repr

end Sys2Proof
end

