-- ==== Sys2Proof/Decode.lean ====
section
/-! DEFINITION. Encodings (30_encoding.md): the command word (R60), the phase code (R64) and the operand layout of the
codec functions, with a total decoder that rejects by name and the encoder written from the same tables. -/

namespace Sys2Proof

/-! ### The phase codes of R64 -/

abbrev Phase.idle : BitVec 4 := 0#4
abbrev Phase.check : BitVec 4 := 1#4
abbrev Phase.fetch : BitVec 4 := 2#4
abbrev Phase.bbox : BitVec 4 := 3#4
abbrev Phase.inset : BitVec 4 := 4#4
abbrev Phase.endpt : BitVec 4 := 5#4
abbrev Phase.order : BitVec 4 := 6#4
abbrev Phase.palette : BitVec 4 := 7#4
abbrev Phase.index : BitVec 4 := 8#4
abbrev Phase.encode : BitVec 4 := 9#4
abbrev Phase.store : BitVec 4 := 10#4
abbrev Phase.next : BitVec 4 := 11#4
abbrev Phase.fill : BitVec 4 := 12#4

/-- Where the bits of an instruction stand, and the bits. DXT1C fetches no instructions (00_scope.md R2): a command is a
word written to `CMD`, a phase is the value of `PHASE`, and a codec function has operand lines and no selecting code,
so which function it is belongs to where the bits are, not to the bits. -/
inductive Code where
  /-- A word written to `CMD` (format CMD). -/
  | cmd (v : Word)
  /-- The value of `PHASE` (format PHASE). -/
  | phase (p : BitVec 4)
  /-- The operand lines of `PACK565` (format FUNC, 24 bits). -/
  | pack (x : BitVec 24)
  /-- The operand lines of one of the three widening functions (format FUNC, 16 bits). -/
  | unpack (ch : Channel) (x : BitVec 16)
deriving DecidableEq, Repr

/-- Why the decoder rejects. -/
inductive DecodeError where
  /-- A reserved command word (R61): `OP` of 4 to 15, or any of bits 31:4 set. -/
  | reservedCommand
  /-- A reserved phase code, 13 to 15 (R65). -/
  | reservedPhase
deriving DecidableEq, Repr

/-- One row of a table of fixed encodings: the value's bits under `mask` equal `pattern`. -/
structure Row (w : Nat) where
  mask : BitVec w
  pattern : BitVec w
  instr : Instr
deriving DecidableEq, Repr

def Row.accepts {w : Nat} (r : Row w) (v : BitVec w) : Bool := v &&& r.mask == r.pattern

/-- R60: "Mask and match for a decoder: mask `0xFFFFFFFF`, match as in the "full word" column". -/
def commandRows : List (Row 32) :=
  [ ⟨0xFFFFFFFF#32, 0x00000000#32, .nop⟩,
    ⟨0xFFFFFFFF#32, 0x00000001#32, .compress⟩,
    ⟨0xFFFFFFFF#32, 0x00000002#32, .tfill⟩,
    ⟨0xFFFFFFFF#32, 0x00000003#32, .clear⟩ ]

/-- R64, the thirteen phase codes. -/
def phaseRows : List (Row 4) :=
  [ ⟨0xF#4, Phase.idle, .idle⟩,
    ⟨0xF#4, Phase.check, .check⟩,
    ⟨0xF#4, Phase.fetch, .fetch⟩,
    ⟨0xF#4, Phase.bbox, .bbox⟩,
    ⟨0xF#4, Phase.inset, .inset⟩,
    ⟨0xF#4, Phase.endpt, .endpt⟩,
    ⟨0xF#4, Phase.order, .order⟩,
    ⟨0xF#4, Phase.palette, .palette⟩,
    ⟨0xF#4, Phase.index, .index⟩,
    ⟨0xF#4, Phase.encode, .encode⟩,
    ⟨0xF#4, Phase.store, .store⟩,
    ⟨0xF#4, Phase.next, .next⟩,
    ⟨0xF#4, Phase.fill, .fill⟩ ]

def lookupRow {w : Nat} (rows : List (Row w)) (v : BitVec w) : Option Instr :=
  (rows.find? (fun r => r.accepts v)).map Row.instr

/-- The decoder. Total: every code gives an instruction or a named rejection. -/
def decode : Code → Except DecodeError Instr
  | .cmd v =>
    match lookupRow commandRows v with
    | some i => .ok i
    | none => .error .reservedCommand
  | .phase p =>
    match lookupRow phaseRows p with
    | some i => .ok i
    | none => .error .reservedPhase
  | .pack x => .ok (.pack565 (x.extractLsb' 16 8) (x.extractLsb' 8 8) (x.extractLsb' 0 8))
  | .unpack .red x => .ok (.unpackr565 x)
  | .unpack .green x => .ok (.unpackg565 x)
  | .unpack .blue x => .ok (.unpackb565 x)

/-- The encoder: the word of R60, the code of R64, or the operand lines `{r, g, b}` and `c` of the FUNC rows. -/
def encode : Instr → Code
  | .nop => .cmd 0x00000000#32
  | .compress => .cmd 0x00000001#32
  | .tfill => .cmd 0x00000002#32
  | .clear => .cmd 0x00000003#32
  | .idle => .phase Phase.idle
  | .check => .phase Phase.check
  | .fetch => .phase Phase.fetch
  | .bbox => .phase Phase.bbox
  | .inset => .phase Phase.inset
  | .endpt => .phase Phase.endpt
  | .order => .phase Phase.order
  | .palette => .phase Phase.palette
  | .index => .phase Phase.index
  | .encode => .phase Phase.encode
  | .store => .phase Phase.store
  | .next => .phase Phase.next
  | .fill => .phase Phase.fill
  | .pack565 r g b => .pack (r ++ g ++ b)
  | .unpackr565 c => .unpack .red c
  | .unpackg565 c => .unpack .green c
  | .unpackb565 c => .unpack .blue c

/-- The code that a table word of `nbits` bits stands for. The row formats have different lengths, which tells them
apart: 32 bits is CMD, 4 bits (one byte) is PHASE, 24 bits is PACK565. The three 16-bit FUNC rows differ in nothing but
which bits they use (`vvvvvxxxxxxxxxxx`, `xxxxxvvvvvvxxxxx`, `xxxxxxxxxxxvvvvv`): a word whose bits outside one row's
field are zero is read as that row, the first in the table's order, and any other word is rejected (DESIGN CHOICE,
log 14). -/
def tableCode (nbits w : Nat) : Option Code :=
  if 2 ^ nbits ≤ w then none
  else if nbits = 32 then some (.cmd (BitVec.ofNat 32 w))
  else if nbits = 4 ∨ nbits = 8 then
    if w < 16 then some (.phase (BitVec.ofNat 4 w)) else none
  else if nbits = 24 then some (.pack (BitVec.ofNat 24 w))
  else if nbits = 16 then
    if w % 2 ^ 11 = 0 then some (.unpack .red (BitVec.ofNat 16 w))
    else if w % 2 ^ 5 = 0 ∧ w < 2 ^ 11 then some (.unpack .green (BitVec.ofNat 16 w))
    else if w < 2 ^ 5 then some (.unpack .blue (BitVec.ofNat 16 w))
    else none
  else none

/-- What the decoder reads from an instruction whose bits, numbered as spec/opcode_table.json numbers them, are `w`. -/
def decodeTableWord (nbits w : Nat) : Option Instr :=
  match tableCode nbits w with
  | none => none
  | some c =>
    match decode c with
    | .ok i => some i
    | .error _ => none

end Sys2Proof
end

