-- ==== Sys2Proof/Config.lean ====
section
/-! DEFINITION. The parameters of 00_scope.md R5: those the spec fixes, as constants, and the two it leaves OPEN, as a
record the state carries. -/

namespace Sys2Proof

/-- `INSET_SHIFT` (R5, R6): the right shift that forms the inset. -/
abbrev Config.insetShift : Nat := 4

/-- The number of bytes the SRC address can name, 2 ^ `SRC_ADDR_BITS` (R5). -/
abbrev Config.srcSpace : Nat := 2 ^ 34

/-- The number of words the DST word address can name, 2 ^ `DST_ADDR_BITS` (R5). -/
abbrev Config.dstSpace : Nat := 2 ^ 29

/-- The OPEN parameters of R5: how much memory the platform backs (20_memory.md R54, decision D30). They are an argument
of the model: every state carries its own, no step changes them, and a statement about every state holds for every
value (log 6). -/
structure Config where
  /-- `SRC_SIZE`, in bytes. -/
  srcSize : Nat
  /-- `DST_SIZE`, in 32-bit words. -/
  dstSize : Nat
deriving DecidableEq, Repr

/-- The sizes `State.reset` carries: the whole of both address spaces (DESIGN CHOICE, log 6). -/
def Config.full : Config := { srcSize := Config.srcSpace, dstSize := Config.dstSpace }

/-- What a byte of SRC or DST that nothing has written reads as. The spec calls it unspecified (10_state.md R34, U5, U7);
the model names zero (DESIGN CHOICE, log 5). -/
abbrev Config.unlisted : Byte := 0#8

/-! Free values: where no rule states a result, the model has one that nothing constrains (logs 11 and 12). -/

/-- `BX` where `BW = 0`, of `CNT` and `WIDTH`: 10_state.md R29 states it "only .. when BW > 0" (log 11). Block columns are
14 bits wide. -/
opaque Config.freeBlockX : BitVec 29 → BitVec 16 → BitVec 14

/-- `BY` where `BW = 0`, likewise (log 11). Block rows are 14 bits wide. -/
opaque Config.freeBlockY : BitVec 29 → BitVec 16 → BitVec 14

/-- The inset of a channel whose minimum exceeds its maximum, where 41_block_analyzer.md R93 states no result. -/
opaque Config.unorderedInset : Byte → Byte → BitVec 4

/-- `CNT` after an increment that does not fit its 29 bits, which the spec says cannot happen (00_scope.md R5). -/
opaque Config.countPastEnd : BitVec 29

end Sys2Proof
end

