-- ==== Sys2Proof/Machine/State.lean ====
section
/-! DEFINITION. The state of DXT1C (10_state.md R10) as plain data, the reasons a step can stop, and the state after
reset (R34). -/

namespace Sys2Proof.Machine

/-- A memory space: the bytes that differ from what an unlisted byte reads as, addresses strictly rising. -/
abbrev Memory := List Host.Cell

/-- `STATUS.STATE` (10_state.md R20). -/
inductive EngineState where
  | idle
  | busy
  | doneOk
  | doneErr
deriving DecidableEq, Repr

/-- The causes a trap can have (60_exceptions.md R170). -/
inductive Cause where
  | invalidDimensions
  | illegalCommand
deriving DecidableEq, Repr

/-- One entry of the script: which agent moves next, and how. The engine and the host interleave in any order
(00_scope.md R7, 93_implementation_defined.md U13); the script is that order, written as data (log 1). Register offsets
are word offsets, `reg_off` of 10_state.md R36. -/
inductive Turn where
  /-- The engine moves: one engine step (46_host_commands.md R158), or nothing when it has none. -/
  | engine
  /-- `WR reg, value` (R153). -/
  | wr (off : Nat) (value : Word)
  /-- `RD reg` (R152). -/
  | rd (off : Nat)
  /-- `WAIT` (30_encoding.md R72): `RD STATUS` until `STATE` is not `BUSY`. -/
  | wait
  /-- `SRCW addr, byte` (R159). -/
  | srcw (addr : Nat) (value : Byte)
  /-- The host reads a SRC byte (R159). -/
  | srcr (addr : Nat)
  /-- The host writes a DST word (R159). -/
  | dstw (i : Nat) (value : Word)
  /-- `DSTR i` (R159). -/
  | dstr (i : Nat)
  /-- `rst` is asserted (70_reset_and_hazards.md R190). `inFlight` says whether the first DST write of the phase about to
  run was already under way, and so completes (R191, log 10). `rst` is an input, not state: it is asserted in the turns that
  say so, held over as many of them as stand in a row, and released in every other turn (log 24). -/
  | rst (inFlight : Bool)
  /-- `rst` is asserted while the host presents `WR reg, value`: the block "ignores the register port" (R190, log 24). -/
  | rstWr (off : Nat) (value : Word)
  /-- `rst` is asserted while the host presents `RD reg` (R190, log 24). -/
  | rstRd (off : Nat)
  /-- Operand lines are presented to a stand-alone instance of `PACK565` (log 13). -/
  | pack (x : BitVec 24)
  /-- Operand lines are presented to a stand-alone instance of a widening function (log 13). -/
  | unpack (ch : Channel) (x : BitVec 16)
deriving DecidableEq, Repr

/-- Why the machine stops. -/
inductive Fault where
  /-- Raised by an engine turn while `STATE = BUSY` and `PHASE` holds a reserved code, 13 to 15: "stuck is the correct
  reading" (93 U10). Safe: no run reaches it. -/
  | reservedPhase
  /-- Raised by `FETCH` when a pixel of the block lies at or beyond `SRC_SIZE`: the engine is stuck (20_memory.md R54,
  U1). Safe: real hardware goes on in some undefined way. -/
  | srcUnbacked
  /-- Raised by `STORE`, `FILL` and a reset with a write in flight when a word lies at or beyond `DST_SIZE` (R54, U1).
  Safe. -/
  | dstUnbacked
  /-- Raised by a host access to SRC at or beyond `SRC_SIZE` (R54, log 7). Safe. -/
  | hostSrcUnbacked
  /-- Raised by a host access to DST at or beyond `DST_SIZE` (R54, log 7). Safe. -/
  | hostDstUnbacked
deriving DecidableEq, Repr

/-- Why the model gives no meaning. -/
inductive Refusal where
  /-- Raised by a dispatch arm for an instruction that has no meaning yet; no arm does. Safe. -/
  | notModelled (mnemonic : String)
  /-- Raised by a host access to SRC while `STATE = BUSY`: the host has no such move (R194, U2; log 8). Safe. -/
  | hostSrcWhileBusy
  /-- Raised by a host access to DST while `STATE = BUSY`: the host has no such move (R195, U2; log 8). Safe. -/
  | hostDstWhileBusy
deriving DecidableEq, Repr

structure State where
  -- host-visible registers (10_state.md R11 to R16, R19 to R21)
  width : BitVec 16
  height : BitVec 16
  state : EngineState
  phase : BitVec 4
  degen : Bool
  cause : BitVec 4
  cnt : BitVec 29
  -- datapath registers (R22 to R28)
  pix : Vector Rgb 16
  minR : Byte
  minG : Byte
  minB : Byte
  maxR : Byte
  maxG : Byte
  maxB : Byte
  insR : BitVec 4
  insG : BitVec 4
  insB : BitVec 4
  c0 : Half
  c1 : Half
  pal : Vector Rgb 4
  idx : Word
  w0 : Word
  w1 : Word
  -- memories (R30, R31)
  src : Memory
  dst : Memory
  -- the model's own: open parameters (log 6), the turns to come (log 1), what the host last read (log 15), and the
  -- outputs of stand-alone codec instances (log 13)
  cfg : Config
  script : List Turn
  hostData : Word
  packOut : Half
  unpackOut : Byte
deriving DecidableEq, Repr

/-- Black, the value the model names for a colour register at reset (DESIGN CHOICE, log 4). -/
def Rgb.zero : Rgb := ⟨0#8, 0#8, 0#8⟩

/-- The state after reset (R34). The spec states the control registers; the datapath registers, the memories' contents
and the model's own fields hold the values logs 1, 4, 5, 6, 13 and 15 name. -/
def State.reset : State where
  width := 0#16
  height := 0#16
  state := .idle
  phase := 0#4
  degen := false
  cause := 0#4
  cnt := 0#29
  pix := Vector.replicate 16 Rgb.zero
  minR := 0#8
  minG := 0#8
  minB := 0#8
  maxR := 0#8
  maxG := 0#8
  maxB := 0#8
  insR := 0#4
  insG := 0#4
  insB := 0#4
  c0 := 0#16
  c1 := 0#16
  pal := Vector.replicate 4 Rgb.zero
  idx := 0#32
  w0 := 0#32
  w1 := 0#32
  src := []
  dst := []
  cfg := Config.full
  script := []
  hostData := 0#32
  packOut := 0#16
  unpackOut := 0#8

end Sys2Proof.Machine
end

