-- ==== Sys2Proof/Machine/Ops.lean ====
section
/-! DEFINITION. The named operations every meaning is made of: one byte and one word of a memory, the updates of the
registers, taking an exception and returning from one. -/

namespace Sys2Proof.Machine

/-! ### Memory, one byte at a time -/

/-- The byte at address `a`. -/
def Memory.read : Memory → Nat → Byte
  | [], _ => Config.unlisted
  | (x, v) :: m, a => if a = x then v else Memory.read m a

/-- The entry for `b` at `a`, in front of `m`: none when `b` is what an unlisted byte reads as. -/
def Memory.put (a : Nat) (b : Byte) (m : Memory) : Memory :=
  if b = Config.unlisted then m else (a, b) :: m

/-- `m` with byte `b` at address `a`, in canonical form when `m` is. -/
def Memory.write : Memory → Nat → Byte → Memory
  | [], a, b => Memory.put a b []
  | (x, v) :: m, a, b =>
    if a < x then Memory.put a b ((x, v) :: m)
    else if a = x then Memory.put a b m
    else (x, v) :: Memory.write m a b

/-- `m` is in canonical form from address `lo` on: addresses strictly rising, none below `lo`, no entry equal to what an
unlisted byte reads as. -/
def Memory.wfFrom : Nat → Memory → Bool
  | _, [] => true
  | lo, (x, v) :: m => decide (lo ≤ x) && (decide (v ≠ Config.unlisted) && Memory.wfFrom (x + 1) m)

/-- The canonical form of a memory. -/
def Memory.wf (m : Memory) : Bool := Memory.wfFrom 0 m

/-! ### Memory, one 32-bit word at a time: little-endian, the one place byte order is decided (20_memory.md R42, R45) -/

/-- Byte `j` of a word, `w[8j+7 : 8j]`. -/
def wordByte (w : Word) (j : Nat) : Byte := w.extractLsb' (8 * j) 8

/-- The word whose byte `j` is the byte at `4i + j`. -/
def Memory.readWord (m : Memory) (i : Nat) : Word :=
  m.read (4 * i + 3) ++ m.read (4 * i + 2) ++ m.read (4 * i + 1) ++ m.read (4 * i)

/-- `DSTW[i] <- w`, that is `MemWrite(4*i, 4, w)` (00_scope.md section 5, R44). -/
def Memory.writeWord (m : Memory) (i : Nat) (w : Word) : Memory :=
  (((m.write (4 * i) (wordByte w 0)).write (4 * i + 1) (wordByte w 1)).write (4 * i + 2) (wordByte w 2)).write
    (4 * i + 3) (wordByte w 3)

/-! ### Backing (20_memory.md R54): inside the address space and inside what the platform backs -/

def State.srcBacked (s : State) (a : Nat) : Bool := decide (a < s.cfg.srcSize) && decide (a < Config.srcSpace)

def State.dstBacked (s : State) (i : Nat) : Bool := decide (i < s.cfg.dstSize) && decide (i < Config.dstSpace)

/-! ### Register updates -/

/-- `PHASE <- target` (00_scope.md section 5). -/
def State.goto (s : State) (p : BitVec 4) : State := { s with phase := p }

/-- The end of a command that succeeded: `STATE <- DONE_OK ; PHASE <- IDLE`. -/
def State.finish (s : State) : State := { s with state := .doneOk, phase := Phase.idle }

/-- Command acceptance (46_host_commands.md R154), for `COMPRESS` and `TFILL`. -/
def State.start (s : State) (p : BitVec 4) : State :=
  { s with state := .busy, cause := 0#4, cnt := 0#29, degen := false, phase := p }

def State.setCnt (s : State) (n : BitVec 29) : State := { s with cnt := n }

def State.setDegen (s : State) (d : Bool) : State := { s with degen := d }

def State.setPix (s : State) (p : Vector Rgb 16) : State := { s with pix := p }

/-- The six bounding-box registers, minimum and maximum triple (10_state.md R23). -/
def State.setBox (s : State) (lo hi : Rgb) : State :=
  { s with minR := lo.r, minG := lo.g, minB := lo.b, maxR := hi.r, maxG := hi.g, maxB := hi.b }

def State.setInset (s : State) (r g b : BitVec 4) : State := { s with insR := r, insG := g, insB := b }

def State.setEndpoints (s : State) (c0 c1 : Half) : State := { s with c0 := c0, c1 := c1 }

def State.setPal (s : State) (p : Vector Rgb 4) : State := { s with pal := p }

def State.setIdx (s : State) (w : Word) : State := { s with idx := w }

def State.setWords (s : State) (w0 w1 : Word) : State := { s with w0 := w0, w1 := w1 }

def State.setWidth (s : State) (w : BitVec 16) : State := { s with width := w }

def State.setHeight (s : State) (h : BitVec 16) : State := { s with height := h }

/-- One DST write transaction, `DSTW[i] <- w` (20_memory.md R44). -/
def State.storeWord (s : State) (i : Nat) (w : Word) : State := { s with dst := s.dst.writeWord i w }

/-- The host writes one SRC byte (46_host_commands.md R159). -/
def State.storeSrc (s : State) (a : Nat) (b : Byte) : State := { s with src := s.src.write a b }

def State.setScript (s : State) (ts : List Turn) : State := { s with script := ts }

def State.setHostData (s : State) (w : Word) : State := { s with hostData := w }

def State.setPackOut (s : State) (h : Half) : State := { s with packOut := h }

def State.setUnpackOut (s : State) (b : Byte) : State := { s with unpackOut := b }

/-! ### Exceptions -/

/-- `CAUSE.CODE` of each cause (60_exceptions.md R170). -/
def Cause.code : Cause → BitVec 4
  | .invalidDimensions => 1#4
  | .illegalCommand => 2#4

/-- Trap entry (60_exceptions.md R174): the cause is recorded, the engine stops, "Nothing else changes". -/
def State.raise (s : State) (c : Cause) : State :=
  { s with cause := c.code, state := .doneErr, phase := Phase.idle }

/-- Return from a trap by `CLEAR` (46_host_commands.md R151, 60_exceptions.md R176): "Nothing is restored because nothing
was saved". The two other returns are `State.start`. -/
def State.acknowledge (s : State) : State := { s with state := .idle, cause := 0#4 }

/-! ### Reset -/

/-- `rst` (70_reset_and_hazards.md R190, R191): the registers of 10_state.md R34 take their reset values; the memories,
the platform and the rest of the script are untouched, and so are the model's own observation fields. -/
def State.resetRegisters (s : State) : State :=
  { State.reset with
    src := s.src, dst := s.dst, cfg := s.cfg, script := s.script, hostData := s.hostData,
    packOut := s.packOut, unpackOut := s.unpackOut }

end Sys2Proof.Machine
end

