-- ==== Sys2Proof/Machine/Operands.lean ====
section
/-! DEFINITION. Where an instruction's operands are: the derived values of 10_state.md R29, the pixel addresses of
20_memory.md R41 and the DST words of 30_encoding.md R70. Mathematical integers, so nothing wraps (00_scope.md section 5). -/

namespace Sys2Proof.Machine

/-- `BW = W >> 2`. -/
def State.blocksPerRow (s : State) : Nat := s.width.toNat >>> 2

/-- `BH = H >> 2`. -/
def State.blockRows (s : State) : Nat := s.height.toNat >>> 2

/-- `NBLK = BW * BH`. -/
def State.blockCount (s : State) : Nat := s.blocksPerRow * s.blockRows

/-- `NW = (W * H) >> 3`, truncating (45_transparent_fill.md R148). -/
def State.fillWords (s : State) : Nat := (s.width.toNat * s.height.toNat) >>> 3

/-- `BX = CNT mod BW`, "only used when BW > 0"; with `BW = 0` a free value (log 11). -/
def State.blockX (s : State) : Nat :=
  if s.blocksPerRow = 0 then (Config.freeBlockX s.cnt s.width).toNat else s.cnt.toNat % s.blocksPerRow

/-- `BY = CNT div BW`, "only used when BW > 0"; with `BW = 0` a free value (log 11). -/
def State.blockY (s : State) : Nat :=
  if s.blocksPerRow = 0 then (Config.freeBlockY s.cnt s.width).toNat else s.cnt.toNat / s.blocksPerRow

/-- The pixel index `p = y*W + x` of pixel number `k` of block `CNT` (41_block_analyzer.md R90): `row = k div 4`,
`col = k mod 4`, `x = 4*bx + col`, `y = 4*by + row`. -/
def State.pixelIndex (s : State) (k : Nat) : Nat :=
  (4 * s.blockY + k / 4) * s.width.toNat + (4 * s.blockX + k % 4)

/-- The 32 bits the SRC port returns for pixel `p`: byte `4p` in bits 7:0, up to byte `4p+3` in bits 31:24
(20_memory.md R42). -/
def State.srcPixelWord (s : State) (p : Nat) : Word := s.src.readWord p

/-- "The engine uses bits 23:0 and discards bits 31:24" (R42): the alpha byte is dropped. -/
def pixelOfWord (w : Word) : Rgb := ⟨w.extractLsb' 0 8, w.extractLsb' 8 8, w.extractLsb' 16 8⟩

/-- Pixel number `k` of block `CNT` as `FETCH` reads it. -/
def State.fetchedPixel (s : State) (k : Nat) : Rgb := pixelOfWord (s.srcPixelWord (s.pixelIndex k))

/-- Whether the four bytes `4p .. 4p+3` are backed. -/
def State.pixelBacked (s : State) (p : Nat) : Bool := s.srcBacked (4 * p + 3)

/-- Whether all sixteen pixels of block `CNT` are backed. -/
def State.blockBacked (s : State) : Bool := (List.range 16).all (fun k => s.pixelBacked (s.pixelIndex k))

/-- The DST word address of the endpoint word of block `CNT`; the index word is the next (44_encode_and_driver.md R126). -/
def State.endpointSlot (s : State) : Nat := 2 * s.cnt.toNat

/-- The DST word address `FILL` writes (45_transparent_fill.md R146). -/
def State.fillSlot (s : State) : Nat := s.cnt.toNat

/-- `CNT + 1` (44_encode_and_driver.md R127, 45_transparent_fill.md R146). No run increments `CNT` past `NBLK` or `NW`; where
the sum would not fit 29 bits it is a free value (log 12). -/
def nextCount (c : BitVec 29) : BitVec 29 := if c.toNat + 1 < 2 ^ 29 then c + 1#29 else Config.countPastEnd

/-- The constant fill word wired into `FILL` (10_state.md R33). -/
def fillWord : Word := 0xFFFFFFFF#32

end Sys2Proof.Machine
end

