-- ==== Sys2Proof/Machine/Flags.lean ====
section
/-! DEFINITION. The one condition flag (`DEGEN`, 10_state.md R21), the conditions the engine tests inside a phase, the
host-visible registers assembled from their fields, and the level outputs. -/

namespace Sys2Proof.Machine

/-- The degenerate test of `ORDER` (41_block_analyzer.md R97): equality of the packed endpoints, not of the pixels
(90_conflicts.md C3). -/
def degenerate (c0 c1 : Half) : Bool := decide (c0 = c1)

/-- The exchange test of `ORDER`: `C0 < C1`, unsigned (R97). -/
def mustExchange (c0 c1 : Half) : Bool := decide (c0.toNat < c1.toNat)

/-- The dimension check of `CHECK` (44_encode_and_driver.md R128): `WIDTH[1:0] != 0 or HEIGHT[1:0] != 0`. -/
def State.badDimensions (s : State) : Bool :=
  decide (s.width.extractLsb' 0 2 ≠ 0#2) || decide (s.height.extractLsb' 0 2 ≠ 0#2)

/-- The loop test of `NEXT` (R127, 90_conflicts.md C8): `CNT + 1 == NBLK`. -/
def State.lastBlock (s : State) : Bool := decide (s.cnt.toNat + 1 = s.blockCount)

/-- The loop test of `FILL` (45_transparent_fill.md R146): `CNT == NW`. -/
def State.fillDone (s : State) : Bool := decide (s.cnt.toNat = s.fillWords)

/-! ### Host-visible registers (10_state.md section 2) -/

/-- The two bits of `STATUS.STATE` (R20). -/
def EngineState.code : EngineState → BitVec 2
  | .idle => 0#2
  | .busy => 1#2
  | .doneOk => 2#2
  | .doneErr => 3#2

/-- `STATUS` as a read returns it (R14): `{0[22:0], DEGEN, PHASE[3:0], 0b00, STATE[1:0]}`. -/
def State.statusWord (s : State) : Word :=
  0#23 ++ BitVec.ofBool s.degen ++ s.phase ++ 0#2 ++ s.state.code

/-- What a read of a register returns, by word offset (46_host_commands.md R152; 10_state.md R17 for every other
offset). -/
def State.readReg (s : State) : Nat → Word
  | 1 => s.statusWord
  | 2 => s.width.setWidth 32
  | 3 => s.height.setWidth 32
  | 4 => s.cause.setWidth 32
  | 5 => s.cnt.setWidth 32
  | _ => 0#32

/-- What a write to a register other than `CMD` does while `STATE` is not `BUSY` (46_host_commands.md R153): `WIDTH` and
`HEIGHT` keep the low half of the value, every other offset ignores it. -/
def State.writeReg (s : State) (off : Nat) (v : Word) : State :=
  match off with
  | 2 => s.setWidth (v.extractLsb' 0 16)
  | 3 => s.setHeight (v.extractLsb' 0 16)
  | _ => s

/-! ### Level outputs (10_state.md R32) -/

def State.busyOut (s : State) : Bool := decide (s.state = .busy)

def State.doneOut (s : State) : Bool := decide (s.state = .doneOk) || decide (s.state = .doneErr)

def State.errOut (s : State) : Bool := decide (s.state = .doneErr)

/-- `irq = done` (60_exceptions.md R179). -/
def State.irqOut (s : State) : Bool := s.doneOut

end Sys2Proof.Machine
end

