-- ==== Sys2Proof/Machine/Codec.lean ====
section
/-! DEFINITION. The colour-space codec (40_color_codec.md): the four combinational functions, and what evaluating one on
its own does. -/

namespace Sys2Proof.Machine

/-- `PACK565` (R80): `((r & 0xF8) << 8) | ((g & 0xFC) << 3) | (b >> 3)`, on 16 bits. -/
def pack565 (r g b : Byte) : Half :=
  ((r &&& 0xF8#8).setWidth 16 <<< 8) ||| ((g &&& 0xFC#8).setWidth 16 <<< 3) ||| (b >>> 3).setWidth 16

/-- Widening a 5-bit field `v`: `(v << 3) | (v >> 2)`, on 8 bits (R81, R83). -/
def widen5 (v : BitVec 5) : Byte := (v.setWidth 8 <<< 3) ||| (v >>> 2).setWidth 8

/-- Widening a 6-bit field `v`: `(v << 2) | (v >> 4)`, on 8 bits (R82). -/
def widen6 (v : BitVec 6) : Byte := (v.setWidth 8 <<< 2) ||| (v >>> 4).setWidth 8

/-- `UNPACKR565` (R81), of `c[15:11]`. -/
def unpackR565 (c : Half) : Byte := widen5 (c.extractLsb' 11 5)

/-- `UNPACKG565` (R82), of `c[10:5]`. -/
def unpackG565 (c : Half) : Byte := widen6 (c.extractLsb' 5 6)

/-- `UNPACKB565` (R83), of `c[4:0]`. -/
def unpackB565 (c : Half) : Byte := widen5 (c.extractLsb' 0 5)

/-- `EXPAND565` (R84). -/
def expand565 (c : Half) : Rgb := ⟨unpackR565 c, unpackG565 c, unpackB565 c⟩

/-- `PACK565` of a triple. -/
def packRgb (q : Rgb) : Half := pack565 q.r q.g q.b

/-! The meanings. A combinational function has no state: its result appears on the output of the stand-alone instance it
is evaluated on, which the model holds in `packOut` and `unpackOut` (log 13). -/

def execPack565 (r g b : Byte) (s : State) : Host.Outcome State Fault Refusal :=
  .next (s.setPackOut (pack565 r g b))

def execUnpackR565 (c : Half) (s : State) : Host.Outcome State Fault Refusal :=
  .next (s.setUnpackOut (unpackR565 c))

def execUnpackG565 (c : Half) (s : State) : Host.Outcome State Fault Refusal :=
  .next (s.setUnpackOut (unpackG565 c))

def execUnpackB565 (c : Half) (s : State) : Host.Outcome State Fault Refusal :=
  .next (s.setUnpackOut (unpackB565 c))

end Sys2Proof.Machine
end

