-- ==== Sys2Proof/Machine/Analyzer.lean ====
section
/-! DEFINITION. The block analyzer (41_block_analyzer.md): `FETCH`, `BBOX`, `INSET`, `ENDPT`, `ORDER`. -/

namespace Sys2Proof.Machine

/-! ### FETCH (R90) -/

/-- The sixteen pixels of block `CNT`, in raster order. -/
def State.fetchedBlock (s : State) : Vector Rgb 16 := Vector.ofFn (fun k : Fin 16 => s.fetchedPixel k.val)

/-- `FETCH`. The engine is stuck where a pixel is not backed (20_memory.md R54). -/
def execFetch (s : State) : Host.Outcome State Fault Refusal :=
  if s.blockBacked then .next ((s.setPix s.fetchedBlock).goto Phase.bbox)
  else .fault .srcUnbacked

/-! ### BBOX (R92) -/

/-- The smaller of two channel values, unsigned. -/
def minByte (x y : Byte) : Byte := if y.toNat < x.toNat then y else x

/-- The larger of two channel values, unsigned. -/
def maxByte (x y : Byte) : Byte := if x.toNat < y.toNat then y else x

/-- "min over k=0..15 of PIX[k].ch" for the channel `ch`. -/
def channelMin (ch : Rgb → Byte) (pix : Vector Rgb 16) : Byte :=
  (pix.toList.map ch).foldl minByte (ch pix[0])

/-- "max over k=0..15 of PIX[k].ch". -/
def channelMax (ch : Rgb → Byte) (pix : Vector Rgb 16) : Byte :=
  (pix.toList.map ch).foldl maxByte (ch pix[0])

def boxMin (pix : Vector Rgb 16) : Rgb := ⟨channelMin Rgb.r pix, channelMin Rgb.g pix, channelMin Rgb.b pix⟩

def boxMax (pix : Vector Rgb 16) : Rgb := ⟨channelMax Rgb.r pix, channelMax Rgb.g pix, channelMax Rgb.b pix⟩

def execBbox (s : State) : Host.Outcome State Fault Refusal :=
  .next ((s.setBox (boxMin s.pix) (boxMax s.pix)).goto Phase.inset)

/-! ### INSET (R93) -/

/-- `(MAX - MIN) >> 4`, 4 bits. "`MAX ≥ MIN` per channel" in every state a run reaches; elsewhere no rule states
a result and it is a free value (log 12). -/
def insetOf (lo hi : Byte) : BitVec 4 :=
  if hi.toNat < lo.toNat then Config.unorderedInset lo hi else ((hi - lo) >>> Config.insetShift).setWidth 4

def execInset (s : State) : Host.Outcome State Fault Refusal :=
  .next ((s.setInset (insetOf s.minR s.maxR) (insetOf s.minG s.maxG) (insetOf s.minB s.maxB)).goto Phase.endpt)

/-! ### ENDPT (R94) -/

/-- The adjusted maximum: `x_hi = MAX - INS`, an integer, `x_hi if INS <= x_hi else 0` (the source's `clamp_low`, tested
on the adjusted value, 90_conflicts.md C4). -/
def adjustedHi (hi : Byte) (ins : BitVec 4) : Byte :=
  let x : Int := (hi.toNat : Int) - (ins.toNat : Int)
  if (ins.toNat : Int) ≤ x then BitVec.ofInt 8 x else 0#8

/-- The adjusted minimum: `x_lo = MIN + INS`, an integer, `x_lo if x_lo < 255 else 255` (the source's `clamp_high`). -/
def adjustedLo (lo : Byte) (ins : BitVec 4) : Byte :=
  let x : Nat := lo.toNat + ins.toNat
  if x < 255 then BitVec.ofNat 8 x else 255#8

/-- `maxColor565`. -/
def State.maxEndpoint (s : State) : Half :=
  pack565 (adjustedHi s.maxR s.insR) (adjustedHi s.maxG s.insG) (adjustedHi s.maxB s.insB)

/-- `minColor565`. -/
def State.minEndpoint (s : State) : Half :=
  pack565 (adjustedLo s.minR s.insR) (adjustedLo s.minG s.insG) (adjustedLo s.minB s.insB)

def execEndpt (s : State) : Host.Outcome State Fault Refusal :=
  .next ((s.setEndpoints s.maxEndpoint s.minEndpoint).goto Phase.order)

/-! ### ORDER (R97) -/

def execOrder (s : State) : Host.Outcome State Fault Refusal :=
  if degenerate s.c0 s.c1 then .next ((s.setDegen true).goto Phase.encode)
  else if mustExchange s.c0 s.c1 then
    .next (((s.setDegen false).setEndpoints s.c1 s.c0).goto Phase.palette)
  else .next ((s.setDegen false).goto Phase.palette)

end Sys2Proof.Machine
end

