-- ==== Sys2Proof/Machine/Palette.lean ====
section
/-! DEFINITION. The palette builder (42_palette.md): `PALETTE`. -/

namespace Sys2Proof.Machine

/-- One channel of a blend, `(2*x + y) div 3`, truncating (R110). -/
def blendByte (x y : Byte) : Byte := BitVec.ofNat 8 ((2 * x.toNat + y.toNat) / 3)

/-- The blend with weight 2/3 on `p`. -/
def blend (p q : Rgb) : Rgb := ⟨blendByte p.r q.r, blendByte p.g q.g, blendByte p.b q.b⟩

/-- The palette of two endpoints, in the order R111 fixes: the two endpoints widened, then the blend nearer the first,
then the blend nearer the second. -/
def paletteOf (c0 c1 : Half) : Vector Rgb 4 :=
  #v[expand565 c0, expand565 c1, blend (expand565 c0) (expand565 c1), blend (expand565 c1) (expand565 c0)]

def execPalette (s : State) : Host.Outcome State Fault Refusal :=
  .next ((s.setPal (paletteOf s.c0 s.c1)).goto Phase.index)

end Sys2Proof.Machine
end

