-- ==== Sys2Proof/Machine/Index.lean ====
section
/-! DEFINITION. The index assigner (43_index_assigner.md): `INDEX` with `DIST`. -/

namespace Sys2Proof.Machine

/-- The square of the signed difference of two channel values. -/
def squaredDiff (x y : Byte) : Nat :=
  let d : Int := (x.toNat : Int) - (y.toNat : Int)
  (d * d).toNat

/-- `DIST` (R116): "no square root, no channel weights, alpha not included". -/
def dist (a q : Rgb) : Nat := squaredDiff a.r q.r + squaredDiff a.g q.g + squaredDiff a.b q.b

/-- The search of R115 over `d[0..3]`: an entry replaces the best so far only if it is strictly nearer (R117). -/
def nearestOf (d : Nat → Nat) : Nat :=
  [1, 2, 3].foldl (fun best i => if d i < d best then i else best) 0

/-- Entry `i` of a palette; only 0 to 3 are used. -/
def palEntry (pal : Vector Rgb 4) (i : Nat) : Rgb := pal.toList.getD i Rgb.zero

/-- The palette index of one pixel. -/
def nearest (pal : Vector Rgb 4) (p : Rgb) : BitVec 2 :=
  BitVec.ofNat 2 (nearestOf (fun i => dist p (palEntry pal i)))

/-- The index word: the index of pixel `k` in bits `2k+1 : 2k` (R115, R118), pixels `ps` from number `k` on. -/
def packIndices (pal : Vector Rgb 4) : Nat → List Rgb → Word → Word
  | _, [], acc => acc
  | k, p :: ps, acc => packIndices pal (k + 1) ps (acc ||| ((nearest pal p).setWidth 32 <<< (2 * k)))

def indexWord (pal : Vector Rgb 4) (pix : Vector Rgb 16) : Word := packIndices pal 0 pix.toList 0#32

def execIndex (s : State) : Host.Outcome State Fault Refusal :=
  .next ((s.setIdx (indexWord s.pal s.pix)).goto Phase.encode)

end Sys2Proof.Machine
end

