-- ==== Sys2Proof/Machine/Driver.lean ====
section
/-! DEFINITION. The image driver (44_encode_and_driver.md): the command `COMPRESS` and the phases `CHECK`, `ENCODE`,
`STORE`, `NEXT`. -/

namespace Sys2Proof.Machine

/-- `COMPRESS` (R129): accepted unless `BUSY`, ignored then. -/
def execCompress (s : State) : Host.Outcome State Fault Refusal :=
  if s.state = .busy then .next s else .next (s.start Phase.check)

/-- `CHECK` (R128). -/
def execCheck (s : State) : Host.Outcome State Fault Refusal :=
  if s.badDimensions then .next (s.raise .invalidDimensions)
  else if s.blockCount = 0 then .next s.finish
  else .next (s.goto Phase.fetch)

/-- The endpoint word `(C1 << 16) | C0`, that is `{C1, C0}` (30_encoding.md R68). -/
def endpointWord (c0 c1 : Half) : Word := (c1.setWidth 32 <<< 16) ||| c0.setWidth 32

/-- `ENCODE` (R125); `IDX` is not read for a degenerate block. -/
def execEncode (s : State) : Host.Outcome State Fault Refusal :=
  .next ((s.setWords (endpointWord s.c0 s.c1) (if s.degen then 0x00000000#32 else s.idx)).goto Phase.store)

/-- `STORE` (R126): the endpoint word, then the index word. Stuck where either is not backed (20_memory.md R54). -/
def execStore (s : State) : Host.Outcome State Fault Refusal :=
  if s.dstBacked s.endpointSlot && s.dstBacked (s.endpointSlot + 1) then
    .next (((s.storeWord s.endpointSlot s.w0).storeWord (s.endpointSlot + 1) s.w1).goto Phase.next)
  else .fault .dstUnbacked

/-- `NEXT` (R127). -/
def execNext (s : State) : Host.Outcome State Fault Refusal :=
  if s.lastBlock then .next ((s.setCnt (nextCount s.cnt)).finish)
  else .next ((s.setCnt (nextCount s.cnt)).goto Phase.fetch)

end Sys2Proof.Machine
end

