-- ==== Sys2Proof/Machine/TransparentFill.lean ====
section
/-! DEFINITION. The transparent-image generator (45_transparent_fill.md): the command `TFILL` and the phase `FILL`. -/

namespace Sys2Proof.Machine

/-- `TFILL` (R145): accepted unless `BUSY`; "`TFILL` never faults, whatever `WIDTH` and `HEIGHT` hold". -/
def execTfill (s : State) : Host.Outcome State Fault Refusal :=
  if s.state = .busy then .next s else .next (s.start Phase.fill)

/-- `FILL` (R146): one all-ones word, or the end. Stuck where the word is not backed (20_memory.md R54). -/
def execFill (s : State) : Host.Outcome State Fault Refusal :=
  if s.fillDone then .next s.finish
  else if s.dstBacked s.fillSlot then .next ((s.storeWord s.fillSlot fillWord).setCnt (nextCount s.cnt))
  else .fault .dstUnbacked

end Sys2Proof.Machine
end

