-- ==== Sys2Proof/Machine/HostCommands.lean ====
section
/-! DEFINITION. The housekeeping commands and the idle phase (46_host_commands.md): `NOP`, `CLEAR`, `IDLE`. -/

namespace Sys2Proof.Machine

/-- `NOP` (R150): "no state changes, in any `STATE`". -/
def execNop (s : State) : Host.Outcome State Fault Refusal := .next s

/-- `CLEAR` (R151): the return from a trap; ignored while `BUSY`, "it cannot cancel a command". -/
def execClear (s : State) : Host.Outcome State Fault Refusal :=
  if s.state = .busy then .next s else .next s.acknowledge

/-- `IDLE` (R156): the engine has no step and holds its state (60_exceptions.md R184; log 2). -/
def execIdle (s : State) : Host.Outcome State Fault Refusal := .next s

end Sys2Proof.Machine
end

