-- ==== Sys2Proof/Machine/Dispatch.lean ====
section
/-! DEFINITION. What an instruction does: one arm per constructor, one call of its meaning. -/

namespace Sys2Proof.Machine

def exec (i : Instr) (s : State) : Host.Outcome State Fault Refusal :=
  match i with
  | .nop => Sys2Proof.Machine.execNop s
  | .compress => Sys2Proof.Machine.execCompress s
  | .tfill => Sys2Proof.Machine.execTfill s
  | .clear => Sys2Proof.Machine.execClear s
  | .idle => Sys2Proof.Machine.execIdle s
  | .check => Sys2Proof.Machine.execCheck s
  | .fetch => Sys2Proof.Machine.execFetch s
  | .bbox => Sys2Proof.Machine.execBbox s
  | .inset => Sys2Proof.Machine.execInset s
  | .endpt => Sys2Proof.Machine.execEndpt s
  | .order => Sys2Proof.Machine.execOrder s
  | .palette => Sys2Proof.Machine.execPalette s
  | .index => Sys2Proof.Machine.execIndex s
  | .encode => Sys2Proof.Machine.execEncode s
  | .store => Sys2Proof.Machine.execStore s
  | .next => Sys2Proof.Machine.execNext s
  | .fill => Sys2Proof.Machine.execFill s
  | .pack565 r g b => Sys2Proof.Machine.execPack565 r g b s
  | .unpackr565 c => Sys2Proof.Machine.execUnpackR565 c s
  | .unpackg565 c => Sys2Proof.Machine.execUnpackG565 c s
  | .unpackb565 c => Sys2Proof.Machine.execUnpackB565 c s

end Sys2Proof.Machine
end

