-- ==== Sys2Proof/Machine/Ports.lean ====
section
/-! DEFINITION. The transactions a phase issues on the two memory ports, in order (10_state.md R36, 20_memory.md R49,
R50). -/

namespace Sys2Proof.Machine

/-- One transaction on a memory port. -/
inductive PortAccess where
  /-- SRC port: the four bytes of pixel `p` are read (20_memory.md R42). -/
  | srcRead (p : Nat)
  /-- DST port: one word is written (R44). -/
  | dstWrite (i : Nat) (w : Word)
deriving DecidableEq, Repr

/-- The transactions of the phase about to run: sixteen reads in ascending `k` for `FETCH`, the endpoint word then the
index word for `STORE`, one word or none for `FILL`; "no other phase touches memory" (R49). -/
def State.portAccesses (s : State) : List PortAccess :=
  if s.state = .busy then
    if s.phase = Phase.fetch then (List.range 16).map (fun k => .srcRead (s.pixelIndex k))
    else if s.phase = Phase.store then
      [.dstWrite s.endpointSlot s.w0, .dstWrite (s.endpointSlot + 1) s.w1]
    else if s.phase = Phase.fill then
      if s.fillDone then [] else [.dstWrite s.fillSlot fillWord]
    else []
  else []

/-- DST after one transaction. -/
def PortAccess.apply (m : Memory) : PortAccess → Memory
  | .srcRead _ => m
  | .dstWrite i w => m.writeWord i w

/-- The DST word a transaction writes, if it writes one. -/
def PortAccess.written : PortAccess → Option (Nat × Word)
  | .srcRead _ => none
  | .dstWrite i w => some (i, w)

/-- The first DST write of the phase about to run, if it has one. -/
def State.firstWrite (s : State) : Option (Nat × Word) := s.portAccesses.findSome? PortAccess.written

end Sys2Proof.Machine
end

