-- ==== Sys2Proof/Machine/Turns.lean ====
section
/-! DEFINITION. What the next turn does, short of running an instruction: the sequencer's selection of a phase
(46_host_commands.md R158), the host transactions (R152 to R154, R159), reset (70_reset_and_hazards.md R190, R191) and the
pseudo-instructions of 30_encoding.md R72. -/

namespace Sys2Proof.Machine

/-- What a step is to do: run an instruction at a state, or nothing more than an outcome already known. -/
inductive Work where
  | run (i : Instr) (s : State)
  | done (o : Host.Outcome State Fault Refusal)

/-! ### The engine (R158) -/

/-- An engine turn: the phase `PHASE` names while `STATE = BUSY`, and `IDLE` otherwise, when the engine has no step. -/
def engineWork (s : State) : Work :=
  if s.state = .busy then
    match decode (.phase s.phase) with
    | .ok i => .run i s
    | .error _ => .done (.fault .reservedPhase)
  else .run .idle s

/-! ### Register transactions -/

/-- A write to `CMD` while `STATE` is not `BUSY` (R154): the reserved-word test, then the decode. -/
def commandWork (v : Word) (s : State) : Work :=
  match decode (.cmd v) with
  | .ok i => .run i s
  | .error _ => .done (.next (s.raise .illegalCommand))

/-- `WR` (R153): ignored while `BUSY`, whatever the offset and the value. -/
def writeWork (off : Nat) (v : Word) (s : State) : Work :=
  if s.state = .busy then .done (.next s)
  else if off = 0 then commandWork v s
  else .done (.next (s.writeReg off v))

/-- `RD` (R152): the value returned is what the host last read (log 15); nothing of DXT1C changes. -/
def readWork (off : Nat) (s : State) : Work := .done (.next (s.setHostData (s.readReg off)))

/-! ### Host accesses to the memories (R159): only while `STATE` is not `BUSY` (R194, R195) -/

def hostSrcWrite (a : Nat) (b : Byte) (s : State) : Host.Outcome State Fault Refusal :=
  if s.state = .busy then .refused .hostSrcWhileBusy
  else if s.srcBacked a then .next (s.storeSrc a b)
  else .fault .hostSrcUnbacked

def hostSrcRead (a : Nat) (s : State) : Host.Outcome State Fault Refusal :=
  if s.state = .busy then .refused .hostSrcWhileBusy
  else if s.srcBacked a then .next (s.setHostData ((s.src.read a).setWidth 32))
  else .fault .hostSrcUnbacked

def hostDstWrite (i : Nat) (v : Word) (s : State) : Host.Outcome State Fault Refusal :=
  if s.state = .busy then .refused .hostDstWhileBusy
  else if s.dstBacked i then .next (s.storeWord i v)
  else .fault .hostDstUnbacked

def hostDstRead (i : Nat) (s : State) : Host.Outcome State Fault Refusal :=
  if s.state = .busy then .refused .hostDstWhileBusy
  else if s.dstBacked i then .next (s.setHostData (s.dst.readWord i))
  else .fault .hostDstUnbacked

/-! ### Reset -/

/-- `rst` (R190, R191): "the engine stops after the memory transaction in flight, if any, completes", and the registers
take their reset values. -/
def assertReset (inFlight : Bool) (s : State) : Host.Outcome State Fault Refusal :=
  match (if inFlight then s.firstWrite else none) with
  | none => .next s.resetRegisters
  | some (i, w) => if s.dstBacked i then .next (s.storeWord i w).resetRegisters else .fault .dstUnbacked

/-- The register port while `rst` is asserted: it is ignored (R190), so a write writes and starts nothing, a read returns
nothing, and the turn is a reset. No write is in flight: `Turn.rst true` ahead of it says so where one was. -/
def portUnderReset (s : State) : Host.Outcome State Fault Refusal := assertReset false s

/-- The turns in which `rst` is asserted. -/
def Turn.assertsReset : Turn → Bool
  | .rst _ | .rstWr _ _ | .rstRd _ => true
  | .engine | .wr _ _ | .rd _ | .wait | .srcw _ _ | .srcr _ | .dstw _ _ | .dstr _ | .pack _ | .unpack _ _ => false

/-! ### One turn -/

/-- `WAIT` (30_encoding.md R72) at the head of the script, `rest` behind it: a `BUSY` engine is stepped and the wait stays
(70_reset_and_hazards.md R200, log 20); otherwise `RD STATUS` ends it. -/
def waitWork (s : State) (rest : List Turn) : Work :=
  if s.state = .busy then engineWork s else readWork 1 (s.setScript rest)

/-- A turn taken from the script, which then holds `rest`. -/
def turnWork (t : Turn) (rest : List Turn) (s : State) : Work :=
  match t with
  | .engine => engineWork (s.setScript rest)
  | .wr off v => writeWork off v (s.setScript rest)
  | .rd off => readWork off (s.setScript rest)
  | .wait => waitWork s rest
  | .srcw a b => .done (hostSrcWrite a b (s.setScript rest))
  | .srcr a => .done (hostSrcRead a (s.setScript rest))
  | .dstw i v => .done (hostDstWrite i v (s.setScript rest))
  | .dstr i => .done (hostDstRead i (s.setScript rest))
  | .rst inFlight => .done (assertReset inFlight (s.setScript rest))
  | .rstWr _ _ | .rstRd _ => .done (portUnderReset (s.setScript rest))
  | .pack x =>
    match decode (.pack x) with
    | .ok i => .run i (s.setScript rest)
    | .error _ => .done (.next (s.setScript rest))
  | .unpack ch x =>
    match decode (.unpack ch x) with
    | .ok i => .run i (s.setScript rest)
    | .error _ => .done (.next (s.setScript rest))

/-- What the next step does: the first turn of the script; with no turn left the host is silent and the engine moves. -/
def nextWork (s : State) : Work :=
  match s.script with
  | [] => engineWork s
  | t :: rest => turnWork t rest s

/-! ### Presenting an instruction's bits where the next step reads them (log 3) -/

/-- The state with no command running, so that a `CMD` write is decoded. -/
def State.stopped (s : State) : State :=
  if s.state = .busy then { s with state := .idle, phase := Phase.idle } else s

/-- The state with phase `p` about to run: `STATE = BUSY`, and, for `FETCH`, a `COMPRESS` with at least one block column (a
4×4 image where `WIDTH` is below 4), so that no free value decides which pixels the placed instruction reads (log 3). -/
def State.runningPhase (s : State) (p : BitVec 4) : State :=
  if p = Phase.fetch ∧ s.blocksPerRow = 0 then
    { s with state := .busy, phase := p, width := 4#16, height := 4#16 }
  else { s with state := .busy, phase := p }

/-- `s` with `c` where the next step reads it: a `CMD` write or operand lines at the head of the script, or the value of
`PHASE` with an engine turn at the head. -/
def State.presenting (s : State) (c : Code) : State :=
  match c with
  | .cmd v => s.stopped.setScript (.wr 0 v :: s.script)
  | .phase p => (if p = Phase.idle then s.stopped.goto p else s.runningPhase p).setScript (.engine :: s.script)
  | .pack x => s.setScript (.pack x :: s.script)
  | .unpack ch x => s.setScript (.unpack ch x :: s.script)

/-! ### The host notation (30_encoding.md R72) -/

/-- `SETDIM w, h`. -/
def setDim (w h : Word) : List Turn := [.wr 2 w, .wr 3 h]

/-- The command word of an instruction, as `WR CMD, word`. -/
def writeCommand (v : Word) : List Turn := [.wr 0 v]

/-- `compress w, h`: the source's call. It is defined for dimensions below 2^16 only (U12). -/
def compressCall (w h : Nat) : Option (List Turn) :=
  if w < 2 ^ 16 ∧ h < 2 ^ 16 then
    some (setDim (BitVec.ofNat 32 w) (BitVec.ofNat 32 h) ++ writeCommand 0x00000001#32 ++ [.wait])
  else none

/-- `transparentImage w, h`. -/
def transparentImageCall (w h : Nat) : Option (List Turn) :=
  if w < 2 ^ 16 ∧ h < 2 ^ 16 then
    some (setDim (BitVec.ofNat 32 w) (BitVec.ofNat 32 h) ++ writeCommand 0x00000002#32 ++ [.wait])
  else none

end Sys2Proof.Machine
end

