-- ==== Sys2Proof/Machine/Step.lean ====
section
/-! DEFINITION. One step: the next turn, and where it selects an instruction, that instruction's meaning. -/

namespace Sys2Proof.Machine

def step (s : State) : Host.Outcome State Fault Refusal :=
  match nextWork s with
  | .run i t => exec i t
  | .done o => o

/-- `s` with the instruction of a table word where the next step reads it; `s` itself where the word is no code. -/
def State.withFetchWord (s : State) (nbits w : Nat) : State :=
  match tableCode nbits w with
  | some c => s.presenting c
  | none => s

end Sys2Proof.Machine
end

