-- ==== Sys2Proof/Machine/Reference.lean ====
section
/-! DEFINITION. The whole effect of a successful `COMPRESS` as one function (44_encode_and_driver.md R131), written apart
from the phases: the clamps in the simplified form, the exchange left out of the palette's way, the index by its
definition as the least minimiser. What the phase machine is claimed to compute. -/

namespace Sys2Proof.Machine.Reference

/-- "`mn.ch = min_k pix[k].ch`": the value of the channel that no pixel is below. -/
def channelLeast (ch : Rgb → Byte) (pix : List Rgb) : Nat := (pix.map (fun p => (ch p).toNat)).foldr min 255

/-- "`mx.ch = max_k pix[k].ch`". -/
def channelGreatest (ch : Rgb → Byte) (pix : List Rgb) : Nat := (pix.map (fun p => (ch p).toNat)).foldr max 0

/-- "`ins.ch = (mx.ch - mn.ch) >> 4`". -/
def inset (ch : Rgb → Byte) (pix : List Rgb) : Nat := (channelGreatest ch pix - channelLeast ch pix) / 16

/-- "`hi.ch = mx.ch - ins.ch`". -/
def hi (ch : Rgb → Byte) (pix : List Rgb) : Nat := channelGreatest ch pix - inset ch pix

/-- "`lo.ch = mn.ch + ins.ch`". -/
def lo (ch : Rgb → Byte) (pix : List Rgb) : Nat := channelLeast ch pix + inset ch pix

/-- The 5-6-5 packing as arithmetic: `(r div 8)*2048 + (g div 4)*32 + b div 8`. -/
def pack (r g b : Nat) : Nat := r / 8 * 2048 + g / 4 * 32 + b / 8

/-- Widening by replicating the top bits, as arithmetic: a 5-bit `v` to `8v + v div 4`. -/
def widen5 (v : Nat) : Nat := 8 * v + v / 4

/-- A 6-bit `v` to `4v + v div 16`. -/
def widen6 (v : Nat) : Nat := 4 * v + v / 16

/-- The four palette values of one channel, from its two widened endpoints (42_palette.md R110). -/
def shades (x y : Nat) : List Nat := [x, y, (2 * x + y) / 3, (x + 2 * y) / 3]

/-- The palette, entry by entry, of two packed endpoints. -/
def palette (c0 c1 : Nat) : List (Nat × Nat × Nat) :=
  let red := shades (widen5 (c0 / 2048)) (widen5 (c1 / 2048))
  let green := shades (widen6 (c0 / 32 % 64)) (widen6 (c1 / 32 % 64))
  let blue := shades (widen5 (c0 % 32)) (widen5 (c1 % 32))
  red.zip (green.zip blue)

/-- The squared distance of two numbers. -/
def sq (x y : Nat) : Nat := if x ≤ y then (y - x) * (y - x) else (x - y) * (x - y)

/-- The squared distance of a pixel and a palette entry. -/
def distance (p : Rgb) (q : Nat × Nat × Nat) : Nat :=
  sq p.r.toNat q.1 + sq p.g.toNat q.2.1 + sq p.b.toNat q.2.2

/-- "least i minimising DIST(pix[k], p[i])". -/
def leastNearest (pal : List (Nat × Nat × Nat)) (p : Rgb) : Nat :=
  pal.findIdx (fun q => pal.all (fun q' => decide (distance p q ≤ distance p q')))

/-- The index word as a number in base 4, pixel 0 the least significant digit. -/
def indices (pal : List (Nat × Nat × Nat)) : List Rgb → Nat
  | [] => 0
  | p :: ps => leastNearest pal p + 4 * indices pal ps

/-- `BLOCK(pix)`: the endpoint word and the index word. -/
def block (pix : List Rgb) : Word × Word :=
  let c0 := pack (hi Rgb.r pix) (hi Rgb.g pix) (hi Rgb.b pix)
  let c1 := pack (lo Rgb.r pix) (lo Rgb.g pix) (lo Rgb.b pix)
  if c0 = c1 then (BitVec.ofNat 32 (c1 * 65536 + c0), 0#32)
  else
    let d0 := max c0 c1
    let d1 := min c0 c1
    (BitVec.ofNat 32 (d1 * 65536 + d0), BitVec.ofNat 32 (indices (palette d0 d1) pix))

/-- The pixel at column `x` and row `y` of an image `w` pixels wide (20_memory.md R41): the bytes `4p`, `4p+1`, `4p+2`
with `p = y*w + x`. -/
def pixel (src : Memory) (w x y : Nat) : Rgb :=
  let p := y * w + x
  ⟨src.read (4 * p), src.read (4 * p + 1), src.read (4 * p + 2)⟩

/-- The sixteen pixels of block `b`, in raster order (44_encode_and_driver.md R130). -/
def blockPixels (src : Memory) (w b : Nat) : List Rgb :=
  (List.range 16).map (fun k => pixel src w (4 * (b % (w / 4)) + k % 4) (4 * (b / (w / 4)) + k / 4))

/-- The two words of block `b` of the compressed image. -/
def compressedBlock (src : Memory) (w b : Nat) : Word × Word := block (blockPixels src w b)

end Sys2Proof.Machine.Reference
end

