-- ==== Sys2Proof/Safety.lean ====
section
/-! DEFINITION. The terms claims are stated in: which agent the next turn moves, and what holds of every state a run
reaches, whatever the script. -/

namespace Sys2Proof.Safety

open Sys2Proof.Machine

/-! ### Whose turn it is -/

/-- The next step is a step of the engine (46_host_commands.md R158): it is `BUSY`, and the script is empty, or gives it the
turn, or waits for it. -/
def EngineMoves (s : State) : Prop :=
  s.state = .busy ∧
    (s.script = [] ∨ (∃ rest, s.script = .engine :: rest) ∨ ∃ rest, s.script = .wait :: rest)

/-- The next turn is a write of `v` to `CMD`. -/
def WritesCommand (s : State) (v : Word) : Prop := ∃ rest, s.script = .wr 0 v :: rest

/-- `rst` is asserted in the next turn. -/
def Resets (s : State) : Prop := ∃ x rest, s.script = x :: rest ∧ x.assertsReset = true

/-! ### The control invariant -/

/-- The phases a block goes through, `FETCH` to `NEXT` (46_host_commands.md R155). -/
def InBlockLoop (s : State) : Prop := 2 ≤ s.phase.toNat ∧ s.phase.toNat ≤ 11

/-- What holds of the control state and the memories of every state a run reaches. -/
structure Inv (s : State) : Prop where
  srcCanonical : s.src.wf = true
  dstCanonical : s.dst.wf = true
  /-- 10_state.md R19: "`PHASE = IDLE` exactly when `STATE ≠ BUSY`". -/
  idlePhase : s.phase = Phase.idle ↔ s.state ≠ .busy
  /-- R19, 30_encoding.md R65: `PHASE` "never holds 13, 14 or 15". -/
  legalPhase : s.phase.toNat ≤ 12
  /-- R15: "`CODE ≠ 0` exactly when `STATE = DONE_ERR`". -/
  causeOfError : s.cause ≠ 0#4 ↔ s.state = .doneErr
  /-- R15: "codes 3 to 15 are never produced". -/
  legalCause : s.cause.toNat ≤ 2
  /-- 60_exceptions.md R175: the first engine step of `COMPRESS` runs with `CNT = 0`. -/
  checkCount : s.phase = Phase.check → s.cnt = 0#29
  /-- 41_block_analyzer.md R90: `CHECK` has verified the dimensions. -/
  loopWidth : InBlockLoop s → s.width.toNat % 4 = 0
  loopHeight : InBlockLoop s → s.height.toNat % 4 = 0
  /-- 44_encode_and_driver.md R127: "`NEXT` is reached only with `CNT < NBLK`". -/
  loopCount : InBlockLoop s → s.cnt.toNat < s.blockCount
  /-- 45_transparent_fill.md R146: "`CNT ≤ NW`". -/
  fillCount : s.phase = Phase.fill → s.cnt.toNat ≤ s.fillWords

/-! ### The dataflow invariant -/

/-- `PHASE` lies between the codes `a` and `b`. -/
def PhaseIn (s : State) (a b : Nat) : Prop := a ≤ s.phase.toNat ∧ s.phase.toNat ≤ b

/-- The long path was taken for the block in hand: it is not degenerate, and `PHASE` is past `INDEX`. -/
def PastIndex (s : State) : Prop := PhaseIn s 9 11 ∧ s.degen = false

/-- What the datapath registers hold while a block is processed (10_state.md R35): each what the phase that wrote it
computed for this block. -/
structure Dataflow (s : State) : Prop where
  pixels : PhaseIn s 3 11 → s.pix = s.fetchedBlock
  boxMin : PhaseIn s 4 11 → (⟨s.minR, s.minG, s.minB⟩ : Rgb) = Machine.boxMin s.pix
  boxMax : PhaseIn s 4 11 → (⟨s.maxR, s.maxG, s.maxB⟩ : Rgb) = Machine.boxMax s.pix
  insetR : PhaseIn s 5 11 → s.insR = insetOf s.minR s.maxR
  insetG : PhaseIn s 5 11 → s.insG = insetOf s.minG s.maxG
  insetB : PhaseIn s 5 11 → s.insB = insetOf s.minB s.maxB
  /-- The exchange of `ORDER` is dead (41_block_analyzer.md R99), so the endpoints stay those `ENDPT` derived. -/
  endpointMax : PhaseIn s 6 11 → s.c0 = s.maxEndpoint
  endpointMin : PhaseIn s 6 11 → s.c1 = s.minEndpoint
  flag : PhaseIn s 7 11 → s.degen = decide (s.c0 = s.c1)
  longPath : PhaseIn s 7 8 → s.degen = false
  palette : PhaseIn s 8 8 ∨ PastIndex s → s.pal = paletteOf s.c0 s.c1
  indices : PastIndex s → s.idx = indexWord s.pal s.pix
  word0 : PhaseIn s 10 11 → s.w0 = endpointWord s.c0 s.c1
  word1 : PhaseIn s 10 11 → s.w1 = if s.degen then 0#32 else s.idx
  stored0 : PhaseIn s 11 11 → s.dst.readWord s.endpointSlot = s.w0
  stored1 : PhaseIn s 11 11 → s.dst.readWord (s.endpointSlot + 1) = s.w1

/-! ### The progress invariant -/

/-- The blocks stored so far are the blocks of the compressed image (44_encode_and_driver.md R131). -/
def Delivered (s : State) (n : Nat) : Prop :=
  ∀ b, b < n →
    (s.dst.readWord (2 * b), s.dst.readWord (2 * b + 1)) = Reference.compressedBlock s.src s.width.toNat b

/-- While a block is processed, every earlier block has been delivered (10_state.md R16: `CNT` is "equal to the number of
blocks completely stored so far"). -/
def Progress (s : State) : Prop := InBlockLoop s → Delivered s s.cnt.toNat

/-- Block `b` of the image in SRC is degenerate: the halves of its endpoint word are equal (30_encoding.md R68). -/
def DegenerateBlock (s : State) (b : Nat) : Bool :=
  let w := (Reference.compressedBlock s.src s.width.toNat b).1
  decide (w.toNat / 65536 = w.toNat % 65536)

end Sys2Proof.Safety
end

