-- ==== Sys2Proof/WellFormed.lean ====
section
/-! DEFINITION. What well-formed input is. An instruction's operands are bit vectors of the widths 40_color_codec.md R80
gives the ports ("an out-of-range value cannot be presented", U14), so every instruction is well formed; what a host
presents to the ports is checked here. -/

namespace Sys2Proof

/-- Every constructor's operands are typed at the width of their port. -/
def Instr.wellFormed : Instr → Bool
  | .nop | .compress | .tfill | .clear => true
  | .idle | .check | .fetch | .bbox | .inset | .endpt | .order | .palette | .index | .encode | .store | .next
  | .fill => true
  | .pack565 _ _ _ | .unpackr565 _ | .unpackg565 _ | .unpackb565 _ => true

namespace Machine

/-- A turn that fits the ports: a register word offset of three bits (10_state.md R36), a SRC byte address of 34 bits
(20_memory.md R40), a DST word address of 29 bits (R43). -/
def Turn.wellFormed : Turn → Bool
  | .engine | .wait | .rst _ | .pack _ | .unpack _ _ => true
  | .wr off _ | .rd off | .rstWr off _ | .rstRd off => decide (off < 8)
  | .srcw addr _ | .srcr addr => decide (addr < Config.srcSpace)
  | .dstw i _ | .dstr i => decide (i < Config.dstSpace)

/-- The arguments of the host-level calls `compress` and `transparentImage` (30_encoding.md R72): dimensions of 2^16 and
more cannot be expressed and are refused at the boundary (U12). -/
def dimensionsWellFormed (w h : Nat) : Bool := decide (w < 2 ^ 16) && decide (h < 2 ^ 16)

end Machine

end Sys2Proof
end

