-- ==== Sys2Proof/Certificates/Slice0/Obligations.lean ====
section
/-! DEFINITION. What is claimed of the model. Values are written in arithmetic on naturals and integers, not in the
model's own functions, wherever a rule gives a formula. A step of a busy engine with an empty script is an engine step. -/

open Sys2Proof
open Sys2Proof.Machine
open Sys2Proof.Safety

/-! ## Encodings (30_encoding.md) -/

/-- Decoding what was encoded gives the instruction back, and encoding what was decoded gives the code back: no code is
read as two things, and no bit is dropped. -/
def Obligations.DecodeAndEncodeAgree : Prop :=
  (∀ i : Instr, i.wellFormed = true → decode (encode i) = .ok i) ∧
    ∀ (c : Code) (i : Instr), decode c = .ok i → encode i = c

/-- Words written out from the tables of R60 and R64 and the operand layouts of R80 to R83 decode to their rows. -/
def Obligations.SpecWordsDecode : Prop :=
  decode (.cmd 0b00000000000000000000000000000001#32) = .ok .compress ∧
  decode (.cmd 0b00000000000000000000000000000011#32) = .ok .clear ∧
  decode (.cmd 0b00000000000000000000000000000100#32) = .error .reservedCommand ∧
  decode (.cmd 0b10000000000000000000000000000001#32) = .error .reservedCommand ∧
  decode (.phase 0b0010#4) = .ok .fetch ∧
  decode (.phase 0b1100#4) = .ok .fill ∧
  decode (.phase 0b1101#4) = .error .reservedPhase ∧
  decode (.pack 0b110010000110010000110010#24) = .ok (.pack565 200#8 100#8 50#8) ∧
  decode (.unpack .green 0b1100101100100110#16) = .ok (.unpackg565 0xCB26#16)

/-- R60, R61: a command word is reserved exactly when `OP` is 4 to 15 or one of bits 31:4 is set. Written while `STATE` is
not `BUSY` it raises `IllegalCommand` and starts nothing; written while `BUSY` it is not decoded at all. -/
def Obligations.ReservedCommandWords : Prop :=
  ∀ (s : State) (v : Word) (rest : List Turn), s.script = .wr 0 v :: rest →
    (decode (.cmd v) = .error .reservedCommand ↔ v.toNat / 16 ≠ 0 ∨ 4 ≤ v.toNat % 16) ∧
    (v.toNat / 16 ≠ 0 ∨ 4 ≤ v.toNat % 16 → s.state ≠ .busy →
      step s = .next { s with script := rest, cause := 2#4, state := .doneErr, phase := 0#4 }) ∧
    (s.state = .busy → step s = .next { s with script := rest })

/-- R64, R65: the codes 13 to 15 are no phases, every other code is one, and an engine started in one of the three is
stuck (93 U10). -/
def Obligations.ReservedPhaseCodes : Prop :=
  (∀ p : BitVec 4, decode (.phase p) = .error .reservedPhase ↔ 13 ≤ p.toNat) ∧
    ∀ s : State, EngineMoves s → 13 ≤ s.phase.toNat → step s = .fault .reservedPhase

/-- A step runs the decoded instruction: the phase in `PHASE` while the engine is `BUSY`, the command of a word written to
`CMD` while it is not, the codec function whose operand lines are driven. Around the meaning a step only takes the turn
from the script (log 1). Three clauses are the model's own: that `WAIT` (30_encoding.md R72) steps a busy engine and stays at
the head, and that it reads `STATUS` once and is taken when the engine is not busy (log 20); and that operand lines presented
to a stand-alone codec instance run its function (log 13). -/
def Obligations.StepRunsTheDecodedInstruction : Prop :=
  ∀ s : State,
    (∀ i : Instr, i.wellFormed = true →
      (s.state = .busy → decode (.phase s.phase) = .ok i →
        (s.script = [] → step s = exec i s) ∧
        (∀ rest, s.script = .engine :: rest → step s = exec i { s with script := rest }) ∧
        (∀ rest, s.script = .wait :: rest → step s = exec i s)) ∧
      (∀ v rest, s.script = .wr 0 v :: rest → s.state ≠ .busy → decode (.cmd v) = .ok i →
        step s = exec i { s with script := rest }) ∧
      (∀ x rest, s.script = .pack x :: rest → decode (.pack x) = .ok i →
        step s = exec i { s with script := rest }) ∧
      (∀ ch x rest, s.script = .unpack ch x :: rest → decode (.unpack ch x) = .ok i →
        step s = exec i { s with script := rest })) ∧
    ∀ rest, s.script = .wait :: rest → s.state ≠ .busy →
      step s = .next { s with script := rest, hostData := s.statusWord }

/-! ## Registers and commands (10_state.md, 46_host_commands.md) -/

/-- R14: what `RD STATUS` returns (the model holds it in `hostData`, log 15), bit by bit, in every state, and that neither it
nor a write to `STATUS` changes anything else. -/
def Obligations.StatusLayout : Prop :=
  ∀ (s : State) (rest : List Turn),
    (s.script = .rd 1 :: rest →
      ∃ w : Word, step s = .next { s with script := rest, hostData := w } ∧
        w.toNat % 4 = (match s.state with | .idle => 0 | .busy => 1 | .doneOk => 2 | .doneErr => 3) ∧
        w.toNat / 4 % 4 = 0 ∧
        w.toNat / 16 % 16 = s.phase.toNat ∧
        w.toNat / 256 % 2 = (if s.degen then 1 else 0) ∧
        w.toNat / 512 = 0) ∧
    ∀ v, s.script = .wr 1 v :: rest → step s = .next { s with script := rest }

/-- R152: what a read of each register returns (in `hostData`, log 15); it changes nothing of DXT1C in any `STATE`. Offsets
8 and above, which R152 does not list, read 0 by 10_state.md R17 as log 19 reads it. -/
def Obligations.RegisterReads : Prop :=
  ∀ (s : State) (off : Nat) (rest : List Turn), s.script = .rd off :: rest →
    ∃ w : Word, step s = .next { s with script := rest, hostData := w } ∧
      (off = 0 → w.toNat = 0) ∧
      (off = 1 → w = s.statusWord) ∧
      (off = 2 → w.toNat = s.width.toNat) ∧
      (off = 3 → w.toNat = s.height.toNat) ∧
      (off = 4 → w.toNat = s.cause.toNat) ∧
      (off = 5 → w.toNat = s.cnt.toNat) ∧
      (6 ≤ off → w.toNat = 0)

/-- R153: what a write to each register other than `CMD` does. -/
def Obligations.RegisterWrites : Prop :=
  ∀ (s : State) (off : Nat) (v : Word) (rest : List Turn), s.script = .wr off v :: rest →
    (s.state = .busy → step s = .next { s with script := rest }) ∧
    (s.state ≠ .busy →
      (off = 2 → ∃ w : BitVec 16, w.toNat = v.toNat % 65536 ∧ step s = .next { s with script := rest, width := w }) ∧
      (off = 3 → ∃ h : BitVec 16, h.toNat = v.toNat % 65536 ∧ step s = .next { s with script := rest, height := h }) ∧
      (off = 1 ∨ 4 ≤ off → step s = .next { s with script := rest }))

/-- R154: what a write of `v` to `CMD` does, for every `v` and in every `STATE`. -/
def Obligations.CommandAcceptance : Prop :=
  ∀ (s : State) (v : Word) (rest : List Turn), s.script = .wr 0 v :: rest →
    (s.state = .busy → step s = .next { s with script := rest }) ∧
    (s.state ≠ .busy →
      (v.toNat / 16 ≠ 0 ∨ 4 ≤ v.toNat % 16 →
        step s = .next { s with script := rest, cause := 2#4, state := .doneErr, phase := 0#4 }) ∧
      (v.toNat = 0 → step s = .next { s with script := rest }) ∧
      (v.toNat = 1 → step s =
        .next { s with script := rest, state := .busy, cause := 0#4, cnt := 0#29, degen := false, phase := 1#4 }) ∧
      (v.toNat = 2 → step s =
        .next { s with script := rest, state := .busy, cause := 0#4, cnt := 0#29, degen := false, phase := 12#4 }) ∧
      (v.toNat = 3 → step s = .next { s with script := rest, state := .idle, cause := 0#4 }))

/-- R150, R151 and the acceptance parts of R129 and R145: each command completes in every state, with exactly this effect;
all but `NOP`, which never has one, are ignored while `BUSY`. -/
def Obligations.CommandsComplete : Prop :=
  ∀ s : State,
    exec .nop s = .next s ∧
    (s.state = .busy → exec .compress s = .next s ∧ exec .tfill s = .next s ∧ exec .clear s = .next s) ∧
    (s.state ≠ .busy →
      exec .compress s = .next { s with state := .busy, cause := 0#4, cnt := 0#29, degen := false, phase := 1#4 } ∧
      exec .tfill s = .next { s with state := .busy, cause := 0#4, cnt := 0#29, degen := false, phase := 12#4 } ∧
      exec .clear s = .next { s with state := .idle, cause := 0#4 })

/-- R156, R158: while `STATE` is not `BUSY` the engine has no step. The model answers the same state with the turn taken
(log 2). -/
def Obligations.IdleEngineStands : Prop :=
  ∀ s : State,
    exec .idle s = .next s ∧
    (s.state ≠ .busy → s.script = [] → step s = .next s) ∧
    ∀ rest, s.state ≠ .busy → s.script = .engine :: rest → step s = .next { s with script := rest }

/-- R32, R179: the four outputs in each `STATE`. -/
def Obligations.OutputsFollowState : Prop :=
  ∀ s : State,
    (s.state = .idle → s.busyOut = false ∧ s.doneOut = false ∧ s.errOut = false ∧ s.irqOut = false) ∧
    (s.state = .busy → s.busyOut = true ∧ s.doneOut = false ∧ s.errOut = false ∧ s.irqOut = false) ∧
    (s.state = .doneOk → s.busyOut = false ∧ s.doneOut = true ∧ s.errOut = false ∧ s.irqOut = true) ∧
    (s.state = .doneErr → s.busyOut = false ∧ s.doneOut = true ∧ s.errOut = true ∧ s.irqOut = true)

/-! ## Faults (60_exceptions.md) -/

/-- R128, with the trap entry of R171 and R174: `CHECK` raises `InvalidDimensions` when a dimension is not a multiple of 4,
ends the command when one is zero, and goes to `FETCH` otherwise. -/
def Obligations.CheckPhase : Prop :=
  ∀ s : State,
    (s.width.toNat % 4 ≠ 0 ∨ s.height.toNat % 4 ≠ 0 →
      exec .check s = .next { s with cause := 1#4, state := .doneErr, phase := 0#4 }) ∧
    (s.width.toNat % 4 = 0 → s.height.toNat % 4 = 0 →
      (s.width.toNat = 0 ∨ s.height.toNat = 0 → exec .check s = .next { s with state := .doneOk, phase := 0#4 }) ∧
      (s.width.toNat ≠ 0 → s.height.toNat ≠ 0 → exec .check s = .next { s with phase := 2#4 }))

/-- R177: after trap entry the engine has no step, and a reserved word written then raises `IllegalCommand` again and
overwrites the cause. -/
def Obligations.FaultsDoNotNest : Prop :=
  ∀ (s : State) (rest : List Turn), s.state = .doneErr →
    (s.script = .engine :: rest → step s = .next { s with script := rest }) ∧
    ∀ v : Word, s.script = .wr 0 v :: rest → v.toNat / 16 ≠ 0 ∨ 4 ≤ v.toNat % 16 →
      ∃ t, step s = .next t ∧ t.state = .doneErr ∧ t.cause = 2#4

/-- R176, R190: a fault persists until `COMPRESS`, `TFILL` or `CLEAR` is accepted, or the block is reset. -/
def Obligations.FaultPersists : Prop :=
  ∀ s t : State, s.state = .doneErr → s.cause ≠ 0#4 → step s = .next t →
    (t.state = .doneErr ∧ t.cause ≠ 0#4) ∨
    WritesCommand s 1#32 ∨ WritesCommand s 2#32 ∨ WritesCommand s 3#32 ∨ Resets s

/-- R175, R174: a step that raises a fault leaves both memories, the operands, `CNT`, `DEGEN` and the datapath registers
as they were, so nothing is partially done. -/
def Obligations.FaultsArePrecise : Prop :=
  ∀ s t : State, s.state ≠ .doneErr → step s = .next t → t.state = .doneErr →
    t = { s with script := t.script, cause := t.cause, state := .doneErr, phase := 0#4 } ∧
    ((EngineMoves s ∧ s.phase = 1#4 ∧ t.cause = 1#4) ∨
      ((∃ v, WritesCommand s v) ∧ s.state ≠ .busy ∧ t.cause = 2#4))

/-! ## The codec (40_color_codec.md). Where a result appears, `packOut` and `unpackOut`, is the model's choice (log 13). -/

/-- The value R80 gives `PACK565`: 5, 6 and 5 top bits of the three channels. -/
def Obligations.PackFormula : Prop :=
  ∀ (r g b : Byte) (s : State),
    ∃ c : Half, exec (.pack565 r g b) s = .next { s with packOut := c } ∧
      c.toNat = r.toNat / 8 * 2048 + g.toNat / 4 * 32 + b.toNat / 8

/-- The values R81 to R83 give the widening functions: the field shifted up, its top bits replicated below. -/
def Obligations.UnpackFormulas : Prop :=
  ∀ (c : Half) (s : State),
    (∃ x : Byte, exec (.unpackr565 c) s = .next { s with unpackOut := x } ∧
      x.toNat = c.toNat / 2048 * 8 + c.toNat / 2048 / 4) ∧
    (∃ x : Byte, exec (.unpackg565 c) s = .next { s with unpackOut := x } ∧
      x.toNat = c.toNat / 32 % 64 * 4 + c.toNat / 32 % 64 / 16) ∧
    ∃ x : Byte, exec (.unpackb565 c) s = .next { s with unpackOut := x } ∧
      x.toNat = c.toNat % 32 * 8 + c.toNat % 32 / 4

/-- R85: (a) white packs to `0xFFFF` and back; (b) packing an expanded colour gives it back; (c) the round-trip error per
channel, its bounds 7, 3, 7, and that each is reached. -/
def Obligations.CodecRoundTrip : Prop :=
  pack565 255#8 255#8 255#8 = 0xFFFF#16 ∧ expand565 0xFFFF#16 = ⟨255#8, 255#8, 255#8⟩ ∧
  (∀ c : Half, pack565 (expand565 c).r (expand565 c).g (expand565 c).b = c) ∧
  (∀ r g b : Byte,
    let q := expand565 (pack565 r g b)
    (r.toNat : Int) - q.r.toNat = (r.toNat % 8 : Nat) - (r.toNat / 32 : Nat) ∧
    (g.toNat : Int) - q.g.toNat = (g.toNat % 4 : Nat) - (g.toNat / 64 : Nat) ∧
    (b.toNat : Int) - q.b.toNat = (b.toNat % 8 : Nat) - (b.toNat / 32 : Nat) ∧
    ((r.toNat : Int) - q.r.toNat).natAbs ≤ 7 ∧ ((g.toNat : Int) - q.g.toNat).natAbs ≤ 3 ∧
    ((b.toNat : Int) - q.b.toNat).natAbs ≤ 7) ∧
  (expand565 (pack565 7#8 3#8 7#8) = ⟨0#8, 0#8, 0#8⟩ ∧
    expand565 (pack565 248#8 252#8 248#8) = ⟨255#8, 255#8, 255#8⟩)

/-- R86: `PACK565` keeps the order of the three channels. -/
def Obligations.PackIsMonotone : Prop :=
  ∀ r1 g1 b1 r2 g2 b2 : Byte, r2.toNat ≤ r1.toNat → g2.toNat ≤ g1.toNat → b2.toNat ≤ b1.toNat →
    (pack565 r2 g2 b2).toNat ≤ (pack565 r1 g1 b1).toNat

/-! ## The block analyzer (41_block_analyzer.md) -/

/-- R90 with R41 and R42: `FETCH` loads pixel `row*4 + col` of block `CNT` from the bytes `4p`, `4p+1`, `4p+2`, where
`p = (4*by + row)*W + 4*bx + col`, and changes nothing else. It completes when all sixteen pixels are backed. With `W`
below 4, where R29 states no `bx` and `by`, the block is where two free 14-bit values place it (log 11). -/
def Obligations.FetchLoadsTheBlock : Prop :=
  ∀ s : State, ∃ bx bRow : Nat,
    (4 ≤ s.width.toNat → bx = s.cnt.toNat % (s.width.toNat / 4) ∧ bRow = s.cnt.toNat / (s.width.toNat / 4)) ∧
    (s.width.toNat < 4 → bx < 2 ^ 14 ∧ bRow < 2 ^ 14) ∧
    let p := fun row col => (4 * bRow + row) * s.width.toNat + (4 * bx + col)
    ((∀ row col, row < 4 → col < 4 → 4 * p row col + 3 < s.cfg.srcSize ∧ 4 * p row col + 3 < 2 ^ 34) →
      ∃ q : Vector Rgb 16, exec .fetch s = .next { s with pix := q, phase := 3#4 } ∧
        ∀ row col, row < 4 → col < 4 →
          q.toList[row * 4 + col]? =
            some ⟨s.src.read (4 * p row col), s.src.read (4 * p row col + 1), s.src.read (4 * p row col + 2)⟩)

/-- R90: with `W` below 4, in states no run reaches, `FETCH` still runs: wherever the free values place the block (log 11),
its pixels lie in the first 2^20 bytes of SRC, so with those backed it loads sixteen pixels, goes to `BBOX` and changes
nothing else. -/
def Obligations.FetchRunsWithoutABlockColumn : Prop :=
  ∀ s : State, s.width.toNat < 4 → 2 ^ 20 ≤ s.cfg.srcSize →
    ∃ q : Vector Rgb 16, exec .fetch s = .next { s with pix := q, phase := 3#4 }

/-- R54, U1: `FETCH` is stuck when the engine would read SRC beyond what the platform backs, for every `W` (with `W` below 4
the block's place is free, log 11). -/
def Obligations.FetchIsStuckUnbacked : Prop :=
  ∀ s : State, ∃ bx bRow : Nat,
    (4 ≤ s.width.toNat → bx = s.cnt.toNat % (s.width.toNat / 4) ∧ bRow = s.cnt.toNat / (s.width.toNat / 4)) ∧
    (s.width.toNat < 4 → bx < 2 ^ 14 ∧ bRow < 2 ^ 14) ∧
    ∀ row col, row < 4 → col < 4 →
      s.cfg.srcSize ≤ 4 * ((4 * bRow + row) * s.width.toNat + (4 * bx + col)) + 3 →
      exec .fetch s = .fault .srcUnbacked

/-- U8, R90 ("two images that differ only in alpha compress identically"): what `FETCH` loads does not depend on any alpha
byte. -/
def Obligations.AlphaDoesNotInterfere : Prop :=
  ∀ s s' t t' : State, s.width = s'.width → s.cnt = s'.cnt →
    (∀ a, a % 4 ≠ 3 → s.src.read a = s'.src.read a) →
    exec .fetch s = .next t → exec .fetch s' = .next t' → t.pix = t'.pix

/-- R92: the six registers are the least and the greatest value of each channel over the sixteen pixels. -/
def Obligations.BoundingBox : Prop :=
  ∀ s : State, ∃ lo hi : Rgb,
    exec .bbox s = .next { s with
      minR := lo.r, minG := lo.g, minB := lo.b, maxR := hi.r, maxG := hi.g, maxB := hi.b, phase := 4#4 } ∧
    (∀ p ∈ s.pix.toList,
      (lo.r.toNat ≤ p.r.toNat ∧ p.r.toNat ≤ hi.r.toNat) ∧
      (lo.g.toNat ≤ p.g.toNat ∧ p.g.toNat ≤ hi.g.toNat) ∧
      (lo.b.toNat ≤ p.b.toNat ∧ p.b.toNat ≤ hi.b.toNat)) ∧
    (∃ p ∈ s.pix.toList, p.r = lo.r) ∧ (∃ p ∈ s.pix.toList, p.r = hi.r) ∧
    (∃ p ∈ s.pix.toList, p.g = lo.g) ∧ (∃ p ∈ s.pix.toList, p.g = hi.g) ∧
    (∃ p ∈ s.pix.toList, p.b = lo.b) ∧ (∃ p ∈ s.pix.toList, p.b = hi.b)

/-- R93: `INSET` completes in every state, and where the box is ordered each inset is a sixteenth of the extent,
truncated. (Where it is not ordered, in no state a run reaches, the inset is a free value, log 12, and nothing is said of
it.) -/
def Obligations.InsetIsASixteenth : Prop :=
  ∀ s : State, ∃ i j k : BitVec 4,
    exec .inset s = .next { s with insR := i, insG := j, insB := k, phase := 5#4 } ∧
    (s.minR.toNat ≤ s.maxR.toNat → i.toNat = (s.maxR.toNat - s.minR.toNat) / 16) ∧
    (s.minG.toNat ≤ s.maxG.toNat → j.toNat = (s.maxG.toNat - s.minG.toNat) / 16) ∧
    (s.minB.toNat ≤ s.maxB.toNat → k.toNat = (s.maxB.toNat - s.minB.toNat) / 16)

/-- R94: `ENDPT` completes in every state with the two packed endpoints, the adjusted maximum under `clamp_low`
(`x if inset <= x else 0`) and the adjusted minimum under `clamp_high` (`x if x < 255 else 255`), on integers. -/
def Obligations.EndpointDerivation : Prop :=
  ∀ s : State, ∃ c0 c1 : Half,
    exec .endpt s = .next { s with c0 := c0, c1 := c1, phase := 6#4 } ∧
    (let clampLow := fun (x ins : Int) => if ins ≤ x then x else 0
     (c0.toNat : Int) =
      clampLow ((s.maxR.toNat : Int) - s.insR.toNat) s.insR.toNat / 8 * 2048 +
      clampLow ((s.maxG.toNat : Int) - s.insG.toNat) s.insG.toNat / 4 * 32 +
      clampLow ((s.maxB.toNat : Int) - s.insB.toNat) s.insB.toNat / 8) ∧
    (let clampHigh := fun x : Nat => if x < 255 then x else 255
     c1.toNat =
      clampHigh (s.minR.toNat + s.insR.toNat) / 8 * 2048 +
      clampHigh (s.minG.toNat + s.insG.toNat) / 4 * 32 +
      clampHigh (s.minB.toNat + s.insB.toNat) / 8)

/-- R95, R96: on an ordered pair with its own inset neither clamp changes its argument, under either reading of the first
(90_conflicts.md C4), and both results are 8-bit values. -/
def Obligations.ClampsNeverClamp : Prop :=
  ∀ lo hi : Byte, lo.toNat ≤ hi.toNat →
    let ins := (hi.toNat - lo.toNat) / 16
    16 * ins ≤ hi.toNat ∧ ins ≤ hi.toNat - ins ∧
    (insetOf lo hi).toNat = ins ∧
    (adjustedHi hi (insetOf lo hi)).toNat = hi.toNat - ins ∧
    (adjustedLo lo (insetOf lo hi)).toNat = lo.toNat + ins ∧ lo.toNat + ins ≤ 255

/-- R97: the degenerate test first, then the unsigned exchange. -/
def Obligations.OrderPhase : Prop :=
  ∀ s : State,
    (s.c0 = s.c1 → exec .order s = .next { s with degen := true, phase := 9#4 }) ∧
    (s.c1.toNat < s.c0.toNat → exec .order s = .next { s with degen := false, phase := 7#4 }) ∧
    (s.c0.toNat < s.c1.toNat →
      exec .order s = .next { s with degen := false, c0 := s.c1, c1 := s.c0, phase := 7#4 })

/-- R99: where the box is ordered and the insets are its own, `ENDPT` leaves `C0 ≥ C1`, so `ORDER` never exchanges them, and
`C0 > C1` when it finds the block not degenerate. -/
def Obligations.ExchangeIsDead : Prop :=
  ∀ s t u : State,
    s.minR.toNat ≤ s.maxR.toNat → s.minG.toNat ≤ s.maxG.toNat → s.minB.toNat ≤ s.maxB.toNat →
    s.insR.toNat = (s.maxR.toNat - s.minR.toNat) / 16 → s.insG.toNat = (s.maxG.toNat - s.minG.toNat) / 16 →
    s.insB.toNat = (s.maxB.toNat - s.minB.toNat) / 16 →
    exec .endpt s = .next t → exec .order t = .next u →
    t.c1.toNat ≤ t.c0.toNat ∧ u.c0 = t.c0 ∧ u.c1 = t.c1 ∧ (u.degen = false → u.c1.toNat < u.c0.toNat)

/-! ## Palette and index (42_palette.md, 43_index_assigner.md) -/

/-- R110, R111: the palette of the endpoints, entry by entry and channel by channel, with truncating division. -/
def Obligations.PaletteBlends : Prop :=
  ∀ s : State, ∃ p0 p1 p2 p3 : Rgb,
    exec .palette s = .next { s with pal := #v[p0, p1, p2, p3], phase := 8#4 } ∧
    (p0.r.toNat = s.c0.toNat / 2048 * 8 + s.c0.toNat / 2048 / 4 ∧
      p0.g.toNat = s.c0.toNat / 32 % 64 * 4 + s.c0.toNat / 32 % 64 / 16 ∧
      p0.b.toNat = s.c0.toNat % 32 * 8 + s.c0.toNat % 32 / 4) ∧
    (p1.r.toNat = s.c1.toNat / 2048 * 8 + s.c1.toNat / 2048 / 4 ∧
      p1.g.toNat = s.c1.toNat / 32 % 64 * 4 + s.c1.toNat / 32 % 64 / 16 ∧
      p1.b.toNat = s.c1.toNat % 32 * 8 + s.c1.toNat % 32 / 4) ∧
    (p2.r.toNat = (2 * p0.r.toNat + p1.r.toNat) / 3 ∧ p2.g.toNat = (2 * p0.g.toNat + p1.g.toNat) / 3 ∧
      p2.b.toNat = (2 * p0.b.toNat + p1.b.toNat) / 3) ∧
    (p3.r.toNat = (p0.r.toNat + 2 * p1.r.toNat) / 3 ∧ p3.g.toNat = (p0.g.toNat + 2 * p1.g.toNat) / 3 ∧
      p3.b.toNat = (p0.b.toNat + 2 * p1.b.toNat) / 3)

/-- R112: when each field of `C0` is at least the same field of `C1` and the two differ, the four palette entries are
pairwise distinct, and on each channel the order from entry 0 down is 0, 2, 3, 1. -/
def Obligations.PaletteEntriesAreDistinct : Prop :=
  ∀ s t : State,
    s.c1.toNat / 2048 ≤ s.c0.toNat / 2048 → s.c1.toNat / 32 % 64 ≤ s.c0.toNat / 32 % 64 →
    s.c1.toNat % 32 ≤ s.c0.toNat % 32 → s.c0 ≠ s.c1 → exec .palette s = .next t →
    t.pal.toList.Nodup ∧
    ∀ ch ∈ [Rgb.r, Rgb.g, Rgb.b],
      (ch t.pal[1]).toNat = (ch t.pal[0]).toNat ∧ (ch t.pal[2]).toNat = (ch t.pal[0]).toNat ∧
        (ch t.pal[3]).toNat = (ch t.pal[0]).toNat ∨
      (ch t.pal[1]).toNat < (ch t.pal[3]).toNat ∧ (ch t.pal[3]).toNat < (ch t.pal[2]).toNat ∧
        (ch t.pal[2]).toNat < (ch t.pal[0]).toNat ∧ (ch t.pal[1]).toNat + 4 ≤ (ch t.pal[0]).toNat

/-- R115 to R118 and R120: the two bits of pixel `k` in the index word name the palette entry nearest to it by squared
distance, and the lowest of the nearest. -/
def Obligations.IndexIsNearestFirst : Prop :=
  ∀ s : State, ∃ w : Word,
    exec .index s = .next { s with idx := w, phase := 9#4 } ∧
    ∀ (k : Fin 16) (i : Fin 4),
      let d := fun j : Fin 4 =>
        ((s.pix[k].r.toNat : Int) - s.pal[j].r.toNat) ^ 2 + ((s.pix[k].g.toNat : Int) - s.pal[j].g.toNat) ^ 2 +
          ((s.pix[k].b.toNat : Int) - s.pal[j].b.toNat) ^ 2
      let best : Fin 4 := ⟨w.toNat / 4 ^ k.val % 4, Nat.mod_lt _ (by decide)⟩
      d best ≤ d i ∧ (i < best → d best < d i)

/-- R119: had the long path run with equal endpoints it would have given the index word zero, which is what the short
circuit stores. -/
def Obligations.ShortCircuitChangesNothing : Prop :=
  ∀ s : State, s.c0 = s.c1 →
    ∃ t u, exec .palette s = .next t ∧ exec .index t = .next u ∧ u.idx = 0#32

/-! ## Encoder and driver (44_encode_and_driver.md) -/

/-- R125: the endpoint word, and the index word or zero. -/
def Obligations.EncodeWords : Prop :=
  ∀ s : State, ∃ x y : Word,
    exec .encode s = .next { s with w0 := x, w1 := y, phase := 10#4 } ∧
    x.toNat = s.c1.toNat * 65536 + s.c0.toNat ∧
    (s.degen = true → y.toNat = 0) ∧ (s.degen = false → y = s.idx)

/-- R126 with the byte view of R45: `STORE` writes the eight bytes from `8*CNT` on, low byte first, the endpoint word then
the index word, and no other byte; nothing else changes but `PHASE`. -/
def Obligations.StoreWritesTheBlock : Prop :=
  ∀ s : State, s.dst.wf = true → 2 * s.cnt.toNat + 1 < s.cfg.dstSize → 2 * s.cnt.toNat + 1 < 2 ^ 29 →
    ∃ m : Memory, exec .store s = .next { s with dst := m, phase := 11#4 } ∧
      (∀ j, j < 4 →
        (m.read (8 * s.cnt.toNat + j)).toNat = s.w0.toNat / 256 ^ j % 256 ∧
        (m.read (8 * s.cnt.toNat + 4 + j)).toNat = s.w1.toNat / 256 ^ j % 256) ∧
      ∀ a, a < 8 * s.cnt.toNat ∨ 8 * s.cnt.toNat + 8 ≤ a → m.read a = s.dst.read a

/-- R54, U1: `STORE` and `FILL` are stuck at a word the platform does not back. -/
def Obligations.WritesAreStuckUnbacked : Prop :=
  ∀ s : State,
    (s.cfg.dstSize ≤ 2 * s.cnt.toNat + 1 → exec .store s = .fault .dstUnbacked) ∧
    (s.cnt.toNat ≠ s.width.toNat * s.height.toNat / 8 → s.cfg.dstSize ≤ s.cnt.toNat →
      exec .fill s = .fault .dstUnbacked)

/-- R127: `NEXT` counts the block and ends the command at `NBLK`, or goes on. (A count that would not fit 29 bits is a free
value, log 12; no run reaches one.) -/
def Obligations.NextPhase : Prop :=
  ∀ s : State, ∃ n : BitVec 29, (s.cnt.toNat + 1 < 2 ^ 29 → n.toNat = s.cnt.toNat + 1) ∧
    (s.cnt.toNat + 1 = s.width.toNat / 4 * (s.height.toNat / 4) →
      exec .next s = .next { s with cnt := n, state := .doneOk, phase := 0#4 }) ∧
    (s.cnt.toNat + 1 ≠ s.width.toNat / 4 * (s.height.toNat / 4) →
      exec .next s = .next { s with cnt := n, phase := 2#4 })

/-- R146: `FILL` ends at `NW`, or writes one all-ones word at `CNT` and counts it; `PHASE` stays. (The same free value,
log 12.) -/
def Obligations.FillPhase : Prop :=
  ∀ s : State,
    (s.cnt.toNat = s.width.toNat * s.height.toNat / 8 →
      exec .fill s = .next { s with state := .doneOk, phase := 0#4 }) ∧
    (s.cnt.toNat ≠ s.width.toNat * s.height.toNat / 8 → s.dst.wf = true → s.cnt.toNat < s.cfg.dstSize →
      ∃ (m : Memory) (n : BitVec 29), exec .fill s = .next { s with dst := m, cnt := n } ∧
        (s.cnt.toNat + 1 < 2 ^ 29 → n.toNat = s.cnt.toNat + 1) ∧
        (∀ j, j < 4 → m.read (4 * s.cnt.toNat + j) = 255#8) ∧
        ∀ a, a < 4 * s.cnt.toNat ∨ 4 * s.cnt.toNat + 4 ≤ a → m.read a = s.dst.read a)

/-- R100: sixteen equal pixels are encoded as their packed colour twice and the index word zero, by five steps from
`BBOX`. -/
def Obligations.SingleColourBlock : Prop :=
  ∀ (s : State) (q : Rgb), s.state = .busy → s.script = [] → s.phase = 3#4 → s.pix = Vector.replicate 16 q →
    ∃ t, core.run 5 s = .next t ∧ t.phase = 10#4 ∧ t.degen = true ∧
      (t.minR = q.r ∧ t.minG = q.g ∧ t.minB = q.b ∧ t.maxR = q.r ∧ t.maxG = q.g ∧ t.maxB = q.b) ∧
      (t.insR = 0#4 ∧ t.insG = 0#4 ∧ t.insB = 0#4) ∧
      (t.c0 = pack565 q.r q.g q.b ∧ t.c1 = pack565 q.r q.g q.b) ∧
      t.w0.toNat = (pack565 q.r q.g q.b).toNat * 65536 + (pack565 q.r q.g q.b).toNat ∧ t.w1 = 0#32

/-! ## Memories (20_memory.md) -/

/-- R44, R45: a DST word written is read back, byte `4i + j` is bits `8j+7 : 8j` of word `i`, every other byte stays, and
the memory keeps its canonical form. -/
def Obligations.WordsAreLittleEndian : Prop :=
  ∀ (m : Memory) (i : Nat) (w : Word), m.wf = true →
    (m.writeWord i w).readWord i = w ∧
    (∀ j, j < 4 → ((m.writeWord i w).read (4 * i + j)).toNat = w.toNat / 256 ^ j % 256) ∧
    (∀ a, a < 4 * i ∨ 4 * i + 4 ≤ a → (m.writeWord i w).read a = m.read a) ∧
    (m.writeWord i w).wf = true

/-- R159: while `STATE` is not `BUSY` the host's accesses to backed memory complete with plain memory semantics. -/
def Obligations.HostMemoryAccesses : Prop :=
  ∀ (s : State) (rest : List Turn), s.state ≠ .busy → s.src.wf = true → s.dst.wf = true →
    (∀ a b, s.script = .srcw a b :: rest → a < s.cfg.srcSize → a < 2 ^ 34 →
      ∃ m : Memory, step s = .next { s with script := rest, src := m } ∧ m.read a = b ∧
        ∀ a', a' ≠ a → m.read a' = s.src.read a') ∧
    (∀ a, s.script = .srcr a :: rest → a < s.cfg.srcSize → a < 2 ^ 34 →
      ∃ w : Word, step s = .next { s with script := rest, hostData := w } ∧ w.toNat = (s.src.read a).toNat) ∧
    (∀ i v, s.script = .dstw i v :: rest → i < s.cfg.dstSize → i < 2 ^ 29 →
      ∃ m : Memory, step s = .next { s with script := rest, dst := m } ∧ m.readWord i = v ∧
        ∀ a, a < 4 * i ∨ 4 * i + 4 ≤ a → m.read a = s.dst.read a) ∧
    (∀ i, s.script = .dstr i :: rest → i < s.cfg.dstSize → i < 2 ^ 29 →
      ∃ w : Word, step s = .next { s with script := rest, hostData := w } ∧
        ∀ j, j < 4 → w.toNat / 256 ^ j % 256 = (s.dst.read (4 * i + j)).toNat)

/-- R194, R195, R159, U2: the host has no move on either memory while `STATE = BUSY`. R194 speaks of SRC writes and R195 of
DST accesses; that a read of SRC is refused too is deduced from R159, which permits all host accesses only while `STATE` is
not `BUSY` (log 8). -/
def Obligations.HostMemoryRefusedWhileBusy : Prop :=
  ∀ (s : State) (rest : List Turn), s.state = .busy →
    (∀ a b, s.script = .srcw a b :: rest → step s = .refused .hostSrcWhileBusy) ∧
    (∀ a, s.script = .srcr a :: rest → step s = .refused .hostSrcWhileBusy) ∧
    (∀ i v, s.script = .dstw i v :: rest → step s = .refused .hostDstWhileBusy) ∧
    (∀ i, s.script = .dstr i :: rest → step s = .refused .hostDstWhileBusy)

/-- R49, R50: what an engine step does to DST is exactly the DST writes its phase issues, in order. `FETCH` issues sixteen
reads, of the pixels of block `CNT` in ascending `k`, and no write (with `W` below 4 the block's place is free, log 11);
`STORE` two writes; `FILL` one, or none when `CNT = NW`; and no other phase touches a memory. -/
def Obligations.PhasesIssueTheirTransactions : Prop :=
  ∀ s t : State, EngineMoves s → step s = .next t →
    t.dst = s.portAccesses.foldl PortAccess.apply s.dst ∧
    t.src = s.src ∧
    (s.phase = 2#4 → t.dst = s.dst ∧ ∃ bx bRow : Nat,
      (4 ≤ s.width.toNat → bx = s.cnt.toNat % (s.width.toNat / 4) ∧ bRow = s.cnt.toNat / (s.width.toNat / 4)) ∧
      (s.width.toNat < 4 → bx < 2 ^ 14 ∧ bRow < 2 ^ 14) ∧
      s.portAccesses = (List.range 16).map (fun k =>
        .srcRead ((4 * bRow + k / 4) * s.width.toNat + (4 * bx + k % 4)))) ∧
    (s.phase = 10#4 → s.portAccesses = [.dstWrite (2 * s.cnt.toNat) s.w0, .dstWrite (2 * s.cnt.toNat + 1) s.w1]) ∧
    (s.phase = 12#4 → s.cnt.toNat = s.width.toNat * s.height.toNat / 8 → s.portAccesses = []) ∧
    (s.phase = 12#4 → s.cnt.toNat ≠ s.width.toNat * s.height.toNat / 8 →
      s.portAccesses = [.dstWrite s.cnt.toNat 0xFFFFFFFF#32]) ∧
    (s.phase ≠ 2#4 → s.phase ≠ 10#4 → s.phase ≠ 12#4 → s.portAccesses = [])

/-! ## Reset (10_state.md R34, 70_reset_and_hazards.md R190, R191) -/

/-- R34: the values the spec states for reset. -/
def Obligations.ResetValues : Prop :=
  State.reset.state = .idle ∧ State.reset.phase = 0#4 ∧ State.reset.degen = false ∧ State.reset.cause = 0#4 ∧
  State.reset.cnt = 0#29 ∧ State.reset.width = 0#16 ∧ State.reset.height = 0#16 ∧
  State.reset.busyOut = false ∧ State.reset.doneOut = false ∧ State.reset.errOut = false ∧
  State.reset.irqOut = false

/-- R190, R191: `rst` completes in every state, the control registers take the reset values of R34, and neither memory is
affected. If a write was in flight (the turn's flag says so, log 10), the first DST write of the phase about to run, and
nothing else, is written: the endpoint word in `STORE`, the all-ones word in `FILL`. A phase with no write has none in
flight. Where that word is not backed the model is stuck (R54, log 7). While `rst` is asserted the register port is ignored:
with a write or a read presented, of any register and value, the step is that of `rst` alone (log 24). -/
def Obligations.ResetAbortsTheCommand : Prop :=
  ∀ (s : State) (rest : List Turn),
    let cleared := fun (t : State) (dst : Memory) =>
      t.state = .idle ∧ t.phase = 0#4 ∧ t.degen = false ∧ t.cause = 0#4 ∧ t.cnt = 0#29 ∧ t.width = 0#16 ∧
        t.height = 0#16 ∧ t.src = s.src ∧ t.dst = dst ∧ t.cfg = s.cfg ∧ t.script = rest
    let filling := s.phase = 12#4 ∧ s.cnt.toNat ≠ s.width.toNat * s.height.toNat / 8
    (s.script = .rst false :: rest → ∃ t, step s = .next t ∧ cleared t s.dst) ∧
    (∀ off v, s.script = .rstWr off v :: rest → ∃ t, step s = .next t ∧ cleared t s.dst ∧ t.hostData = s.hostData ∧
      step { s with script := .rst false :: rest } = .next t) ∧
    (∀ off, s.script = .rstRd off :: rest → ∃ t, step s = .next t ∧ cleared t s.dst ∧ t.hostData = s.hostData ∧
      step { s with script := .rst false :: rest } = .next t) ∧
    (s.script = .rst true :: rest → ¬(s.state = .busy ∧ (s.phase = 10#4 ∨ filling)) →
      step s = step { s with script := .rst false :: rest } ∧ ∃ t, step s = .next t ∧ cleared t s.dst) ∧
    (s.script = .rst true :: rest → s.state = .busy → s.phase = 10#4 →
      (2 * s.cnt.toNat < s.cfg.dstSize → 2 * s.cnt.toNat < 2 ^ 29 →
        ∃ t, step s = .next t ∧ cleared t (s.dst.writeWord (2 * s.cnt.toNat) s.w0)) ∧
      (s.cfg.dstSize ≤ 2 * s.cnt.toNat → step s = .fault .dstUnbacked)) ∧
    (s.script = .rst true :: rest → s.state = .busy → filling →
      (s.cnt.toNat < s.cfg.dstSize →
        ∃ t, step s = .next t ∧ cleared t (s.dst.writeWord s.cnt.toNat 0xFFFFFFFF#32)) ∧
      (s.cfg.dstSize ≤ s.cnt.toNat → step s = .fault .dstUnbacked))

/-- R190 ("No rule depends on the number of cycles `rst` is held", and the block "ignores the register port" meanwhile):
however long `rst` is held, and whatever the host writes or reads on the register port in that time, the result is that of
asserting it once; when it is released the block is idle and the rest of the script goes on. (A held reset is a row of turns
that assert it, log 24.) -/
def Obligations.HeldResetIsOneReset : Prop :=
  ∀ (s t : State) (b : Bool) (held rest : List Turn), s.script = .rst b :: (held ++ rest) →
    (∀ x ∈ held, (∃ b', x = .rst b') ∨ (∃ off v, x = .rstWr off v) ∨ ∃ off, x = .rstRd off) →
    step { s with script := .rst b :: rest } = .next t →
    t.state = .idle ∧ t.script = rest ∧ core.run (1 + held.length) s = .next t

/-! ## Rules about the whole machine -/

/-- R20: `STATE` is written only by a write to `CMD`, by the phases that end a command, and by reset. -/
def Obligations.OnlyTheseWriteState : Prop :=
  ∀ s t : State, step s = .next t → t.state ≠ s.state →
    (s.state ≠ .busy ∧ ∃ v, WritesCommand s v) ∨
    (EngineMoves s ∧ (s.phase = 1#4 ∨ s.phase = 11#4 ∨ s.phase = 12#4)) ∨
    Resets s

/-- R11, R12, R18, R30: while a command runs, nothing but reset changes its operands: not `WIDTH`, not `HEIGHT`, not a byte
of SRC, whatever the host writes. -/
def Obligations.OperandsHoldWhileBusy : Prop :=
  ∀ s t : State, s.state = .busy → ¬Resets s → step s = .next t →
    t.width = s.width ∧ t.height = s.height ∧ t.src = s.src ∧ t.cfg = s.cfg

/-- R16: `CNT` counts by one in `NEXT` and `FILL`, is cleared when a command is accepted and by reset, and is otherwise
left alone. (A count that would not fit 29 bits is a free value, log 12; no run reaches one.) -/
def Obligations.CounterRules : Prop :=
  ∀ s t : State, step s = .next t →
    t.cnt = s.cnt ∨
    (EngineMoves s ∧ (s.phase = 11#4 ∨ s.phase = 12#4) ∧
      (s.cnt.toNat + 1 < 2 ^ 29 → t.cnt.toNat = s.cnt.toNat + 1)) ∨
    (t.cnt = 0#29 ∧ s.state ≠ .busy ∧ (WritesCommand s 1#32 ∨ WritesCommand s 2#32)) ∨
    (t.cnt = 0#29 ∧ Resets s)

/-- 10_state.md R21 to R28: but for reset, each datapath register is written by its own phase and by nothing else (`C0` and
`C1` by two, `DEGEN` by `ORDER` and by acceptance). -/
def Obligations.OnePhaseWritesEachRegister : Prop :=
  ∀ s t : State, step s = .next t → ¬Resets s →
    (t.pix ≠ s.pix → EngineMoves s ∧ s.phase = 2#4) ∧
    ((t.minR, t.minG, t.minB, t.maxR, t.maxG, t.maxB) ≠ (s.minR, s.minG, s.minB, s.maxR, s.maxG, s.maxB) →
      EngineMoves s ∧ s.phase = 3#4) ∧
    ((t.insR, t.insG, t.insB) ≠ (s.insR, s.insG, s.insB) → EngineMoves s ∧ s.phase = 4#4) ∧
    ((t.c0, t.c1) ≠ (s.c0, s.c1) → EngineMoves s ∧ (s.phase = 5#4 ∨ s.phase = 6#4)) ∧
    (t.pal ≠ s.pal → EngineMoves s ∧ s.phase = 7#4) ∧
    (t.idx ≠ s.idx → EngineMoves s ∧ s.phase = 8#4) ∧
    ((t.w0, t.w1) ≠ (s.w0, s.w1) → EngineMoves s ∧ s.phase = 9#4) ∧
    (t.degen ≠ s.degen →
      (EngineMoves s ∧ s.phase = 6#4) ∨ (s.state ≠ .busy ∧ (WritesCommand s 1#32 ∨ WritesCommand s 2#32)))

/-! ## Invariants -/

/-- The state after reset meets all three invariants. -/
def Obligations.ResetMeetsInvariants : Prop :=
  Inv State.reset ∧ Dataflow State.reset ∧ Progress State.reset

/-- Every step keeps the control invariant, whatever the script: R15 and R19 (the two equivalences and the legal codes),
`CNT` within its bound in both loops, both memories in canonical form. -/
def Obligations.StepKeepsControlInvariant : Prop :=
  ∀ s t : State, Inv s → step s = .next t → Inv t

/-- Every step keeps the dataflow invariant (R35): no phase reads a value another block or command left. -/
def Obligations.StepKeepsDataflow : Prop :=
  ∀ s t : State, Inv s → Dataflow s → step s = .next t → Dataflow t

/-- Every step keeps the progress invariant: the blocks counted by `CNT` are, word for word, those of the function
`COMPRESS(W, H, SRC)` of R131, under every interleaving of host and engine. -/
def Obligations.StepKeepsProgress : Prop :=
  ∀ s t : State, Inv s → Dataflow s → Progress s → step s = .next t → Progress t

/-- The step that ends a `COMPRESS` has delivered the whole compressed image of R131 (and not one block fewer). -/
def Obligations.SuccessDeliversTheImage : Prop :=
  ∀ s t : State, Inv s → Dataflow s → Progress s → EngineMoves s → s.phase = 11#4 → step s = .next t →
    t.state = .doneOk →
    t.cnt.toNat = s.width.toNat / 4 * (s.height.toNat / 4) ∧
    Delivered t (s.width.toNat / 4 * (s.height.toNat / 4))

/-! ## Commands as functions -/

/-- R131, R132, R134 (with R129 and R200): from any state that is not `BUSY`, accepting `COMPRESS` and letting the engine run
ends after exactly one engine step with `InvalidDimensions` or, for an empty image, with `DONE_OK`, and both memories as
they were. For non-zero dimensions that are multiples of 4 and backed memories it ends after exactly
`1 + 10*NBLK - 2*ND` engine steps, and not one fewer, in `DONE_OK` with `CNT = NBLK`; `2*NBLK = W*H/8`; DST words `2b`, `2b+1`
are `BLOCK` of block `b` for every `b < NBLK`, no other byte of DST has changed, and SRC has not. (The first step of a run is
the write to `CMD`.) -/
def Obligations.CompressComputesTheReference : Prop :=
  ∀ s : State, s.state ≠ .busy →
    let start : State := { s with script := [.wr 0 1#32] }
    let busyAfter := fun k : Nat => ∃ u : State, core.run k start = .next u ∧ u.state = .busy
    (s.width.toNat % 4 ≠ 0 ∨ s.height.toNat % 4 ≠ 0 → busyAfter 1 ∧
      core.run 2 start = .next
        { s with script := [], state := .doneErr, cause := 1#4, cnt := 0#29, degen := false, phase := 0#4 }) ∧
    (s.width.toNat % 4 = 0 → s.height.toNat % 4 = 0 → s.width.toNat = 0 ∨ s.height.toNat = 0 → busyAfter 1 ∧
      core.run 2 start = .next
        { s with script := [], state := .doneOk, cause := 0#4, cnt := 0#29, degen := false, phase := 0#4 }) ∧
    (s.dst.wf = true →
      s.width.toNat % 4 = 0 → s.height.toNat % 4 = 0 → s.width.toNat ≠ 0 → s.height.toNat ≠ 0 →
      4 * s.width.toNat * s.height.toNat ≤ s.cfg.srcSize → s.width.toNat * s.height.toNat / 8 ≤ s.cfg.dstSize →
      let nblk := s.width.toNat / 4 * (s.height.toNat / 4)
      let nd := ((List.range nblk).filter (DegenerateBlock s)).length
      2 * nd ≤ 10 * nblk ∧ 2 * nblk = s.width.toNat * s.height.toNat / 8 ∧
      busyAfter (1 + 10 * nblk - 2 * nd) ∧
      ∃ t, core.run (1 + (1 + 10 * nblk - 2 * nd)) start = .next t ∧
        t.state = .doneOk ∧ t.cause = 0#4 ∧ t.cnt.toNat = nblk ∧ t.src = s.src ∧
        (∀ b, b < nblk →
          (t.dst.readWord (2 * b), t.dst.readWord (2 * b + 1)) = Reference.compressedBlock s.src s.width.toNat b) ∧
        ∀ a, s.width.toNat * s.height.toNat / 2 ≤ a → t.dst.read a = s.dst.read a)

/-- R145 to R148: from any state that is not `BUSY`, for any dimensions at all, accepting `TFILL` and letting the engine run
ends after exactly `NW + 1` engine steps, and not one fewer, in `DONE_OK` with `CNT = NW`; the bytes of words `0 .. NW - 1`
are `0xFF` and no other byte of DST has changed. (The first step of a run is the write to `CMD`.) For dimensions that are
not multiples of 4 the source is silent, and this is the spec's decision D22 as log 9 follows it. -/
def Obligations.FillComputesThePlaceholder : Prop :=
  ∀ s : State, s.state ≠ .busy → s.dst.wf = true → s.width.toNat * s.height.toNat / 8 ≤ s.cfg.dstSize →
    let nw := s.width.toNat * s.height.toNat / 8
    let start : State := { s with script := [.wr 0 2#32] }
    (∃ u, core.run (1 + nw) start = .next u ∧ u.state = .busy) ∧
    ∃ t, core.run (1 + (nw + 1)) start = .next t ∧
      t.state = .doneOk ∧ t.cause = 0#4 ∧ t.cnt.toNat = nw ∧ t.src = s.src ∧
      (∀ a, a < 4 * nw → t.dst.read a = 255#8) ∧
      ∀ a, 4 * nw ≤ a → t.dst.read a = s.dst.read a
end

