-- ==== Sys2Proof/Laws/Codec.lean ====
section
/-! SUPPORT. The codec as arithmetic on naturals (40_color_codec.md). -/

namespace Sys2Proof.Machine

theorem maskF8_toNat : ∀ r : Byte, (r &&& 0xF8#8).toNat = 8 * (r.toNat / 8) := by decide

theorem maskFC_toNat : ∀ g : Byte, (g &&& 0xFC#8).toNat = 4 * (g.toNat / 4) := by decide

/-- `PACK565` as a sum of fields: "The three fields do not overlap, so `|` could equally be `+`" (R80). -/
theorem pack565_toNat (r g b : Byte) :
    (pack565 r g b).toNat = r.toNat / 8 * 2048 + g.toNat / 4 * 32 + b.toNat / 8 := by
  have hr := r.isLt
  have hg := g.isLt
  have hb := b.isLt
  have h1 : ((r &&& 0xF8#8).setWidth 16 <<< 8).toNat = (r.toNat / 8) <<< 11 := by
    rw [BitVec.toNat_shiftLeft, BitVec.toNat_setWidth, maskF8_toNat, Nat.shiftLeft_eq, Nat.shiftLeft_eq]
    omega
  have h2 : ((g &&& 0xFC#8).setWidth 16 <<< 3).toNat = (g.toNat / 4) <<< 5 := by
    rw [BitVec.toNat_shiftLeft, BitVec.toNat_setWidth, maskFC_toNat, Nat.shiftLeft_eq, Nat.shiftLeft_eq]
    omega
  have h3 : ((b >>> 3).setWidth 16).toNat = b.toNat / 8 := by
    rw [BitVec.toNat_setWidth, BitVec.toNat_ushiftRight, Nat.shiftRight_eq_div_pow]
    omega
  unfold pack565
  rw [BitVec.toNat_or, BitVec.toNat_or, h1, h2, h3, Nat.or_assoc,
    ← Nat.shiftLeft_add_eq_or_of_lt (show b.toNat / 8 < 2 ^ 5 by omega),
    ← Nat.shiftLeft_add_eq_or_of_lt (show (g.toNat / 4) <<< 5 + b.toNat / 8 < 2 ^ 11 by
      rw [Nat.shiftLeft_eq]; omega)]
  simp only [Nat.shiftLeft_eq]
  omega

theorem widen5_toNat : ∀ v : BitVec 5, (widen5 v).toNat = 8 * v.toNat + v.toNat / 4 := by decide

theorem widen6_toNat : ∀ v : BitVec 6, (widen6 v).toNat = 4 * v.toNat + v.toNat / 16 := by decide

/-- `UNPACKR565` as arithmetic on the field `v = c[15:11]` (R81). -/
theorem unpackR565_toNat (c : Half) :
    (unpackR565 c).toNat = 8 * (c.toNat / 2048) + c.toNat / 2048 / 4 := by
  have hc := c.isLt
  rw [unpackR565, widen5_toNat, BitVec.extractLsb'_toNat, Nat.shiftRight_eq_div_pow]
  omega

/-- `UNPACKG565` as arithmetic on the field `v = c[10:5]` (R82). -/
theorem unpackG565_toNat (c : Half) :
    (unpackG565 c).toNat = 4 * (c.toNat / 32 % 64) + c.toNat / 32 % 64 / 16 := by
  rw [unpackG565, widen6_toNat, BitVec.extractLsb'_toNat, Nat.shiftRight_eq_div_pow]

/-- `UNPACKB565` as arithmetic on the field `v = c[4:0]` (R83). -/
theorem unpackB565_toNat (c : Half) :
    (unpackB565 c).toNat = 8 * (c.toNat % 32) + c.toNat % 32 / 4 := by
  rw [unpackB565, widen5_toNat, BitVec.extractLsb'_toNat, Nat.shiftRight_eq_div_pow]
  simp

@[simp] theorem expand565_r (c : Half) : (expand565 c).r = unpackR565 c := rfl

@[simp] theorem expand565_g (c : Half) : (expand565 c).g = unpackG565 c := rfl

@[simp] theorem expand565_b (c : Half) : (expand565 c).b = unpackB565 c := rfl

end Sys2Proof.Machine
end

