-- ==== Sys2Proof/Laws/Analyzer.lean ====
section
/-! SUPPORT. The block analyzer as arithmetic on naturals (41_block_analyzer.md). -/

namespace Sys2Proof.Machine

/-! ### Bounding box (R92) -/

theorem minByte_toNat (x y : Byte) : (minByte x y).toNat = min x.toNat y.toNat := by
  unfold minByte
  split <;> omega

theorem maxByte_toNat (x y : Byte) : (maxByte x y).toNat = max x.toNat y.toNat := by
  unfold maxByte
  split <;> omega

theorem foldl_minByte_toNat (l : List Byte) (a : Byte) :
    (l.foldl minByte a).toNat = (l.map BitVec.toNat).foldr min a.toNat := by
  induction l generalizing a with
  | nil => rfl
  | cons x l ih =>
    rw [List.foldl_cons, ih, minByte_toNat]
    simp only [List.map_cons, List.foldr_cons]
    generalize l.map BitVec.toNat = m
    induction m with
    | nil => simp [Nat.min_comm]
    | cons y m ihm =>
      simp only [List.foldr_cons, ihm]
      omega

theorem foldl_maxByte_toNat (l : List Byte) (a : Byte) :
    (l.foldl maxByte a).toNat = (l.map BitVec.toNat).foldr max a.toNat := by
  induction l generalizing a with
  | nil => rfl
  | cons x l ih =>
    rw [List.foldl_cons, ih, maxByte_toNat]
    simp only [List.map_cons, List.foldr_cons]
    generalize l.map BitVec.toNat = m
    induction m with
    | nil => simp [Nat.max_comm]
    | cons y m ihm =>
      simp only [List.foldr_cons, ihm]
      omega

/-- A vector of sixteen pixels, its first in front. -/
theorem pix_toList_cons (pix : Vector Rgb 16) : ∃ rest, pix.toList = pix[0] :: rest := by
  have hl : pix.toList.length = 16 := by simp
  match h : pix.toList, hl with
  | p :: rest, _ =>
    refine ⟨rest, ?_⟩
    have : pix.toList[0]'(by simp) = pix[0] := by simp
    simp only [h, List.getElem_cons_zero] at this
    rw [this]

theorem foldr_min_start (m : List Nat) (x : Nat) (hx : x ≤ 255) :
    (x :: m).foldr min x = (x :: m).foldr min 255 := by
  have h : ∀ m : List Nat, min x (m.foldr min x) = min x (m.foldr min 255) := by
    intro m
    induction m with
    | nil => simp; omega
    | cons y m ih => simp only [List.foldr_cons]; omega
  simpa using h m

theorem foldr_max_start (m : List Nat) (x : Nat) : (x :: m).foldr max x = (x :: m).foldr max 0 := by
  have h : ∀ m : List Nat, max x (m.foldr max x) = max x (m.foldr max 0) := by
    intro m
    induction m with
    | nil => simp
    | cons y m ih => simp only [List.foldr_cons]; omega
  simpa using h m

/-- The fold of `BBOX` is the reference's least value. -/
theorem channelMin_toNat (ch : Rgb → Byte) (pix : Vector Rgb 16) :
    (channelMin ch pix).toNat = Reference.channelLeast ch pix.toList := by
  obtain ⟨rest, h⟩ := pix_toList_cons pix
  have hx := (ch pix[0]).isLt
  unfold channelMin Reference.channelLeast
  rw [foldl_minByte_toNat, h, List.map_map, List.map_cons, List.map_cons]
  exact foldr_min_start _ _ (by omega)

/-- The fold of `BBOX` is the reference's greatest value. -/
theorem channelMax_toNat (ch : Rgb → Byte) (pix : Vector Rgb 16) :
    (channelMax ch pix).toNat = Reference.channelGreatest ch pix.toList := by
  obtain ⟨rest, h⟩ := pix_toList_cons pix
  unfold channelMax Reference.channelGreatest
  rw [foldl_maxByte_toNat, h, List.map_map, List.map_cons, List.map_cons]
  exact foldr_max_start _ _

/-- The least value bounds every pixel, and some pixel has it. -/
theorem channelLeast_spec (ch : Rgb → Byte) (l : List Rgb) (hl : l ≠ []) :
    (∀ p ∈ l, Reference.channelLeast ch l ≤ (ch p).toNat) ∧ ∃ p ∈ l, (ch p).toNat = Reference.channelLeast ch l := by
  unfold Reference.channelLeast
  induction l with
  | nil => exact absurd rfl hl
  | cons q l ih =>
    have hq := (ch q).isLt
    simp only [List.map_cons, List.foldr_cons]
    by_cases hnil : l = []
    · subst hnil
      simp; omega
    · obtain ⟨hall, p, hp, hpe⟩ := ih hnil
      refine ⟨fun p' hp' => ?_, ?_⟩
      · rcases List.mem_cons.mp hp' with rfl | hm
        · omega
        · have := hall p' hm; omega
      · by_cases hc : (ch q).toNat ≤ (ch p).toNat
        · exact ⟨q, List.mem_cons_self, by omega⟩
        · exact ⟨p, List.mem_cons_of_mem _ hp, by omega⟩

/-- The greatest value bounds every pixel, and some pixel has it. -/
theorem channelGreatest_spec (ch : Rgb → Byte) (l : List Rgb) (hl : l ≠ []) :
    (∀ p ∈ l, (ch p).toNat ≤ Reference.channelGreatest ch l) ∧
      ∃ p ∈ l, (ch p).toNat = Reference.channelGreatest ch l := by
  unfold Reference.channelGreatest
  induction l with
  | nil => exact absurd rfl hl
  | cons q l ih =>
    simp only [List.map_cons, List.foldr_cons]
    by_cases hnil : l = []
    · subst hnil
      simp
    · obtain ⟨hall, p, hp, hpe⟩ := ih hnil
      refine ⟨fun p' hp' => ?_, ?_⟩
      · rcases List.mem_cons.mp hp' with rfl | hm
        · omega
        · have := hall p' hm; omega
      · by_cases hc : (ch p).toNat ≤ (ch q).toNat
        · exact ⟨q, List.mem_cons_self, by omega⟩
        · exact ⟨p, List.mem_cons_of_mem _ hp, by omega⟩

theorem pix_toList_ne_nil (pix : Vector Rgb 16) : pix.toList ≠ [] := by
  obtain ⟨rest, h⟩ := pix_toList_cons pix
  simp [h]

/-- "`MAX ≥ MIN` per channel" (R93). -/
theorem channelMin_le_channelMax (ch : Rgb → Byte) (pix : Vector Rgb 16) :
    (channelMin ch pix).toNat ≤ (channelMax ch pix).toNat := by
  rw [channelMin_toNat, channelMax_toNat]
  obtain ⟨p, hp, he⟩ := (channelLeast_spec ch _ (pix_toList_ne_nil pix)).2
  rw [← he]
  exact (channelGreatest_spec ch _ (pix_toList_ne_nil pix)).1 p hp

/-! ### Inset (R93) and clamps (R94 to R96) -/

/-- The inset of an ordered pair. -/
theorem insetOf_toNat {lo hi : Byte} (h : lo.toNat ≤ hi.toNat) :
    (insetOf lo hi).toNat = (hi.toNat - lo.toNat) / 16 := by
  have hh := hi.isLt
  have hs : (hi - lo).toNat = hi.toNat - lo.toNat := BitVec.toNat_sub_of_le (BitVec.le_def.mpr h)
  unfold insetOf
  rw [if_neg (by omega)]
  rw [BitVec.toNat_setWidth, BitVec.toNat_ushiftRight, hs, Nat.shiftRight_eq_div_pow,
    show 2 ^ Config.insetShift = 16 from rfl]
  omega

/-- `clamp_low` on the adjusted maximum. -/
theorem adjustedHi_toNat (hi : Byte) (ins : BitVec 4) :
    (adjustedHi hi ins).toNat = if 2 * ins.toNat ≤ hi.toNat then hi.toNat - ins.toNat else 0 := by
  have hh := hi.isLt
  unfold adjustedHi
  simp only
  by_cases hc : 2 * ins.toNat ≤ hi.toNat
  · rw [if_pos (by omega), if_pos hc, BitVec.toNat_ofInt]
    omega
  · rw [if_neg (by omega), if_neg hc]
    rfl

/-- `clamp_high` on the adjusted minimum. -/
theorem adjustedLo_toNat (lo : Byte) (ins : BitVec 4) :
    (adjustedLo lo ins).toNat = min (lo.toNat + ins.toNat) 255 := by
  unfold adjustedLo
  simp only
  by_cases hc : lo.toNat + ins.toNat < 255
  · rw [if_pos hc, BitVec.toNat_ofNat]
    omega
  · rw [if_neg hc]
    simp
    omega

/-- `clamp_low` never clamps (R95). -/
theorem adjustedHi_inset {lo hi : Byte} (h : lo.toNat ≤ hi.toNat) :
    (adjustedHi hi (insetOf lo hi)).toNat = hi.toNat - (hi.toNat - lo.toNat) / 16 := by
  rw [adjustedHi_toNat, insetOf_toNat h, if_pos (by omega)]

/-- `clamp_high` never clamps to a different value (R96). -/
theorem adjustedLo_inset {lo hi : Byte} (h : lo.toNat ≤ hi.toNat) :
    (adjustedLo lo (insetOf lo hi)).toNat = lo.toNat + (hi.toNat - lo.toNat) / 16 := by
  have hh := hi.isLt
  rw [adjustedLo_toNat, insetOf_toNat h]
  omega

/-! ### The endpoints of a block (R99) -/

/-- Packing keeps the order of the channels (40_color_codec.md R86), for the reference's arithmetic. -/
theorem Reference.pack_mono {r r' g g' b b' : Nat} (hr : r ≤ r') (hg : g ≤ g') (hb : b ≤ b') :
    Reference.pack r g b ≤ Reference.pack r' g' b' := by
  have h1 : r / 8 ≤ r' / 8 := Nat.div_le_div_right hr
  have h2 : g / 4 ≤ g' / 4 := Nat.div_le_div_right hg
  have h3 : b / 8 ≤ b' / 8 := Nat.div_le_div_right hb
  unfold Reference.pack
  omega

/-- The registers of a state hold the box and the inset of its pixel buffer. -/
structure State.Analyzed (s : State) : Prop where
  boxMin : (⟨s.minR, s.minG, s.minB⟩ : Rgb) = Machine.boxMin s.pix
  boxMax : (⟨s.maxR, s.maxG, s.maxB⟩ : Rgb) = Machine.boxMax s.pix
  insetR : s.insR = insetOf s.minR s.maxR
  insetG : s.insG = insetOf s.minG s.maxG
  insetB : s.insB = insetOf s.minB s.maxB

/-- The six registers one by one. -/
theorem State.Analyzed.registers {s : State} (h : s.Analyzed) :
    (s.minR = channelMin Rgb.r s.pix ∧ s.minG = channelMin Rgb.g s.pix ∧ s.minB = channelMin Rgb.b s.pix) ∧
      s.maxR = channelMax Rgb.r s.pix ∧ s.maxG = channelMax Rgb.g s.pix ∧ s.maxB = channelMax Rgb.b s.pix := by
  have h1 := h.boxMin
  have h2 := h.boxMax
  simp only [Machine.boxMin, Machine.boxMax, Rgb.mk.injEq] at h1 h2
  exact ⟨h1, h2⟩

/-- `maxColor565` of an analyzed block is the reference's. -/
theorem State.Analyzed.maxEndpoint {s : State} (h : s.Analyzed) :
    s.maxEndpoint.toNat = Reference.pack (Reference.hi Rgb.r s.pix.toList) (Reference.hi Rgb.g s.pix.toList)
      (Reference.hi Rgb.b s.pix.toList) := by
  obtain ⟨⟨hr, hg, hb⟩, hR, hG, hB⟩ := h.registers
  have h3 := h.insetR
  have h4 := h.insetG
  have h5 := h.insetB
  rw [hr, hR] at h3
  rw [hg, hG] at h4
  rw [hb, hB] at h5
  unfold State.maxEndpoint Reference.pack Reference.hi Reference.inset
  rw [pack565_toNat, h3, h4, h5, hR, hG, hB, adjustedHi_inset (channelMin_le_channelMax _ _),
    adjustedHi_inset (channelMin_le_channelMax _ _), adjustedHi_inset (channelMin_le_channelMax _ _)]
  simp only [channelMin_toNat, channelMax_toNat]

/-- `minColor565` of an analyzed block is the reference's. -/
theorem State.Analyzed.minEndpoint {s : State} (h : s.Analyzed) :
    s.minEndpoint.toNat = Reference.pack (Reference.lo Rgb.r s.pix.toList) (Reference.lo Rgb.g s.pix.toList)
      (Reference.lo Rgb.b s.pix.toList) := by
  obtain ⟨⟨hr, hg, hb⟩, hR, hG, hB⟩ := h.registers
  have h3 := h.insetR
  have h4 := h.insetG
  have h5 := h.insetB
  rw [hr, hR] at h3
  rw [hg, hG] at h4
  rw [hb, hB] at h5
  unfold State.minEndpoint Reference.pack Reference.lo Reference.inset
  rw [pack565_toNat, h3, h4, h5, hr, hg, hb, adjustedLo_inset (channelMin_le_channelMax _ _),
    adjustedLo_inset (channelMin_le_channelMax _ _), adjustedLo_inset (channelMin_le_channelMax _ _)]
  simp only [channelMin_toNat, channelMax_toNat]

/-- "`hi_ch ≥ lo_ch` on all three channels" (R99). -/
theorem Reference.lo_le_hi (ch : Rgb → Byte) (pix : Vector Rgb 16) :
    Reference.lo ch pix.toList ≤ Reference.hi ch pix.toList := by
  have h := channelMin_le_channelMax ch pix
  rw [channelMin_toNat, channelMax_toNat] at h
  unfold Reference.lo Reference.hi Reference.inset
  omega

/-- `C0 ≥ C1` when `ENDPT` ends (R99). -/
theorem State.Analyzed.endpoints_ordered {s : State} (h : s.Analyzed) :
    s.minEndpoint.toNat ≤ s.maxEndpoint.toNat := by
  rw [h.minEndpoint, h.maxEndpoint]
  exact Reference.pack_mono (Reference.lo_le_hi _ _) (Reference.lo_le_hi _ _) (Reference.lo_le_hi _ _)

end Sys2Proof.Machine
end

