-- ==== Sys2Proof/Laws/State.lean ====
section
/-! SUPPORT. One lemma per field and per update of the state, each true by definition, so that no later proof unfolds an
update. -/

namespace Sys2Proof.Machine

variable (s : State)

/-! ### goto -/

@[simp] theorem State.goto_width (p : BitVec 4) : (s.goto p).width = s.width := (rfl)
@[simp] theorem State.goto_height (p : BitVec 4) : (s.goto p).height = s.height := (rfl)
@[simp] theorem State.goto_state (p : BitVec 4) : (s.goto p).state = s.state := (rfl)
@[simp] theorem State.goto_phase (p : BitVec 4) : (s.goto p).phase = p := (rfl)
@[simp] theorem State.goto_degen (p : BitVec 4) : (s.goto p).degen = s.degen := (rfl)
@[simp] theorem State.goto_cause (p : BitVec 4) : (s.goto p).cause = s.cause := (rfl)
@[simp] theorem State.goto_cnt (p : BitVec 4) : (s.goto p).cnt = s.cnt := (rfl)
@[simp] theorem State.goto_pix (p : BitVec 4) : (s.goto p).pix = s.pix := (rfl)
@[simp] theorem State.goto_minR (p : BitVec 4) : (s.goto p).minR = s.minR := (rfl)
@[simp] theorem State.goto_minG (p : BitVec 4) : (s.goto p).minG = s.minG := (rfl)
@[simp] theorem State.goto_minB (p : BitVec 4) : (s.goto p).minB = s.minB := (rfl)
@[simp] theorem State.goto_maxR (p : BitVec 4) : (s.goto p).maxR = s.maxR := (rfl)
@[simp] theorem State.goto_maxG (p : BitVec 4) : (s.goto p).maxG = s.maxG := (rfl)
@[simp] theorem State.goto_maxB (p : BitVec 4) : (s.goto p).maxB = s.maxB := (rfl)
@[simp] theorem State.goto_insR (p : BitVec 4) : (s.goto p).insR = s.insR := (rfl)
@[simp] theorem State.goto_insG (p : BitVec 4) : (s.goto p).insG = s.insG := (rfl)
@[simp] theorem State.goto_insB (p : BitVec 4) : (s.goto p).insB = s.insB := (rfl)
@[simp] theorem State.goto_c0 (p : BitVec 4) : (s.goto p).c0 = s.c0 := (rfl)
@[simp] theorem State.goto_c1 (p : BitVec 4) : (s.goto p).c1 = s.c1 := (rfl)
@[simp] theorem State.goto_pal (p : BitVec 4) : (s.goto p).pal = s.pal := (rfl)
@[simp] theorem State.goto_idx (p : BitVec 4) : (s.goto p).idx = s.idx := (rfl)
@[simp] theorem State.goto_w0 (p : BitVec 4) : (s.goto p).w0 = s.w0 := (rfl)
@[simp] theorem State.goto_w1 (p : BitVec 4) : (s.goto p).w1 = s.w1 := (rfl)
@[simp] theorem State.goto_src (p : BitVec 4) : (s.goto p).src = s.src := (rfl)
@[simp] theorem State.goto_dst (p : BitVec 4) : (s.goto p).dst = s.dst := (rfl)
@[simp] theorem State.goto_cfg (p : BitVec 4) : (s.goto p).cfg = s.cfg := (rfl)
@[simp] theorem State.goto_script (p : BitVec 4) : (s.goto p).script = s.script := (rfl)
@[simp] theorem State.goto_hostData (p : BitVec 4) : (s.goto p).hostData = s.hostData := (rfl)
@[simp] theorem State.goto_packOut (p : BitVec 4) : (s.goto p).packOut = s.packOut := (rfl)
@[simp] theorem State.goto_unpackOut (p : BitVec 4) : (s.goto p).unpackOut = s.unpackOut := (rfl)

/-! ### finish -/

@[simp] theorem State.finish_width : (s.finish).width = s.width := (rfl)
@[simp] theorem State.finish_height : (s.finish).height = s.height := (rfl)
@[simp] theorem State.finish_state : (s.finish).state = .doneOk := (rfl)
@[simp] theorem State.finish_phase : (s.finish).phase = Phase.idle := (rfl)
@[simp] theorem State.finish_degen : (s.finish).degen = s.degen := (rfl)
@[simp] theorem State.finish_cause : (s.finish).cause = s.cause := (rfl)
@[simp] theorem State.finish_cnt : (s.finish).cnt = s.cnt := (rfl)
@[simp] theorem State.finish_pix : (s.finish).pix = s.pix := (rfl)
@[simp] theorem State.finish_minR : (s.finish).minR = s.minR := (rfl)
@[simp] theorem State.finish_minG : (s.finish).minG = s.minG := (rfl)
@[simp] theorem State.finish_minB : (s.finish).minB = s.minB := (rfl)
@[simp] theorem State.finish_maxR : (s.finish).maxR = s.maxR := (rfl)
@[simp] theorem State.finish_maxG : (s.finish).maxG = s.maxG := (rfl)
@[simp] theorem State.finish_maxB : (s.finish).maxB = s.maxB := (rfl)
@[simp] theorem State.finish_insR : (s.finish).insR = s.insR := (rfl)
@[simp] theorem State.finish_insG : (s.finish).insG = s.insG := (rfl)
@[simp] theorem State.finish_insB : (s.finish).insB = s.insB := (rfl)
@[simp] theorem State.finish_c0 : (s.finish).c0 = s.c0 := (rfl)
@[simp] theorem State.finish_c1 : (s.finish).c1 = s.c1 := (rfl)
@[simp] theorem State.finish_pal : (s.finish).pal = s.pal := (rfl)
@[simp] theorem State.finish_idx : (s.finish).idx = s.idx := (rfl)
@[simp] theorem State.finish_w0 : (s.finish).w0 = s.w0 := (rfl)
@[simp] theorem State.finish_w1 : (s.finish).w1 = s.w1 := (rfl)
@[simp] theorem State.finish_src : (s.finish).src = s.src := (rfl)
@[simp] theorem State.finish_dst : (s.finish).dst = s.dst := (rfl)
@[simp] theorem State.finish_cfg : (s.finish).cfg = s.cfg := (rfl)
@[simp] theorem State.finish_script : (s.finish).script = s.script := (rfl)
@[simp] theorem State.finish_hostData : (s.finish).hostData = s.hostData := (rfl)
@[simp] theorem State.finish_packOut : (s.finish).packOut = s.packOut := (rfl)
@[simp] theorem State.finish_unpackOut : (s.finish).unpackOut = s.unpackOut := (rfl)

/-! ### start -/

@[simp] theorem State.start_width (p : BitVec 4) : (s.start p).width = s.width := (rfl)
@[simp] theorem State.start_height (p : BitVec 4) : (s.start p).height = s.height := (rfl)
@[simp] theorem State.start_state (p : BitVec 4) : (s.start p).state = .busy := (rfl)
@[simp] theorem State.start_phase (p : BitVec 4) : (s.start p).phase = p := (rfl)
@[simp] theorem State.start_degen (p : BitVec 4) : (s.start p).degen = false := (rfl)
@[simp] theorem State.start_cause (p : BitVec 4) : (s.start p).cause = 0#4 := (rfl)
@[simp] theorem State.start_cnt (p : BitVec 4) : (s.start p).cnt = 0#29 := (rfl)
@[simp] theorem State.start_pix (p : BitVec 4) : (s.start p).pix = s.pix := (rfl)
@[simp] theorem State.start_minR (p : BitVec 4) : (s.start p).minR = s.minR := (rfl)
@[simp] theorem State.start_minG (p : BitVec 4) : (s.start p).minG = s.minG := (rfl)
@[simp] theorem State.start_minB (p : BitVec 4) : (s.start p).minB = s.minB := (rfl)
@[simp] theorem State.start_maxR (p : BitVec 4) : (s.start p).maxR = s.maxR := (rfl)
@[simp] theorem State.start_maxG (p : BitVec 4) : (s.start p).maxG = s.maxG := (rfl)
@[simp] theorem State.start_maxB (p : BitVec 4) : (s.start p).maxB = s.maxB := (rfl)
@[simp] theorem State.start_insR (p : BitVec 4) : (s.start p).insR = s.insR := (rfl)
@[simp] theorem State.start_insG (p : BitVec 4) : (s.start p).insG = s.insG := (rfl)
@[simp] theorem State.start_insB (p : BitVec 4) : (s.start p).insB = s.insB := (rfl)
@[simp] theorem State.start_c0 (p : BitVec 4) : (s.start p).c0 = s.c0 := (rfl)
@[simp] theorem State.start_c1 (p : BitVec 4) : (s.start p).c1 = s.c1 := (rfl)
@[simp] theorem State.start_pal (p : BitVec 4) : (s.start p).pal = s.pal := (rfl)
@[simp] theorem State.start_idx (p : BitVec 4) : (s.start p).idx = s.idx := (rfl)
@[simp] theorem State.start_w0 (p : BitVec 4) : (s.start p).w0 = s.w0 := (rfl)
@[simp] theorem State.start_w1 (p : BitVec 4) : (s.start p).w1 = s.w1 := (rfl)
@[simp] theorem State.start_src (p : BitVec 4) : (s.start p).src = s.src := (rfl)
@[simp] theorem State.start_dst (p : BitVec 4) : (s.start p).dst = s.dst := (rfl)
@[simp] theorem State.start_cfg (p : BitVec 4) : (s.start p).cfg = s.cfg := (rfl)
@[simp] theorem State.start_script (p : BitVec 4) : (s.start p).script = s.script := (rfl)
@[simp] theorem State.start_hostData (p : BitVec 4) : (s.start p).hostData = s.hostData := (rfl)
@[simp] theorem State.start_packOut (p : BitVec 4) : (s.start p).packOut = s.packOut := (rfl)
@[simp] theorem State.start_unpackOut (p : BitVec 4) : (s.start p).unpackOut = s.unpackOut := (rfl)

/-! ### setCnt -/

@[simp] theorem State.setCnt_width (n : BitVec 29) : (s.setCnt n).width = s.width := (rfl)
@[simp] theorem State.setCnt_height (n : BitVec 29) : (s.setCnt n).height = s.height := (rfl)
@[simp] theorem State.setCnt_state (n : BitVec 29) : (s.setCnt n).state = s.state := (rfl)
@[simp] theorem State.setCnt_phase (n : BitVec 29) : (s.setCnt n).phase = s.phase := (rfl)
@[simp] theorem State.setCnt_degen (n : BitVec 29) : (s.setCnt n).degen = s.degen := (rfl)
@[simp] theorem State.setCnt_cause (n : BitVec 29) : (s.setCnt n).cause = s.cause := (rfl)
@[simp] theorem State.setCnt_cnt (n : BitVec 29) : (s.setCnt n).cnt = n := (rfl)
@[simp] theorem State.setCnt_pix (n : BitVec 29) : (s.setCnt n).pix = s.pix := (rfl)
@[simp] theorem State.setCnt_minR (n : BitVec 29) : (s.setCnt n).minR = s.minR := (rfl)
@[simp] theorem State.setCnt_minG (n : BitVec 29) : (s.setCnt n).minG = s.minG := (rfl)
@[simp] theorem State.setCnt_minB (n : BitVec 29) : (s.setCnt n).minB = s.minB := (rfl)
@[simp] theorem State.setCnt_maxR (n : BitVec 29) : (s.setCnt n).maxR = s.maxR := (rfl)
@[simp] theorem State.setCnt_maxG (n : BitVec 29) : (s.setCnt n).maxG = s.maxG := (rfl)
@[simp] theorem State.setCnt_maxB (n : BitVec 29) : (s.setCnt n).maxB = s.maxB := (rfl)
@[simp] theorem State.setCnt_insR (n : BitVec 29) : (s.setCnt n).insR = s.insR := (rfl)
@[simp] theorem State.setCnt_insG (n : BitVec 29) : (s.setCnt n).insG = s.insG := (rfl)
@[simp] theorem State.setCnt_insB (n : BitVec 29) : (s.setCnt n).insB = s.insB := (rfl)
@[simp] theorem State.setCnt_c0 (n : BitVec 29) : (s.setCnt n).c0 = s.c0 := (rfl)
@[simp] theorem State.setCnt_c1 (n : BitVec 29) : (s.setCnt n).c1 = s.c1 := (rfl)
@[simp] theorem State.setCnt_pal (n : BitVec 29) : (s.setCnt n).pal = s.pal := (rfl)
@[simp] theorem State.setCnt_idx (n : BitVec 29) : (s.setCnt n).idx = s.idx := (rfl)
@[simp] theorem State.setCnt_w0 (n : BitVec 29) : (s.setCnt n).w0 = s.w0 := (rfl)
@[simp] theorem State.setCnt_w1 (n : BitVec 29) : (s.setCnt n).w1 = s.w1 := (rfl)
@[simp] theorem State.setCnt_src (n : BitVec 29) : (s.setCnt n).src = s.src := (rfl)
@[simp] theorem State.setCnt_dst (n : BitVec 29) : (s.setCnt n).dst = s.dst := (rfl)
@[simp] theorem State.setCnt_cfg (n : BitVec 29) : (s.setCnt n).cfg = s.cfg := (rfl)
@[simp] theorem State.setCnt_script (n : BitVec 29) : (s.setCnt n).script = s.script := (rfl)
@[simp] theorem State.setCnt_hostData (n : BitVec 29) : (s.setCnt n).hostData = s.hostData := (rfl)
@[simp] theorem State.setCnt_packOut (n : BitVec 29) : (s.setCnt n).packOut = s.packOut := (rfl)
@[simp] theorem State.setCnt_unpackOut (n : BitVec 29) : (s.setCnt n).unpackOut = s.unpackOut := (rfl)

/-! ### setDegen -/

@[simp] theorem State.setDegen_width (d : Bool) : (s.setDegen d).width = s.width := (rfl)
@[simp] theorem State.setDegen_height (d : Bool) : (s.setDegen d).height = s.height := (rfl)
@[simp] theorem State.setDegen_state (d : Bool) : (s.setDegen d).state = s.state := (rfl)
@[simp] theorem State.setDegen_phase (d : Bool) : (s.setDegen d).phase = s.phase := (rfl)
@[simp] theorem State.setDegen_degen (d : Bool) : (s.setDegen d).degen = d := (rfl)
@[simp] theorem State.setDegen_cause (d : Bool) : (s.setDegen d).cause = s.cause := (rfl)
@[simp] theorem State.setDegen_cnt (d : Bool) : (s.setDegen d).cnt = s.cnt := (rfl)
@[simp] theorem State.setDegen_pix (d : Bool) : (s.setDegen d).pix = s.pix := (rfl)
@[simp] theorem State.setDegen_minR (d : Bool) : (s.setDegen d).minR = s.minR := (rfl)
@[simp] theorem State.setDegen_minG (d : Bool) : (s.setDegen d).minG = s.minG := (rfl)
@[simp] theorem State.setDegen_minB (d : Bool) : (s.setDegen d).minB = s.minB := (rfl)
@[simp] theorem State.setDegen_maxR (d : Bool) : (s.setDegen d).maxR = s.maxR := (rfl)
@[simp] theorem State.setDegen_maxG (d : Bool) : (s.setDegen d).maxG = s.maxG := (rfl)
@[simp] theorem State.setDegen_maxB (d : Bool) : (s.setDegen d).maxB = s.maxB := (rfl)
@[simp] theorem State.setDegen_insR (d : Bool) : (s.setDegen d).insR = s.insR := (rfl)
@[simp] theorem State.setDegen_insG (d : Bool) : (s.setDegen d).insG = s.insG := (rfl)
@[simp] theorem State.setDegen_insB (d : Bool) : (s.setDegen d).insB = s.insB := (rfl)
@[simp] theorem State.setDegen_c0 (d : Bool) : (s.setDegen d).c0 = s.c0 := (rfl)
@[simp] theorem State.setDegen_c1 (d : Bool) : (s.setDegen d).c1 = s.c1 := (rfl)
@[simp] theorem State.setDegen_pal (d : Bool) : (s.setDegen d).pal = s.pal := (rfl)
@[simp] theorem State.setDegen_idx (d : Bool) : (s.setDegen d).idx = s.idx := (rfl)
@[simp] theorem State.setDegen_w0 (d : Bool) : (s.setDegen d).w0 = s.w0 := (rfl)
@[simp] theorem State.setDegen_w1 (d : Bool) : (s.setDegen d).w1 = s.w1 := (rfl)
@[simp] theorem State.setDegen_src (d : Bool) : (s.setDegen d).src = s.src := (rfl)
@[simp] theorem State.setDegen_dst (d : Bool) : (s.setDegen d).dst = s.dst := (rfl)
@[simp] theorem State.setDegen_cfg (d : Bool) : (s.setDegen d).cfg = s.cfg := (rfl)
@[simp] theorem State.setDegen_script (d : Bool) : (s.setDegen d).script = s.script := (rfl)
@[simp] theorem State.setDegen_hostData (d : Bool) : (s.setDegen d).hostData = s.hostData := (rfl)
@[simp] theorem State.setDegen_packOut (d : Bool) : (s.setDegen d).packOut = s.packOut := (rfl)
@[simp] theorem State.setDegen_unpackOut (d : Bool) : (s.setDegen d).unpackOut = s.unpackOut := (rfl)

/-! ### setPix -/

@[simp] theorem State.setPix_width (q : Vector Rgb 16) : (s.setPix q).width = s.width := (rfl)
@[simp] theorem State.setPix_height (q : Vector Rgb 16) : (s.setPix q).height = s.height := (rfl)
@[simp] theorem State.setPix_state (q : Vector Rgb 16) : (s.setPix q).state = s.state := (rfl)
@[simp] theorem State.setPix_phase (q : Vector Rgb 16) : (s.setPix q).phase = s.phase := (rfl)
@[simp] theorem State.setPix_degen (q : Vector Rgb 16) : (s.setPix q).degen = s.degen := (rfl)
@[simp] theorem State.setPix_cause (q : Vector Rgb 16) : (s.setPix q).cause = s.cause := (rfl)
@[simp] theorem State.setPix_cnt (q : Vector Rgb 16) : (s.setPix q).cnt = s.cnt := (rfl)
@[simp] theorem State.setPix_pix (q : Vector Rgb 16) : (s.setPix q).pix = q := (rfl)
@[simp] theorem State.setPix_minR (q : Vector Rgb 16) : (s.setPix q).minR = s.minR := (rfl)
@[simp] theorem State.setPix_minG (q : Vector Rgb 16) : (s.setPix q).minG = s.minG := (rfl)
@[simp] theorem State.setPix_minB (q : Vector Rgb 16) : (s.setPix q).minB = s.minB := (rfl)
@[simp] theorem State.setPix_maxR (q : Vector Rgb 16) : (s.setPix q).maxR = s.maxR := (rfl)
@[simp] theorem State.setPix_maxG (q : Vector Rgb 16) : (s.setPix q).maxG = s.maxG := (rfl)
@[simp] theorem State.setPix_maxB (q : Vector Rgb 16) : (s.setPix q).maxB = s.maxB := (rfl)
@[simp] theorem State.setPix_insR (q : Vector Rgb 16) : (s.setPix q).insR = s.insR := (rfl)
@[simp] theorem State.setPix_insG (q : Vector Rgb 16) : (s.setPix q).insG = s.insG := (rfl)
@[simp] theorem State.setPix_insB (q : Vector Rgb 16) : (s.setPix q).insB = s.insB := (rfl)
@[simp] theorem State.setPix_c0 (q : Vector Rgb 16) : (s.setPix q).c0 = s.c0 := (rfl)
@[simp] theorem State.setPix_c1 (q : Vector Rgb 16) : (s.setPix q).c1 = s.c1 := (rfl)
@[simp] theorem State.setPix_pal (q : Vector Rgb 16) : (s.setPix q).pal = s.pal := (rfl)
@[simp] theorem State.setPix_idx (q : Vector Rgb 16) : (s.setPix q).idx = s.idx := (rfl)
@[simp] theorem State.setPix_w0 (q : Vector Rgb 16) : (s.setPix q).w0 = s.w0 := (rfl)
@[simp] theorem State.setPix_w1 (q : Vector Rgb 16) : (s.setPix q).w1 = s.w1 := (rfl)
@[simp] theorem State.setPix_src (q : Vector Rgb 16) : (s.setPix q).src = s.src := (rfl)
@[simp] theorem State.setPix_dst (q : Vector Rgb 16) : (s.setPix q).dst = s.dst := (rfl)
@[simp] theorem State.setPix_cfg (q : Vector Rgb 16) : (s.setPix q).cfg = s.cfg := (rfl)
@[simp] theorem State.setPix_script (q : Vector Rgb 16) : (s.setPix q).script = s.script := (rfl)
@[simp] theorem State.setPix_hostData (q : Vector Rgb 16) : (s.setPix q).hostData = s.hostData := (rfl)
@[simp] theorem State.setPix_packOut (q : Vector Rgb 16) : (s.setPix q).packOut = s.packOut := (rfl)
@[simp] theorem State.setPix_unpackOut (q : Vector Rgb 16) : (s.setPix q).unpackOut = s.unpackOut := (rfl)

/-! ### setBox -/

@[simp] theorem State.setBox_width (lo hi : Rgb) : (s.setBox lo hi).width = s.width := (rfl)
@[simp] theorem State.setBox_height (lo hi : Rgb) : (s.setBox lo hi).height = s.height := (rfl)
@[simp] theorem State.setBox_state (lo hi : Rgb) : (s.setBox lo hi).state = s.state := (rfl)
@[simp] theorem State.setBox_phase (lo hi : Rgb) : (s.setBox lo hi).phase = s.phase := (rfl)
@[simp] theorem State.setBox_degen (lo hi : Rgb) : (s.setBox lo hi).degen = s.degen := (rfl)
@[simp] theorem State.setBox_cause (lo hi : Rgb) : (s.setBox lo hi).cause = s.cause := (rfl)
@[simp] theorem State.setBox_cnt (lo hi : Rgb) : (s.setBox lo hi).cnt = s.cnt := (rfl)
@[simp] theorem State.setBox_pix (lo hi : Rgb) : (s.setBox lo hi).pix = s.pix := (rfl)
@[simp] theorem State.setBox_minR (lo hi : Rgb) : (s.setBox lo hi).minR = lo.r := (rfl)
@[simp] theorem State.setBox_minG (lo hi : Rgb) : (s.setBox lo hi).minG = lo.g := (rfl)
@[simp] theorem State.setBox_minB (lo hi : Rgb) : (s.setBox lo hi).minB = lo.b := (rfl)
@[simp] theorem State.setBox_maxR (lo hi : Rgb) : (s.setBox lo hi).maxR = hi.r := (rfl)
@[simp] theorem State.setBox_maxG (lo hi : Rgb) : (s.setBox lo hi).maxG = hi.g := (rfl)
@[simp] theorem State.setBox_maxB (lo hi : Rgb) : (s.setBox lo hi).maxB = hi.b := (rfl)
@[simp] theorem State.setBox_insR (lo hi : Rgb) : (s.setBox lo hi).insR = s.insR := (rfl)
@[simp] theorem State.setBox_insG (lo hi : Rgb) : (s.setBox lo hi).insG = s.insG := (rfl)
@[simp] theorem State.setBox_insB (lo hi : Rgb) : (s.setBox lo hi).insB = s.insB := (rfl)
@[simp] theorem State.setBox_c0 (lo hi : Rgb) : (s.setBox lo hi).c0 = s.c0 := (rfl)
@[simp] theorem State.setBox_c1 (lo hi : Rgb) : (s.setBox lo hi).c1 = s.c1 := (rfl)
@[simp] theorem State.setBox_pal (lo hi : Rgb) : (s.setBox lo hi).pal = s.pal := (rfl)
@[simp] theorem State.setBox_idx (lo hi : Rgb) : (s.setBox lo hi).idx = s.idx := (rfl)
@[simp] theorem State.setBox_w0 (lo hi : Rgb) : (s.setBox lo hi).w0 = s.w0 := (rfl)
@[simp] theorem State.setBox_w1 (lo hi : Rgb) : (s.setBox lo hi).w1 = s.w1 := (rfl)
@[simp] theorem State.setBox_src (lo hi : Rgb) : (s.setBox lo hi).src = s.src := (rfl)
@[simp] theorem State.setBox_dst (lo hi : Rgb) : (s.setBox lo hi).dst = s.dst := (rfl)
@[simp] theorem State.setBox_cfg (lo hi : Rgb) : (s.setBox lo hi).cfg = s.cfg := (rfl)
@[simp] theorem State.setBox_script (lo hi : Rgb) : (s.setBox lo hi).script = s.script := (rfl)
@[simp] theorem State.setBox_hostData (lo hi : Rgb) : (s.setBox lo hi).hostData = s.hostData := (rfl)
@[simp] theorem State.setBox_packOut (lo hi : Rgb) : (s.setBox lo hi).packOut = s.packOut := (rfl)
@[simp] theorem State.setBox_unpackOut (lo hi : Rgb) : (s.setBox lo hi).unpackOut = s.unpackOut := (rfl)

/-! ### setInset -/

@[simp] theorem State.setInset_width (r g b : BitVec 4) : (s.setInset r g b).width = s.width := (rfl)
@[simp] theorem State.setInset_height (r g b : BitVec 4) : (s.setInset r g b).height = s.height := (rfl)
@[simp] theorem State.setInset_state (r g b : BitVec 4) : (s.setInset r g b).state = s.state := (rfl)
@[simp] theorem State.setInset_phase (r g b : BitVec 4) : (s.setInset r g b).phase = s.phase := (rfl)
@[simp] theorem State.setInset_degen (r g b : BitVec 4) : (s.setInset r g b).degen = s.degen := (rfl)
@[simp] theorem State.setInset_cause (r g b : BitVec 4) : (s.setInset r g b).cause = s.cause := (rfl)
@[simp] theorem State.setInset_cnt (r g b : BitVec 4) : (s.setInset r g b).cnt = s.cnt := (rfl)
@[simp] theorem State.setInset_pix (r g b : BitVec 4) : (s.setInset r g b).pix = s.pix := (rfl)
@[simp] theorem State.setInset_minR (r g b : BitVec 4) : (s.setInset r g b).minR = s.minR := (rfl)
@[simp] theorem State.setInset_minG (r g b : BitVec 4) : (s.setInset r g b).minG = s.minG := (rfl)
@[simp] theorem State.setInset_minB (r g b : BitVec 4) : (s.setInset r g b).minB = s.minB := (rfl)
@[simp] theorem State.setInset_maxR (r g b : BitVec 4) : (s.setInset r g b).maxR = s.maxR := (rfl)
@[simp] theorem State.setInset_maxG (r g b : BitVec 4) : (s.setInset r g b).maxG = s.maxG := (rfl)
@[simp] theorem State.setInset_maxB (r g b : BitVec 4) : (s.setInset r g b).maxB = s.maxB := (rfl)
@[simp] theorem State.setInset_insR (r g b : BitVec 4) : (s.setInset r g b).insR = r := (rfl)
@[simp] theorem State.setInset_insG (r g b : BitVec 4) : (s.setInset r g b).insG = g := (rfl)
@[simp] theorem State.setInset_insB (r g b : BitVec 4) : (s.setInset r g b).insB = b := (rfl)
@[simp] theorem State.setInset_c0 (r g b : BitVec 4) : (s.setInset r g b).c0 = s.c0 := (rfl)
@[simp] theorem State.setInset_c1 (r g b : BitVec 4) : (s.setInset r g b).c1 = s.c1 := (rfl)
@[simp] theorem State.setInset_pal (r g b : BitVec 4) : (s.setInset r g b).pal = s.pal := (rfl)
@[simp] theorem State.setInset_idx (r g b : BitVec 4) : (s.setInset r g b).idx = s.idx := (rfl)
@[simp] theorem State.setInset_w0 (r g b : BitVec 4) : (s.setInset r g b).w0 = s.w0 := (rfl)
@[simp] theorem State.setInset_w1 (r g b : BitVec 4) : (s.setInset r g b).w1 = s.w1 := (rfl)
@[simp] theorem State.setInset_src (r g b : BitVec 4) : (s.setInset r g b).src = s.src := (rfl)
@[simp] theorem State.setInset_dst (r g b : BitVec 4) : (s.setInset r g b).dst = s.dst := (rfl)
@[simp] theorem State.setInset_cfg (r g b : BitVec 4) : (s.setInset r g b).cfg = s.cfg := (rfl)
@[simp] theorem State.setInset_script (r g b : BitVec 4) : (s.setInset r g b).script = s.script := (rfl)
@[simp] theorem State.setInset_hostData (r g b : BitVec 4) : (s.setInset r g b).hostData = s.hostData := (rfl)
@[simp] theorem State.setInset_packOut (r g b : BitVec 4) : (s.setInset r g b).packOut = s.packOut := (rfl)
@[simp] theorem State.setInset_unpackOut (r g b : BitVec 4) : (s.setInset r g b).unpackOut = s.unpackOut := (rfl)

/-! ### setEndpoints -/

@[simp] theorem State.setEndpoints_width (x y : Half) : (s.setEndpoints x y).width = s.width := (rfl)
@[simp] theorem State.setEndpoints_height (x y : Half) : (s.setEndpoints x y).height = s.height := (rfl)
@[simp] theorem State.setEndpoints_state (x y : Half) : (s.setEndpoints x y).state = s.state := (rfl)
@[simp] theorem State.setEndpoints_phase (x y : Half) : (s.setEndpoints x y).phase = s.phase := (rfl)
@[simp] theorem State.setEndpoints_degen (x y : Half) : (s.setEndpoints x y).degen = s.degen := (rfl)
@[simp] theorem State.setEndpoints_cause (x y : Half) : (s.setEndpoints x y).cause = s.cause := (rfl)
@[simp] theorem State.setEndpoints_cnt (x y : Half) : (s.setEndpoints x y).cnt = s.cnt := (rfl)
@[simp] theorem State.setEndpoints_pix (x y : Half) : (s.setEndpoints x y).pix = s.pix := (rfl)
@[simp] theorem State.setEndpoints_minR (x y : Half) : (s.setEndpoints x y).minR = s.minR := (rfl)
@[simp] theorem State.setEndpoints_minG (x y : Half) : (s.setEndpoints x y).minG = s.minG := (rfl)
@[simp] theorem State.setEndpoints_minB (x y : Half) : (s.setEndpoints x y).minB = s.minB := (rfl)
@[simp] theorem State.setEndpoints_maxR (x y : Half) : (s.setEndpoints x y).maxR = s.maxR := (rfl)
@[simp] theorem State.setEndpoints_maxG (x y : Half) : (s.setEndpoints x y).maxG = s.maxG := (rfl)
@[simp] theorem State.setEndpoints_maxB (x y : Half) : (s.setEndpoints x y).maxB = s.maxB := (rfl)
@[simp] theorem State.setEndpoints_insR (x y : Half) : (s.setEndpoints x y).insR = s.insR := (rfl)
@[simp] theorem State.setEndpoints_insG (x y : Half) : (s.setEndpoints x y).insG = s.insG := (rfl)
@[simp] theorem State.setEndpoints_insB (x y : Half) : (s.setEndpoints x y).insB = s.insB := (rfl)
@[simp] theorem State.setEndpoints_c0 (x y : Half) : (s.setEndpoints x y).c0 = x := (rfl)
@[simp] theorem State.setEndpoints_c1 (x y : Half) : (s.setEndpoints x y).c1 = y := (rfl)
@[simp] theorem State.setEndpoints_pal (x y : Half) : (s.setEndpoints x y).pal = s.pal := (rfl)
@[simp] theorem State.setEndpoints_idx (x y : Half) : (s.setEndpoints x y).idx = s.idx := (rfl)
@[simp] theorem State.setEndpoints_w0 (x y : Half) : (s.setEndpoints x y).w0 = s.w0 := (rfl)
@[simp] theorem State.setEndpoints_w1 (x y : Half) : (s.setEndpoints x y).w1 = s.w1 := (rfl)
@[simp] theorem State.setEndpoints_src (x y : Half) : (s.setEndpoints x y).src = s.src := (rfl)
@[simp] theorem State.setEndpoints_dst (x y : Half) : (s.setEndpoints x y).dst = s.dst := (rfl)
@[simp] theorem State.setEndpoints_cfg (x y : Half) : (s.setEndpoints x y).cfg = s.cfg := (rfl)
@[simp] theorem State.setEndpoints_script (x y : Half) : (s.setEndpoints x y).script = s.script := (rfl)
@[simp] theorem State.setEndpoints_hostData (x y : Half) : (s.setEndpoints x y).hostData = s.hostData := (rfl)
@[simp] theorem State.setEndpoints_packOut (x y : Half) : (s.setEndpoints x y).packOut = s.packOut := (rfl)
@[simp] theorem State.setEndpoints_unpackOut (x y : Half) : (s.setEndpoints x y).unpackOut = s.unpackOut := (rfl)

/-! ### setPal -/

@[simp] theorem State.setPal_width (q : Vector Rgb 4) : (s.setPal q).width = s.width := (rfl)
@[simp] theorem State.setPal_height (q : Vector Rgb 4) : (s.setPal q).height = s.height := (rfl)
@[simp] theorem State.setPal_state (q : Vector Rgb 4) : (s.setPal q).state = s.state := (rfl)
@[simp] theorem State.setPal_phase (q : Vector Rgb 4) : (s.setPal q).phase = s.phase := (rfl)
@[simp] theorem State.setPal_degen (q : Vector Rgb 4) : (s.setPal q).degen = s.degen := (rfl)
@[simp] theorem State.setPal_cause (q : Vector Rgb 4) : (s.setPal q).cause = s.cause := (rfl)
@[simp] theorem State.setPal_cnt (q : Vector Rgb 4) : (s.setPal q).cnt = s.cnt := (rfl)
@[simp] theorem State.setPal_pix (q : Vector Rgb 4) : (s.setPal q).pix = s.pix := (rfl)
@[simp] theorem State.setPal_minR (q : Vector Rgb 4) : (s.setPal q).minR = s.minR := (rfl)
@[simp] theorem State.setPal_minG (q : Vector Rgb 4) : (s.setPal q).minG = s.minG := (rfl)
@[simp] theorem State.setPal_minB (q : Vector Rgb 4) : (s.setPal q).minB = s.minB := (rfl)
@[simp] theorem State.setPal_maxR (q : Vector Rgb 4) : (s.setPal q).maxR = s.maxR := (rfl)
@[simp] theorem State.setPal_maxG (q : Vector Rgb 4) : (s.setPal q).maxG = s.maxG := (rfl)
@[simp] theorem State.setPal_maxB (q : Vector Rgb 4) : (s.setPal q).maxB = s.maxB := (rfl)
@[simp] theorem State.setPal_insR (q : Vector Rgb 4) : (s.setPal q).insR = s.insR := (rfl)
@[simp] theorem State.setPal_insG (q : Vector Rgb 4) : (s.setPal q).insG = s.insG := (rfl)
@[simp] theorem State.setPal_insB (q : Vector Rgb 4) : (s.setPal q).insB = s.insB := (rfl)
@[simp] theorem State.setPal_c0 (q : Vector Rgb 4) : (s.setPal q).c0 = s.c0 := (rfl)
@[simp] theorem State.setPal_c1 (q : Vector Rgb 4) : (s.setPal q).c1 = s.c1 := (rfl)
@[simp] theorem State.setPal_pal (q : Vector Rgb 4) : (s.setPal q).pal = q := (rfl)
@[simp] theorem State.setPal_idx (q : Vector Rgb 4) : (s.setPal q).idx = s.idx := (rfl)
@[simp] theorem State.setPal_w0 (q : Vector Rgb 4) : (s.setPal q).w0 = s.w0 := (rfl)
@[simp] theorem State.setPal_w1 (q : Vector Rgb 4) : (s.setPal q).w1 = s.w1 := (rfl)
@[simp] theorem State.setPal_src (q : Vector Rgb 4) : (s.setPal q).src = s.src := (rfl)
@[simp] theorem State.setPal_dst (q : Vector Rgb 4) : (s.setPal q).dst = s.dst := (rfl)
@[simp] theorem State.setPal_cfg (q : Vector Rgb 4) : (s.setPal q).cfg = s.cfg := (rfl)
@[simp] theorem State.setPal_script (q : Vector Rgb 4) : (s.setPal q).script = s.script := (rfl)
@[simp] theorem State.setPal_hostData (q : Vector Rgb 4) : (s.setPal q).hostData = s.hostData := (rfl)
@[simp] theorem State.setPal_packOut (q : Vector Rgb 4) : (s.setPal q).packOut = s.packOut := (rfl)
@[simp] theorem State.setPal_unpackOut (q : Vector Rgb 4) : (s.setPal q).unpackOut = s.unpackOut := (rfl)

/-! ### setIdx -/

@[simp] theorem State.setIdx_width (w : Word) : (s.setIdx w).width = s.width := (rfl)
@[simp] theorem State.setIdx_height (w : Word) : (s.setIdx w).height = s.height := (rfl)
@[simp] theorem State.setIdx_state (w : Word) : (s.setIdx w).state = s.state := (rfl)
@[simp] theorem State.setIdx_phase (w : Word) : (s.setIdx w).phase = s.phase := (rfl)
@[simp] theorem State.setIdx_degen (w : Word) : (s.setIdx w).degen = s.degen := (rfl)
@[simp] theorem State.setIdx_cause (w : Word) : (s.setIdx w).cause = s.cause := (rfl)
@[simp] theorem State.setIdx_cnt (w : Word) : (s.setIdx w).cnt = s.cnt := (rfl)
@[simp] theorem State.setIdx_pix (w : Word) : (s.setIdx w).pix = s.pix := (rfl)
@[simp] theorem State.setIdx_minR (w : Word) : (s.setIdx w).minR = s.minR := (rfl)
@[simp] theorem State.setIdx_minG (w : Word) : (s.setIdx w).minG = s.minG := (rfl)
@[simp] theorem State.setIdx_minB (w : Word) : (s.setIdx w).minB = s.minB := (rfl)
@[simp] theorem State.setIdx_maxR (w : Word) : (s.setIdx w).maxR = s.maxR := (rfl)
@[simp] theorem State.setIdx_maxG (w : Word) : (s.setIdx w).maxG = s.maxG := (rfl)
@[simp] theorem State.setIdx_maxB (w : Word) : (s.setIdx w).maxB = s.maxB := (rfl)
@[simp] theorem State.setIdx_insR (w : Word) : (s.setIdx w).insR = s.insR := (rfl)
@[simp] theorem State.setIdx_insG (w : Word) : (s.setIdx w).insG = s.insG := (rfl)
@[simp] theorem State.setIdx_insB (w : Word) : (s.setIdx w).insB = s.insB := (rfl)
@[simp] theorem State.setIdx_c0 (w : Word) : (s.setIdx w).c0 = s.c0 := (rfl)
@[simp] theorem State.setIdx_c1 (w : Word) : (s.setIdx w).c1 = s.c1 := (rfl)
@[simp] theorem State.setIdx_pal (w : Word) : (s.setIdx w).pal = s.pal := (rfl)
@[simp] theorem State.setIdx_idx (w : Word) : (s.setIdx w).idx = w := (rfl)
@[simp] theorem State.setIdx_w0 (w : Word) : (s.setIdx w).w0 = s.w0 := (rfl)
@[simp] theorem State.setIdx_w1 (w : Word) : (s.setIdx w).w1 = s.w1 := (rfl)
@[simp] theorem State.setIdx_src (w : Word) : (s.setIdx w).src = s.src := (rfl)
@[simp] theorem State.setIdx_dst (w : Word) : (s.setIdx w).dst = s.dst := (rfl)
@[simp] theorem State.setIdx_cfg (w : Word) : (s.setIdx w).cfg = s.cfg := (rfl)
@[simp] theorem State.setIdx_script (w : Word) : (s.setIdx w).script = s.script := (rfl)
@[simp] theorem State.setIdx_hostData (w : Word) : (s.setIdx w).hostData = s.hostData := (rfl)
@[simp] theorem State.setIdx_packOut (w : Word) : (s.setIdx w).packOut = s.packOut := (rfl)
@[simp] theorem State.setIdx_unpackOut (w : Word) : (s.setIdx w).unpackOut = s.unpackOut := (rfl)

/-! ### setWords -/

@[simp] theorem State.setWords_width (x y : Word) : (s.setWords x y).width = s.width := (rfl)
@[simp] theorem State.setWords_height (x y : Word) : (s.setWords x y).height = s.height := (rfl)
@[simp] theorem State.setWords_state (x y : Word) : (s.setWords x y).state = s.state := (rfl)
@[simp] theorem State.setWords_phase (x y : Word) : (s.setWords x y).phase = s.phase := (rfl)
@[simp] theorem State.setWords_degen (x y : Word) : (s.setWords x y).degen = s.degen := (rfl)
@[simp] theorem State.setWords_cause (x y : Word) : (s.setWords x y).cause = s.cause := (rfl)
@[simp] theorem State.setWords_cnt (x y : Word) : (s.setWords x y).cnt = s.cnt := (rfl)
@[simp] theorem State.setWords_pix (x y : Word) : (s.setWords x y).pix = s.pix := (rfl)
@[simp] theorem State.setWords_minR (x y : Word) : (s.setWords x y).minR = s.minR := (rfl)
@[simp] theorem State.setWords_minG (x y : Word) : (s.setWords x y).minG = s.minG := (rfl)
@[simp] theorem State.setWords_minB (x y : Word) : (s.setWords x y).minB = s.minB := (rfl)
@[simp] theorem State.setWords_maxR (x y : Word) : (s.setWords x y).maxR = s.maxR := (rfl)
@[simp] theorem State.setWords_maxG (x y : Word) : (s.setWords x y).maxG = s.maxG := (rfl)
@[simp] theorem State.setWords_maxB (x y : Word) : (s.setWords x y).maxB = s.maxB := (rfl)
@[simp] theorem State.setWords_insR (x y : Word) : (s.setWords x y).insR = s.insR := (rfl)
@[simp] theorem State.setWords_insG (x y : Word) : (s.setWords x y).insG = s.insG := (rfl)
@[simp] theorem State.setWords_insB (x y : Word) : (s.setWords x y).insB = s.insB := (rfl)
@[simp] theorem State.setWords_c0 (x y : Word) : (s.setWords x y).c0 = s.c0 := (rfl)
@[simp] theorem State.setWords_c1 (x y : Word) : (s.setWords x y).c1 = s.c1 := (rfl)
@[simp] theorem State.setWords_pal (x y : Word) : (s.setWords x y).pal = s.pal := (rfl)
@[simp] theorem State.setWords_idx (x y : Word) : (s.setWords x y).idx = s.idx := (rfl)
@[simp] theorem State.setWords_w0 (x y : Word) : (s.setWords x y).w0 = x := (rfl)
@[simp] theorem State.setWords_w1 (x y : Word) : (s.setWords x y).w1 = y := (rfl)
@[simp] theorem State.setWords_src (x y : Word) : (s.setWords x y).src = s.src := (rfl)
@[simp] theorem State.setWords_dst (x y : Word) : (s.setWords x y).dst = s.dst := (rfl)
@[simp] theorem State.setWords_cfg (x y : Word) : (s.setWords x y).cfg = s.cfg := (rfl)
@[simp] theorem State.setWords_script (x y : Word) : (s.setWords x y).script = s.script := (rfl)
@[simp] theorem State.setWords_hostData (x y : Word) : (s.setWords x y).hostData = s.hostData := (rfl)
@[simp] theorem State.setWords_packOut (x y : Word) : (s.setWords x y).packOut = s.packOut := (rfl)
@[simp] theorem State.setWords_unpackOut (x y : Word) : (s.setWords x y).unpackOut = s.unpackOut := (rfl)

/-! ### setWidth -/

@[simp] theorem State.setWidth_width (w : BitVec 16) : (s.setWidth w).width = w := (rfl)
@[simp] theorem State.setWidth_height (w : BitVec 16) : (s.setWidth w).height = s.height := (rfl)
@[simp] theorem State.setWidth_state (w : BitVec 16) : (s.setWidth w).state = s.state := (rfl)
@[simp] theorem State.setWidth_phase (w : BitVec 16) : (s.setWidth w).phase = s.phase := (rfl)
@[simp] theorem State.setWidth_degen (w : BitVec 16) : (s.setWidth w).degen = s.degen := (rfl)
@[simp] theorem State.setWidth_cause (w : BitVec 16) : (s.setWidth w).cause = s.cause := (rfl)
@[simp] theorem State.setWidth_cnt (w : BitVec 16) : (s.setWidth w).cnt = s.cnt := (rfl)
@[simp] theorem State.setWidth_pix (w : BitVec 16) : (s.setWidth w).pix = s.pix := (rfl)
@[simp] theorem State.setWidth_minR (w : BitVec 16) : (s.setWidth w).minR = s.minR := (rfl)
@[simp] theorem State.setWidth_minG (w : BitVec 16) : (s.setWidth w).minG = s.minG := (rfl)
@[simp] theorem State.setWidth_minB (w : BitVec 16) : (s.setWidth w).minB = s.minB := (rfl)
@[simp] theorem State.setWidth_maxR (w : BitVec 16) : (s.setWidth w).maxR = s.maxR := (rfl)
@[simp] theorem State.setWidth_maxG (w : BitVec 16) : (s.setWidth w).maxG = s.maxG := (rfl)
@[simp] theorem State.setWidth_maxB (w : BitVec 16) : (s.setWidth w).maxB = s.maxB := (rfl)
@[simp] theorem State.setWidth_insR (w : BitVec 16) : (s.setWidth w).insR = s.insR := (rfl)
@[simp] theorem State.setWidth_insG (w : BitVec 16) : (s.setWidth w).insG = s.insG := (rfl)
@[simp] theorem State.setWidth_insB (w : BitVec 16) : (s.setWidth w).insB = s.insB := (rfl)
@[simp] theorem State.setWidth_c0 (w : BitVec 16) : (s.setWidth w).c0 = s.c0 := (rfl)
@[simp] theorem State.setWidth_c1 (w : BitVec 16) : (s.setWidth w).c1 = s.c1 := (rfl)
@[simp] theorem State.setWidth_pal (w : BitVec 16) : (s.setWidth w).pal = s.pal := (rfl)
@[simp] theorem State.setWidth_idx (w : BitVec 16) : (s.setWidth w).idx = s.idx := (rfl)
@[simp] theorem State.setWidth_w0 (w : BitVec 16) : (s.setWidth w).w0 = s.w0 := (rfl)
@[simp] theorem State.setWidth_w1 (w : BitVec 16) : (s.setWidth w).w1 = s.w1 := (rfl)
@[simp] theorem State.setWidth_src (w : BitVec 16) : (s.setWidth w).src = s.src := (rfl)
@[simp] theorem State.setWidth_dst (w : BitVec 16) : (s.setWidth w).dst = s.dst := (rfl)
@[simp] theorem State.setWidth_cfg (w : BitVec 16) : (s.setWidth w).cfg = s.cfg := (rfl)
@[simp] theorem State.setWidth_script (w : BitVec 16) : (s.setWidth w).script = s.script := (rfl)
@[simp] theorem State.setWidth_hostData (w : BitVec 16) : (s.setWidth w).hostData = s.hostData := (rfl)
@[simp] theorem State.setWidth_packOut (w : BitVec 16) : (s.setWidth w).packOut = s.packOut := (rfl)
@[simp] theorem State.setWidth_unpackOut (w : BitVec 16) : (s.setWidth w).unpackOut = s.unpackOut := (rfl)

/-! ### setHeight -/

@[simp] theorem State.setHeight_width (h : BitVec 16) : (s.setHeight h).width = s.width := (rfl)
@[simp] theorem State.setHeight_height (h : BitVec 16) : (s.setHeight h).height = h := (rfl)
@[simp] theorem State.setHeight_state (h : BitVec 16) : (s.setHeight h).state = s.state := (rfl)
@[simp] theorem State.setHeight_phase (h : BitVec 16) : (s.setHeight h).phase = s.phase := (rfl)
@[simp] theorem State.setHeight_degen (h : BitVec 16) : (s.setHeight h).degen = s.degen := (rfl)
@[simp] theorem State.setHeight_cause (h : BitVec 16) : (s.setHeight h).cause = s.cause := (rfl)
@[simp] theorem State.setHeight_cnt (h : BitVec 16) : (s.setHeight h).cnt = s.cnt := (rfl)
@[simp] theorem State.setHeight_pix (h : BitVec 16) : (s.setHeight h).pix = s.pix := (rfl)
@[simp] theorem State.setHeight_minR (h : BitVec 16) : (s.setHeight h).minR = s.minR := (rfl)
@[simp] theorem State.setHeight_minG (h : BitVec 16) : (s.setHeight h).minG = s.minG := (rfl)
@[simp] theorem State.setHeight_minB (h : BitVec 16) : (s.setHeight h).minB = s.minB := (rfl)
@[simp] theorem State.setHeight_maxR (h : BitVec 16) : (s.setHeight h).maxR = s.maxR := (rfl)
@[simp] theorem State.setHeight_maxG (h : BitVec 16) : (s.setHeight h).maxG = s.maxG := (rfl)
@[simp] theorem State.setHeight_maxB (h : BitVec 16) : (s.setHeight h).maxB = s.maxB := (rfl)
@[simp] theorem State.setHeight_insR (h : BitVec 16) : (s.setHeight h).insR = s.insR := (rfl)
@[simp] theorem State.setHeight_insG (h : BitVec 16) : (s.setHeight h).insG = s.insG := (rfl)
@[simp] theorem State.setHeight_insB (h : BitVec 16) : (s.setHeight h).insB = s.insB := (rfl)
@[simp] theorem State.setHeight_c0 (h : BitVec 16) : (s.setHeight h).c0 = s.c0 := (rfl)
@[simp] theorem State.setHeight_c1 (h : BitVec 16) : (s.setHeight h).c1 = s.c1 := (rfl)
@[simp] theorem State.setHeight_pal (h : BitVec 16) : (s.setHeight h).pal = s.pal := (rfl)
@[simp] theorem State.setHeight_idx (h : BitVec 16) : (s.setHeight h).idx = s.idx := (rfl)
@[simp] theorem State.setHeight_w0 (h : BitVec 16) : (s.setHeight h).w0 = s.w0 := (rfl)
@[simp] theorem State.setHeight_w1 (h : BitVec 16) : (s.setHeight h).w1 = s.w1 := (rfl)
@[simp] theorem State.setHeight_src (h : BitVec 16) : (s.setHeight h).src = s.src := (rfl)
@[simp] theorem State.setHeight_dst (h : BitVec 16) : (s.setHeight h).dst = s.dst := (rfl)
@[simp] theorem State.setHeight_cfg (h : BitVec 16) : (s.setHeight h).cfg = s.cfg := (rfl)
@[simp] theorem State.setHeight_script (h : BitVec 16) : (s.setHeight h).script = s.script := (rfl)
@[simp] theorem State.setHeight_hostData (h : BitVec 16) : (s.setHeight h).hostData = s.hostData := (rfl)
@[simp] theorem State.setHeight_packOut (h : BitVec 16) : (s.setHeight h).packOut = s.packOut := (rfl)
@[simp] theorem State.setHeight_unpackOut (h : BitVec 16) : (s.setHeight h).unpackOut = s.unpackOut := (rfl)

/-! ### storeWord -/

@[simp] theorem State.storeWord_width (i : Nat) (w : Word) : (s.storeWord i w).width = s.width := (rfl)
@[simp] theorem State.storeWord_height (i : Nat) (w : Word) : (s.storeWord i w).height = s.height := (rfl)
@[simp] theorem State.storeWord_state (i : Nat) (w : Word) : (s.storeWord i w).state = s.state := (rfl)
@[simp] theorem State.storeWord_phase (i : Nat) (w : Word) : (s.storeWord i w).phase = s.phase := (rfl)
@[simp] theorem State.storeWord_degen (i : Nat) (w : Word) : (s.storeWord i w).degen = s.degen := (rfl)
@[simp] theorem State.storeWord_cause (i : Nat) (w : Word) : (s.storeWord i w).cause = s.cause := (rfl)
@[simp] theorem State.storeWord_cnt (i : Nat) (w : Word) : (s.storeWord i w).cnt = s.cnt := (rfl)
@[simp] theorem State.storeWord_pix (i : Nat) (w : Word) : (s.storeWord i w).pix = s.pix := (rfl)
@[simp] theorem State.storeWord_minR (i : Nat) (w : Word) : (s.storeWord i w).minR = s.minR := (rfl)
@[simp] theorem State.storeWord_minG (i : Nat) (w : Word) : (s.storeWord i w).minG = s.minG := (rfl)
@[simp] theorem State.storeWord_minB (i : Nat) (w : Word) : (s.storeWord i w).minB = s.minB := (rfl)
@[simp] theorem State.storeWord_maxR (i : Nat) (w : Word) : (s.storeWord i w).maxR = s.maxR := (rfl)
@[simp] theorem State.storeWord_maxG (i : Nat) (w : Word) : (s.storeWord i w).maxG = s.maxG := (rfl)
@[simp] theorem State.storeWord_maxB (i : Nat) (w : Word) : (s.storeWord i w).maxB = s.maxB := (rfl)
@[simp] theorem State.storeWord_insR (i : Nat) (w : Word) : (s.storeWord i w).insR = s.insR := (rfl)
@[simp] theorem State.storeWord_insG (i : Nat) (w : Word) : (s.storeWord i w).insG = s.insG := (rfl)
@[simp] theorem State.storeWord_insB (i : Nat) (w : Word) : (s.storeWord i w).insB = s.insB := (rfl)
@[simp] theorem State.storeWord_c0 (i : Nat) (w : Word) : (s.storeWord i w).c0 = s.c0 := (rfl)
@[simp] theorem State.storeWord_c1 (i : Nat) (w : Word) : (s.storeWord i w).c1 = s.c1 := (rfl)
@[simp] theorem State.storeWord_pal (i : Nat) (w : Word) : (s.storeWord i w).pal = s.pal := (rfl)
@[simp] theorem State.storeWord_idx (i : Nat) (w : Word) : (s.storeWord i w).idx = s.idx := (rfl)
@[simp] theorem State.storeWord_w0 (i : Nat) (w : Word) : (s.storeWord i w).w0 = s.w0 := (rfl)
@[simp] theorem State.storeWord_w1 (i : Nat) (w : Word) : (s.storeWord i w).w1 = s.w1 := (rfl)
@[simp] theorem State.storeWord_src (i : Nat) (w : Word) : (s.storeWord i w).src = s.src := (rfl)
@[simp] theorem State.storeWord_dst (i : Nat) (w : Word) : (s.storeWord i w).dst = s.dst.writeWord i w := (rfl)
@[simp] theorem State.storeWord_cfg (i : Nat) (w : Word) : (s.storeWord i w).cfg = s.cfg := (rfl)
@[simp] theorem State.storeWord_script (i : Nat) (w : Word) : (s.storeWord i w).script = s.script := (rfl)
@[simp] theorem State.storeWord_hostData (i : Nat) (w : Word) : (s.storeWord i w).hostData = s.hostData := (rfl)
@[simp] theorem State.storeWord_packOut (i : Nat) (w : Word) : (s.storeWord i w).packOut = s.packOut := (rfl)
@[simp] theorem State.storeWord_unpackOut (i : Nat) (w : Word) : (s.storeWord i w).unpackOut = s.unpackOut := (rfl)

/-! ### storeSrc -/

@[simp] theorem State.storeSrc_width (a : Nat) (b : Byte) : (s.storeSrc a b).width = s.width := (rfl)
@[simp] theorem State.storeSrc_height (a : Nat) (b : Byte) : (s.storeSrc a b).height = s.height := (rfl)
@[simp] theorem State.storeSrc_state (a : Nat) (b : Byte) : (s.storeSrc a b).state = s.state := (rfl)
@[simp] theorem State.storeSrc_phase (a : Nat) (b : Byte) : (s.storeSrc a b).phase = s.phase := (rfl)
@[simp] theorem State.storeSrc_degen (a : Nat) (b : Byte) : (s.storeSrc a b).degen = s.degen := (rfl)
@[simp] theorem State.storeSrc_cause (a : Nat) (b : Byte) : (s.storeSrc a b).cause = s.cause := (rfl)
@[simp] theorem State.storeSrc_cnt (a : Nat) (b : Byte) : (s.storeSrc a b).cnt = s.cnt := (rfl)
@[simp] theorem State.storeSrc_pix (a : Nat) (b : Byte) : (s.storeSrc a b).pix = s.pix := (rfl)
@[simp] theorem State.storeSrc_minR (a : Nat) (b : Byte) : (s.storeSrc a b).minR = s.minR := (rfl)
@[simp] theorem State.storeSrc_minG (a : Nat) (b : Byte) : (s.storeSrc a b).minG = s.minG := (rfl)
@[simp] theorem State.storeSrc_minB (a : Nat) (b : Byte) : (s.storeSrc a b).minB = s.minB := (rfl)
@[simp] theorem State.storeSrc_maxR (a : Nat) (b : Byte) : (s.storeSrc a b).maxR = s.maxR := (rfl)
@[simp] theorem State.storeSrc_maxG (a : Nat) (b : Byte) : (s.storeSrc a b).maxG = s.maxG := (rfl)
@[simp] theorem State.storeSrc_maxB (a : Nat) (b : Byte) : (s.storeSrc a b).maxB = s.maxB := (rfl)
@[simp] theorem State.storeSrc_insR (a : Nat) (b : Byte) : (s.storeSrc a b).insR = s.insR := (rfl)
@[simp] theorem State.storeSrc_insG (a : Nat) (b : Byte) : (s.storeSrc a b).insG = s.insG := (rfl)
@[simp] theorem State.storeSrc_insB (a : Nat) (b : Byte) : (s.storeSrc a b).insB = s.insB := (rfl)
@[simp] theorem State.storeSrc_c0 (a : Nat) (b : Byte) : (s.storeSrc a b).c0 = s.c0 := (rfl)
@[simp] theorem State.storeSrc_c1 (a : Nat) (b : Byte) : (s.storeSrc a b).c1 = s.c1 := (rfl)
@[simp] theorem State.storeSrc_pal (a : Nat) (b : Byte) : (s.storeSrc a b).pal = s.pal := (rfl)
@[simp] theorem State.storeSrc_idx (a : Nat) (b : Byte) : (s.storeSrc a b).idx = s.idx := (rfl)
@[simp] theorem State.storeSrc_w0 (a : Nat) (b : Byte) : (s.storeSrc a b).w0 = s.w0 := (rfl)
@[simp] theorem State.storeSrc_w1 (a : Nat) (b : Byte) : (s.storeSrc a b).w1 = s.w1 := (rfl)
@[simp] theorem State.storeSrc_src (a : Nat) (b : Byte) : (s.storeSrc a b).src = s.src.write a b := (rfl)
@[simp] theorem State.storeSrc_dst (a : Nat) (b : Byte) : (s.storeSrc a b).dst = s.dst := (rfl)
@[simp] theorem State.storeSrc_cfg (a : Nat) (b : Byte) : (s.storeSrc a b).cfg = s.cfg := (rfl)
@[simp] theorem State.storeSrc_script (a : Nat) (b : Byte) : (s.storeSrc a b).script = s.script := (rfl)
@[simp] theorem State.storeSrc_hostData (a : Nat) (b : Byte) : (s.storeSrc a b).hostData = s.hostData := (rfl)
@[simp] theorem State.storeSrc_packOut (a : Nat) (b : Byte) : (s.storeSrc a b).packOut = s.packOut := (rfl)
@[simp] theorem State.storeSrc_unpackOut (a : Nat) (b : Byte) : (s.storeSrc a b).unpackOut = s.unpackOut := (rfl)

/-! ### setScript -/

@[simp] theorem State.setScript_width (ts : List Turn) : (s.setScript ts).width = s.width := (rfl)
@[simp] theorem State.setScript_height (ts : List Turn) : (s.setScript ts).height = s.height := (rfl)
@[simp] theorem State.setScript_state (ts : List Turn) : (s.setScript ts).state = s.state := (rfl)
@[simp] theorem State.setScript_phase (ts : List Turn) : (s.setScript ts).phase = s.phase := (rfl)
@[simp] theorem State.setScript_degen (ts : List Turn) : (s.setScript ts).degen = s.degen := (rfl)
@[simp] theorem State.setScript_cause (ts : List Turn) : (s.setScript ts).cause = s.cause := (rfl)
@[simp] theorem State.setScript_cnt (ts : List Turn) : (s.setScript ts).cnt = s.cnt := (rfl)
@[simp] theorem State.setScript_pix (ts : List Turn) : (s.setScript ts).pix = s.pix := (rfl)
@[simp] theorem State.setScript_minR (ts : List Turn) : (s.setScript ts).minR = s.minR := (rfl)
@[simp] theorem State.setScript_minG (ts : List Turn) : (s.setScript ts).minG = s.minG := (rfl)
@[simp] theorem State.setScript_minB (ts : List Turn) : (s.setScript ts).minB = s.minB := (rfl)
@[simp] theorem State.setScript_maxR (ts : List Turn) : (s.setScript ts).maxR = s.maxR := (rfl)
@[simp] theorem State.setScript_maxG (ts : List Turn) : (s.setScript ts).maxG = s.maxG := (rfl)
@[simp] theorem State.setScript_maxB (ts : List Turn) : (s.setScript ts).maxB = s.maxB := (rfl)
@[simp] theorem State.setScript_insR (ts : List Turn) : (s.setScript ts).insR = s.insR := (rfl)
@[simp] theorem State.setScript_insG (ts : List Turn) : (s.setScript ts).insG = s.insG := (rfl)
@[simp] theorem State.setScript_insB (ts : List Turn) : (s.setScript ts).insB = s.insB := (rfl)
@[simp] theorem State.setScript_c0 (ts : List Turn) : (s.setScript ts).c0 = s.c0 := (rfl)
@[simp] theorem State.setScript_c1 (ts : List Turn) : (s.setScript ts).c1 = s.c1 := (rfl)
@[simp] theorem State.setScript_pal (ts : List Turn) : (s.setScript ts).pal = s.pal := (rfl)
@[simp] theorem State.setScript_idx (ts : List Turn) : (s.setScript ts).idx = s.idx := (rfl)
@[simp] theorem State.setScript_w0 (ts : List Turn) : (s.setScript ts).w0 = s.w0 := (rfl)
@[simp] theorem State.setScript_w1 (ts : List Turn) : (s.setScript ts).w1 = s.w1 := (rfl)
@[simp] theorem State.setScript_src (ts : List Turn) : (s.setScript ts).src = s.src := (rfl)
@[simp] theorem State.setScript_dst (ts : List Turn) : (s.setScript ts).dst = s.dst := (rfl)
@[simp] theorem State.setScript_cfg (ts : List Turn) : (s.setScript ts).cfg = s.cfg := (rfl)
@[simp] theorem State.setScript_script (ts : List Turn) : (s.setScript ts).script = ts := (rfl)
@[simp] theorem State.setScript_hostData (ts : List Turn) : (s.setScript ts).hostData = s.hostData := (rfl)
@[simp] theorem State.setScript_packOut (ts : List Turn) : (s.setScript ts).packOut = s.packOut := (rfl)
@[simp] theorem State.setScript_unpackOut (ts : List Turn) : (s.setScript ts).unpackOut = s.unpackOut := (rfl)

/-! ### setHostData -/

@[simp] theorem State.setHostData_width (w : Word) : (s.setHostData w).width = s.width := (rfl)
@[simp] theorem State.setHostData_height (w : Word) : (s.setHostData w).height = s.height := (rfl)
@[simp] theorem State.setHostData_state (w : Word) : (s.setHostData w).state = s.state := (rfl)
@[simp] theorem State.setHostData_phase (w : Word) : (s.setHostData w).phase = s.phase := (rfl)
@[simp] theorem State.setHostData_degen (w : Word) : (s.setHostData w).degen = s.degen := (rfl)
@[simp] theorem State.setHostData_cause (w : Word) : (s.setHostData w).cause = s.cause := (rfl)
@[simp] theorem State.setHostData_cnt (w : Word) : (s.setHostData w).cnt = s.cnt := (rfl)
@[simp] theorem State.setHostData_pix (w : Word) : (s.setHostData w).pix = s.pix := (rfl)
@[simp] theorem State.setHostData_minR (w : Word) : (s.setHostData w).minR = s.minR := (rfl)
@[simp] theorem State.setHostData_minG (w : Word) : (s.setHostData w).minG = s.minG := (rfl)
@[simp] theorem State.setHostData_minB (w : Word) : (s.setHostData w).minB = s.minB := (rfl)
@[simp] theorem State.setHostData_maxR (w : Word) : (s.setHostData w).maxR = s.maxR := (rfl)
@[simp] theorem State.setHostData_maxG (w : Word) : (s.setHostData w).maxG = s.maxG := (rfl)
@[simp] theorem State.setHostData_maxB (w : Word) : (s.setHostData w).maxB = s.maxB := (rfl)
@[simp] theorem State.setHostData_insR (w : Word) : (s.setHostData w).insR = s.insR := (rfl)
@[simp] theorem State.setHostData_insG (w : Word) : (s.setHostData w).insG = s.insG := (rfl)
@[simp] theorem State.setHostData_insB (w : Word) : (s.setHostData w).insB = s.insB := (rfl)
@[simp] theorem State.setHostData_c0 (w : Word) : (s.setHostData w).c0 = s.c0 := (rfl)
@[simp] theorem State.setHostData_c1 (w : Word) : (s.setHostData w).c1 = s.c1 := (rfl)
@[simp] theorem State.setHostData_pal (w : Word) : (s.setHostData w).pal = s.pal := (rfl)
@[simp] theorem State.setHostData_idx (w : Word) : (s.setHostData w).idx = s.idx := (rfl)
@[simp] theorem State.setHostData_w0 (w : Word) : (s.setHostData w).w0 = s.w0 := (rfl)
@[simp] theorem State.setHostData_w1 (w : Word) : (s.setHostData w).w1 = s.w1 := (rfl)
@[simp] theorem State.setHostData_src (w : Word) : (s.setHostData w).src = s.src := (rfl)
@[simp] theorem State.setHostData_dst (w : Word) : (s.setHostData w).dst = s.dst := (rfl)
@[simp] theorem State.setHostData_cfg (w : Word) : (s.setHostData w).cfg = s.cfg := (rfl)
@[simp] theorem State.setHostData_script (w : Word) : (s.setHostData w).script = s.script := (rfl)
@[simp] theorem State.setHostData_hostData (w : Word) : (s.setHostData w).hostData = w := (rfl)
@[simp] theorem State.setHostData_packOut (w : Word) : (s.setHostData w).packOut = s.packOut := (rfl)
@[simp] theorem State.setHostData_unpackOut (w : Word) : (s.setHostData w).unpackOut = s.unpackOut := (rfl)

/-! ### setPackOut -/

@[simp] theorem State.setPackOut_width (h : Half) : (s.setPackOut h).width = s.width := (rfl)
@[simp] theorem State.setPackOut_height (h : Half) : (s.setPackOut h).height = s.height := (rfl)
@[simp] theorem State.setPackOut_state (h : Half) : (s.setPackOut h).state = s.state := (rfl)
@[simp] theorem State.setPackOut_phase (h : Half) : (s.setPackOut h).phase = s.phase := (rfl)
@[simp] theorem State.setPackOut_degen (h : Half) : (s.setPackOut h).degen = s.degen := (rfl)
@[simp] theorem State.setPackOut_cause (h : Half) : (s.setPackOut h).cause = s.cause := (rfl)
@[simp] theorem State.setPackOut_cnt (h : Half) : (s.setPackOut h).cnt = s.cnt := (rfl)
@[simp] theorem State.setPackOut_pix (h : Half) : (s.setPackOut h).pix = s.pix := (rfl)
@[simp] theorem State.setPackOut_minR (h : Half) : (s.setPackOut h).minR = s.minR := (rfl)
@[simp] theorem State.setPackOut_minG (h : Half) : (s.setPackOut h).minG = s.minG := (rfl)
@[simp] theorem State.setPackOut_minB (h : Half) : (s.setPackOut h).minB = s.minB := (rfl)
@[simp] theorem State.setPackOut_maxR (h : Half) : (s.setPackOut h).maxR = s.maxR := (rfl)
@[simp] theorem State.setPackOut_maxG (h : Half) : (s.setPackOut h).maxG = s.maxG := (rfl)
@[simp] theorem State.setPackOut_maxB (h : Half) : (s.setPackOut h).maxB = s.maxB := (rfl)
@[simp] theorem State.setPackOut_insR (h : Half) : (s.setPackOut h).insR = s.insR := (rfl)
@[simp] theorem State.setPackOut_insG (h : Half) : (s.setPackOut h).insG = s.insG := (rfl)
@[simp] theorem State.setPackOut_insB (h : Half) : (s.setPackOut h).insB = s.insB := (rfl)
@[simp] theorem State.setPackOut_c0 (h : Half) : (s.setPackOut h).c0 = s.c0 := (rfl)
@[simp] theorem State.setPackOut_c1 (h : Half) : (s.setPackOut h).c1 = s.c1 := (rfl)
@[simp] theorem State.setPackOut_pal (h : Half) : (s.setPackOut h).pal = s.pal := (rfl)
@[simp] theorem State.setPackOut_idx (h : Half) : (s.setPackOut h).idx = s.idx := (rfl)
@[simp] theorem State.setPackOut_w0 (h : Half) : (s.setPackOut h).w0 = s.w0 := (rfl)
@[simp] theorem State.setPackOut_w1 (h : Half) : (s.setPackOut h).w1 = s.w1 := (rfl)
@[simp] theorem State.setPackOut_src (h : Half) : (s.setPackOut h).src = s.src := (rfl)
@[simp] theorem State.setPackOut_dst (h : Half) : (s.setPackOut h).dst = s.dst := (rfl)
@[simp] theorem State.setPackOut_cfg (h : Half) : (s.setPackOut h).cfg = s.cfg := (rfl)
@[simp] theorem State.setPackOut_script (h : Half) : (s.setPackOut h).script = s.script := (rfl)
@[simp] theorem State.setPackOut_hostData (h : Half) : (s.setPackOut h).hostData = s.hostData := (rfl)
@[simp] theorem State.setPackOut_packOut (h : Half) : (s.setPackOut h).packOut = h := (rfl)
@[simp] theorem State.setPackOut_unpackOut (h : Half) : (s.setPackOut h).unpackOut = s.unpackOut := (rfl)

/-! ### setUnpackOut -/

@[simp] theorem State.setUnpackOut_width (b : Byte) : (s.setUnpackOut b).width = s.width := (rfl)
@[simp] theorem State.setUnpackOut_height (b : Byte) : (s.setUnpackOut b).height = s.height := (rfl)
@[simp] theorem State.setUnpackOut_state (b : Byte) : (s.setUnpackOut b).state = s.state := (rfl)
@[simp] theorem State.setUnpackOut_phase (b : Byte) : (s.setUnpackOut b).phase = s.phase := (rfl)
@[simp] theorem State.setUnpackOut_degen (b : Byte) : (s.setUnpackOut b).degen = s.degen := (rfl)
@[simp] theorem State.setUnpackOut_cause (b : Byte) : (s.setUnpackOut b).cause = s.cause := (rfl)
@[simp] theorem State.setUnpackOut_cnt (b : Byte) : (s.setUnpackOut b).cnt = s.cnt := (rfl)
@[simp] theorem State.setUnpackOut_pix (b : Byte) : (s.setUnpackOut b).pix = s.pix := (rfl)
@[simp] theorem State.setUnpackOut_minR (b : Byte) : (s.setUnpackOut b).minR = s.minR := (rfl)
@[simp] theorem State.setUnpackOut_minG (b : Byte) : (s.setUnpackOut b).minG = s.minG := (rfl)
@[simp] theorem State.setUnpackOut_minB (b : Byte) : (s.setUnpackOut b).minB = s.minB := (rfl)
@[simp] theorem State.setUnpackOut_maxR (b : Byte) : (s.setUnpackOut b).maxR = s.maxR := (rfl)
@[simp] theorem State.setUnpackOut_maxG (b : Byte) : (s.setUnpackOut b).maxG = s.maxG := (rfl)
@[simp] theorem State.setUnpackOut_maxB (b : Byte) : (s.setUnpackOut b).maxB = s.maxB := (rfl)
@[simp] theorem State.setUnpackOut_insR (b : Byte) : (s.setUnpackOut b).insR = s.insR := (rfl)
@[simp] theorem State.setUnpackOut_insG (b : Byte) : (s.setUnpackOut b).insG = s.insG := (rfl)
@[simp] theorem State.setUnpackOut_insB (b : Byte) : (s.setUnpackOut b).insB = s.insB := (rfl)
@[simp] theorem State.setUnpackOut_c0 (b : Byte) : (s.setUnpackOut b).c0 = s.c0 := (rfl)
@[simp] theorem State.setUnpackOut_c1 (b : Byte) : (s.setUnpackOut b).c1 = s.c1 := (rfl)
@[simp] theorem State.setUnpackOut_pal (b : Byte) : (s.setUnpackOut b).pal = s.pal := (rfl)
@[simp] theorem State.setUnpackOut_idx (b : Byte) : (s.setUnpackOut b).idx = s.idx := (rfl)
@[simp] theorem State.setUnpackOut_w0 (b : Byte) : (s.setUnpackOut b).w0 = s.w0 := (rfl)
@[simp] theorem State.setUnpackOut_w1 (b : Byte) : (s.setUnpackOut b).w1 = s.w1 := (rfl)
@[simp] theorem State.setUnpackOut_src (b : Byte) : (s.setUnpackOut b).src = s.src := (rfl)
@[simp] theorem State.setUnpackOut_dst (b : Byte) : (s.setUnpackOut b).dst = s.dst := (rfl)
@[simp] theorem State.setUnpackOut_cfg (b : Byte) : (s.setUnpackOut b).cfg = s.cfg := (rfl)
@[simp] theorem State.setUnpackOut_script (b : Byte) : (s.setUnpackOut b).script = s.script := (rfl)
@[simp] theorem State.setUnpackOut_hostData (b : Byte) : (s.setUnpackOut b).hostData = s.hostData := (rfl)
@[simp] theorem State.setUnpackOut_packOut (b : Byte) : (s.setUnpackOut b).packOut = s.packOut := (rfl)
@[simp] theorem State.setUnpackOut_unpackOut (b : Byte) : (s.setUnpackOut b).unpackOut = b := (rfl)

/-! ### raise -/

@[simp] theorem State.raise_width (c : Cause) : (s.raise c).width = s.width := (rfl)
@[simp] theorem State.raise_height (c : Cause) : (s.raise c).height = s.height := (rfl)
@[simp] theorem State.raise_state (c : Cause) : (s.raise c).state = .doneErr := (rfl)
@[simp] theorem State.raise_phase (c : Cause) : (s.raise c).phase = Phase.idle := (rfl)
@[simp] theorem State.raise_degen (c : Cause) : (s.raise c).degen = s.degen := (rfl)
@[simp] theorem State.raise_cause (c : Cause) : (s.raise c).cause = c.code := (rfl)
@[simp] theorem State.raise_cnt (c : Cause) : (s.raise c).cnt = s.cnt := (rfl)
@[simp] theorem State.raise_pix (c : Cause) : (s.raise c).pix = s.pix := (rfl)
@[simp] theorem State.raise_minR (c : Cause) : (s.raise c).minR = s.minR := (rfl)
@[simp] theorem State.raise_minG (c : Cause) : (s.raise c).minG = s.minG := (rfl)
@[simp] theorem State.raise_minB (c : Cause) : (s.raise c).minB = s.minB := (rfl)
@[simp] theorem State.raise_maxR (c : Cause) : (s.raise c).maxR = s.maxR := (rfl)
@[simp] theorem State.raise_maxG (c : Cause) : (s.raise c).maxG = s.maxG := (rfl)
@[simp] theorem State.raise_maxB (c : Cause) : (s.raise c).maxB = s.maxB := (rfl)
@[simp] theorem State.raise_insR (c : Cause) : (s.raise c).insR = s.insR := (rfl)
@[simp] theorem State.raise_insG (c : Cause) : (s.raise c).insG = s.insG := (rfl)
@[simp] theorem State.raise_insB (c : Cause) : (s.raise c).insB = s.insB := (rfl)
@[simp] theorem State.raise_c0 (c : Cause) : (s.raise c).c0 = s.c0 := (rfl)
@[simp] theorem State.raise_c1 (c : Cause) : (s.raise c).c1 = s.c1 := (rfl)
@[simp] theorem State.raise_pal (c : Cause) : (s.raise c).pal = s.pal := (rfl)
@[simp] theorem State.raise_idx (c : Cause) : (s.raise c).idx = s.idx := (rfl)
@[simp] theorem State.raise_w0 (c : Cause) : (s.raise c).w0 = s.w0 := (rfl)
@[simp] theorem State.raise_w1 (c : Cause) : (s.raise c).w1 = s.w1 := (rfl)
@[simp] theorem State.raise_src (c : Cause) : (s.raise c).src = s.src := (rfl)
@[simp] theorem State.raise_dst (c : Cause) : (s.raise c).dst = s.dst := (rfl)
@[simp] theorem State.raise_cfg (c : Cause) : (s.raise c).cfg = s.cfg := (rfl)
@[simp] theorem State.raise_script (c : Cause) : (s.raise c).script = s.script := (rfl)
@[simp] theorem State.raise_hostData (c : Cause) : (s.raise c).hostData = s.hostData := (rfl)
@[simp] theorem State.raise_packOut (c : Cause) : (s.raise c).packOut = s.packOut := (rfl)
@[simp] theorem State.raise_unpackOut (c : Cause) : (s.raise c).unpackOut = s.unpackOut := (rfl)

/-! ### acknowledge -/

@[simp] theorem State.acknowledge_width : (s.acknowledge).width = s.width := (rfl)
@[simp] theorem State.acknowledge_height : (s.acknowledge).height = s.height := (rfl)
@[simp] theorem State.acknowledge_state : (s.acknowledge).state = .idle := (rfl)
@[simp] theorem State.acknowledge_phase : (s.acknowledge).phase = s.phase := (rfl)
@[simp] theorem State.acknowledge_degen : (s.acknowledge).degen = s.degen := (rfl)
@[simp] theorem State.acknowledge_cause : (s.acknowledge).cause = 0#4 := (rfl)
@[simp] theorem State.acknowledge_cnt : (s.acknowledge).cnt = s.cnt := (rfl)
@[simp] theorem State.acknowledge_pix : (s.acknowledge).pix = s.pix := (rfl)
@[simp] theorem State.acknowledge_minR : (s.acknowledge).minR = s.minR := (rfl)
@[simp] theorem State.acknowledge_minG : (s.acknowledge).minG = s.minG := (rfl)
@[simp] theorem State.acknowledge_minB : (s.acknowledge).minB = s.minB := (rfl)
@[simp] theorem State.acknowledge_maxR : (s.acknowledge).maxR = s.maxR := (rfl)
@[simp] theorem State.acknowledge_maxG : (s.acknowledge).maxG = s.maxG := (rfl)
@[simp] theorem State.acknowledge_maxB : (s.acknowledge).maxB = s.maxB := (rfl)
@[simp] theorem State.acknowledge_insR : (s.acknowledge).insR = s.insR := (rfl)
@[simp] theorem State.acknowledge_insG : (s.acknowledge).insG = s.insG := (rfl)
@[simp] theorem State.acknowledge_insB : (s.acknowledge).insB = s.insB := (rfl)
@[simp] theorem State.acknowledge_c0 : (s.acknowledge).c0 = s.c0 := (rfl)
@[simp] theorem State.acknowledge_c1 : (s.acknowledge).c1 = s.c1 := (rfl)
@[simp] theorem State.acknowledge_pal : (s.acknowledge).pal = s.pal := (rfl)
@[simp] theorem State.acknowledge_idx : (s.acknowledge).idx = s.idx := (rfl)
@[simp] theorem State.acknowledge_w0 : (s.acknowledge).w0 = s.w0 := (rfl)
@[simp] theorem State.acknowledge_w1 : (s.acknowledge).w1 = s.w1 := (rfl)
@[simp] theorem State.acknowledge_src : (s.acknowledge).src = s.src := (rfl)
@[simp] theorem State.acknowledge_dst : (s.acknowledge).dst = s.dst := (rfl)
@[simp] theorem State.acknowledge_cfg : (s.acknowledge).cfg = s.cfg := (rfl)
@[simp] theorem State.acknowledge_script : (s.acknowledge).script = s.script := (rfl)
@[simp] theorem State.acknowledge_hostData : (s.acknowledge).hostData = s.hostData := (rfl)
@[simp] theorem State.acknowledge_packOut : (s.acknowledge).packOut = s.packOut := (rfl)
@[simp] theorem State.acknowledge_unpackOut : (s.acknowledge).unpackOut = s.unpackOut := (rfl)

/-! ### resetRegisters -/

@[simp] theorem State.resetRegisters_width : s.resetRegisters.width = State.reset.width := (rfl)
@[simp] theorem State.resetRegisters_height : s.resetRegisters.height = State.reset.height := (rfl)
@[simp] theorem State.resetRegisters_state : s.resetRegisters.state = State.reset.state := (rfl)
@[simp] theorem State.resetRegisters_phase : s.resetRegisters.phase = State.reset.phase := (rfl)
@[simp] theorem State.resetRegisters_degen : s.resetRegisters.degen = State.reset.degen := (rfl)
@[simp] theorem State.resetRegisters_cause : s.resetRegisters.cause = State.reset.cause := (rfl)
@[simp] theorem State.resetRegisters_cnt : s.resetRegisters.cnt = State.reset.cnt := (rfl)
@[simp] theorem State.resetRegisters_pix : s.resetRegisters.pix = State.reset.pix := (rfl)
@[simp] theorem State.resetRegisters_minR : s.resetRegisters.minR = State.reset.minR := (rfl)
@[simp] theorem State.resetRegisters_minG : s.resetRegisters.minG = State.reset.minG := (rfl)
@[simp] theorem State.resetRegisters_minB : s.resetRegisters.minB = State.reset.minB := (rfl)
@[simp] theorem State.resetRegisters_maxR : s.resetRegisters.maxR = State.reset.maxR := (rfl)
@[simp] theorem State.resetRegisters_maxG : s.resetRegisters.maxG = State.reset.maxG := (rfl)
@[simp] theorem State.resetRegisters_maxB : s.resetRegisters.maxB = State.reset.maxB := (rfl)
@[simp] theorem State.resetRegisters_insR : s.resetRegisters.insR = State.reset.insR := (rfl)
@[simp] theorem State.resetRegisters_insG : s.resetRegisters.insG = State.reset.insG := (rfl)
@[simp] theorem State.resetRegisters_insB : s.resetRegisters.insB = State.reset.insB := (rfl)
@[simp] theorem State.resetRegisters_c0 : s.resetRegisters.c0 = State.reset.c0 := (rfl)
@[simp] theorem State.resetRegisters_c1 : s.resetRegisters.c1 = State.reset.c1 := (rfl)
@[simp] theorem State.resetRegisters_pal : s.resetRegisters.pal = State.reset.pal := (rfl)
@[simp] theorem State.resetRegisters_idx : s.resetRegisters.idx = State.reset.idx := (rfl)
@[simp] theorem State.resetRegisters_w0 : s.resetRegisters.w0 = State.reset.w0 := (rfl)
@[simp] theorem State.resetRegisters_w1 : s.resetRegisters.w1 = State.reset.w1 := (rfl)
@[simp] theorem State.resetRegisters_src : s.resetRegisters.src = s.src := (rfl)
@[simp] theorem State.resetRegisters_dst : s.resetRegisters.dst = s.dst := (rfl)
@[simp] theorem State.resetRegisters_cfg : s.resetRegisters.cfg = s.cfg := (rfl)
@[simp] theorem State.resetRegisters_script : s.resetRegisters.script = s.script := (rfl)
@[simp] theorem State.resetRegisters_hostData : s.resetRegisters.hostData = s.hostData := (rfl)
@[simp] theorem State.resetRegisters_packOut : s.resetRegisters.packOut = s.packOut := (rfl)
@[simp] theorem State.resetRegisters_unpackOut : s.resetRegisters.unpackOut = s.unpackOut := (rfl)

/-! ### The reset state (10_state.md R34) -/

@[simp] theorem State.reset_width : State.reset.width = 0#16 := (rfl)
@[simp] theorem State.reset_height : State.reset.height = 0#16 := (rfl)
@[simp] theorem State.reset_state : State.reset.state = .idle := (rfl)
@[simp] theorem State.reset_phase : State.reset.phase = 0#4 := (rfl)
@[simp] theorem State.reset_degen : State.reset.degen = false := (rfl)
@[simp] theorem State.reset_cause : State.reset.cause = 0#4 := (rfl)
@[simp] theorem State.reset_cnt : State.reset.cnt = 0#29 := (rfl)
@[simp] theorem State.reset_src : State.reset.src = [] := (rfl)
@[simp] theorem State.reset_dst : State.reset.dst = [] := (rfl)
@[simp] theorem State.reset_script : State.reset.script = [] := (rfl)

end Sys2Proof.Machine
end

