-- ==== Sys2Proof/Laws/Derived.lean ====
section
/-! SUPPORT. The derived values (10_state.md R29) depend on `WIDTH`, `HEIGHT`, `CNT` and what they name, and on nothing else:
one congruence per derived value, and its form for the updates every step makes (taking a turn, setting `PHASE`). -/

namespace Sys2Proof.Machine

variable {s t : State}

theorem State.blocksPerRow_congr (hw : t.width = s.width) : t.blocksPerRow = s.blocksPerRow := by
  simp only [State.blocksPerRow, hw]

theorem State.blockCount_congr (hw : t.width = s.width) (hh : t.height = s.height) : t.blockCount = s.blockCount := by
  simp only [State.blockCount, State.blocksPerRow, State.blockRows, hw, hh]

theorem State.fillWords_congr (hw : t.width = s.width) (hh : t.height = s.height) : t.fillWords = s.fillWords := by
  simp only [State.fillWords, hw, hh]

theorem State.blockX_congr (hw : t.width = s.width) (hc : t.cnt = s.cnt) : t.blockX = s.blockX := by
  unfold State.blockX
  rw [State.blocksPerRow_congr hw, hw, hc]

theorem State.blockY_congr (hw : t.width = s.width) (hc : t.cnt = s.cnt) : t.blockY = s.blockY := by
  unfold State.blockY
  rw [State.blocksPerRow_congr hw, hw, hc]

theorem State.pixelIndex_congr (hw : t.width = s.width) (hc : t.cnt = s.cnt) (k : Nat) :
    t.pixelIndex k = s.pixelIndex k := by
  simp only [State.pixelIndex, State.blockX_congr hw hc, State.blockY_congr hw hc, hw]

theorem State.fetchedBlock_congr (hw : t.width = s.width) (hc : t.cnt = s.cnt) (hs : t.src = s.src) :
    t.fetchedBlock = s.fetchedBlock := by
  simp only [State.fetchedBlock, State.fetchedPixel, State.srcPixelWord, State.pixelIndex_congr hw hc, hs]

theorem State.blockBacked_congr (hw : t.width = s.width) (hc : t.cnt = s.cnt) (hg : t.cfg = s.cfg) :
    t.blockBacked = s.blockBacked := by
  simp only [State.blockBacked, State.pixelBacked, State.srcBacked, State.pixelIndex_congr hw hc, hg]

theorem State.maxEndpoint_congr (hr : t.maxR = s.maxR) (hg : t.maxG = s.maxG) (hb : t.maxB = s.maxB)
    (ir : t.insR = s.insR) (ig : t.insG = s.insG) (ib : t.insB = s.insB) : t.maxEndpoint = s.maxEndpoint := by
  simp only [State.maxEndpoint, hr, hg, hb, ir, ig, ib]

theorem State.minEndpoint_congr (hr : t.minR = s.minR) (hg : t.minG = s.minG) (hb : t.minB = s.minB)
    (ir : t.insR = s.insR) (ig : t.insG = s.insG) (ib : t.insB = s.insB) : t.minEndpoint = s.minEndpoint := by
  simp only [State.minEndpoint, hr, hg, hb, ir, ig, ib]

/-! ### Taking a turn -/

@[simp] theorem State.setScript_blocksPerRow (s : State) (ts : List Turn) :
    (s.setScript ts).blocksPerRow = s.blocksPerRow := (rfl)

@[simp] theorem State.setScript_blockCount (s : State) (ts : List Turn) :
    (s.setScript ts).blockCount = s.blockCount := (rfl)

@[simp] theorem State.setScript_fillWords (s : State) (ts : List Turn) :
    (s.setScript ts).fillWords = s.fillWords := (rfl)

@[simp] theorem State.setScript_fetchedBlock (s : State) (ts : List Turn) :
    (s.setScript ts).fetchedBlock = s.fetchedBlock := (rfl)

@[simp] theorem State.setScript_blockBacked (s : State) (ts : List Turn) :
    (s.setScript ts).blockBacked = s.blockBacked := (rfl)

@[simp] theorem State.setScript_maxEndpoint (s : State) (ts : List Turn) :
    (s.setScript ts).maxEndpoint = s.maxEndpoint := (rfl)

@[simp] theorem State.setScript_minEndpoint (s : State) (ts : List Turn) :
    (s.setScript ts).minEndpoint = s.minEndpoint := (rfl)

@[simp] theorem State.setScript_endpointSlot (s : State) (ts : List Turn) :
    (s.setScript ts).endpointSlot = s.endpointSlot := (rfl)

@[simp] theorem State.setScript_fillSlot (s : State) (ts : List Turn) :
    (s.setScript ts).fillSlot = s.fillSlot := (rfl)

@[simp] theorem State.setScript_badDimensions (s : State) (ts : List Turn) :
    (s.setScript ts).badDimensions = s.badDimensions := (rfl)

@[simp] theorem State.setScript_dstBacked (s : State) (ts : List Turn) (i : Nat) :
    (s.setScript ts).dstBacked i = s.dstBacked i := (rfl)

@[simp] theorem State.setScript_srcBacked (s : State) (ts : List Turn) (a : Nat) :
    (s.setScript ts).srcBacked a = s.srcBacked a := (rfl)

/-! ### Setting `PHASE` -/

@[simp] theorem State.goto_blockCount (s : State) (p : BitVec 4) : (s.goto p).blockCount = s.blockCount := (rfl)

@[simp] theorem State.goto_fillWords (s : State) (p : BitVec 4) : (s.goto p).fillWords = s.fillWords := (rfl)

@[simp] theorem State.goto_fetchedBlock (s : State) (p : BitVec 4) : (s.goto p).fetchedBlock = s.fetchedBlock := (rfl)

@[simp] theorem State.goto_maxEndpoint (s : State) (p : BitVec 4) : (s.goto p).maxEndpoint = s.maxEndpoint := (rfl)

@[simp] theorem State.goto_minEndpoint (s : State) (p : BitVec 4) : (s.goto p).minEndpoint = s.minEndpoint := (rfl)

@[simp] theorem State.goto_endpointSlot (s : State) (p : BitVec 4) : (s.goto p).endpointSlot = s.endpointSlot := (rfl)

/-! ### The tests, as facts on numbers -/

theorem State.badDimensions_iff (s : State) :
    s.badDimensions = true ↔ s.width.toNat % 4 ≠ 0 ∨ s.height.toNat % 4 ≠ 0 := by
  have key : ∀ w : BitVec 16, w.extractLsb' 0 2 ≠ 0#2 ↔ w.toNat % 4 ≠ 0 := by
    intro w
    rw [ne_eq, ← BitVec.toNat_inj, BitVec.extractLsb'_toNat]
    simp
  simp only [State.badDimensions, Bool.or_eq_true, decide_eq_true_eq, key]

theorem State.blocksPerRow_eq (s : State) : s.blocksPerRow = s.width.toNat / 4 := by
  rw [State.blocksPerRow, Nat.shiftRight_eq_div_pow]

/-- Inside the loop over the blocks the image has a block column. -/
theorem State.blocksPerRow_ne_zero {s : State} (h : s.cnt.toNat < s.blockCount) : s.blocksPerRow ≠ 0 := by
  intro hw
  rw [State.blockCount, hw, Nat.zero_mul] at h
  exact absurd h (Nat.not_lt_zero _)

theorem State.blockCount_eq (s : State) : s.blockCount = s.width.toNat / 4 * (s.height.toNat / 4) := by
  simp only [State.blockCount, State.blocksPerRow, State.blockRows, Nat.shiftRight_eq_div_pow]

theorem State.fillWords_eq (s : State) : s.fillWords = s.width.toNat * s.height.toNat / 8 := by
  simp only [State.fillWords, Nat.shiftRight_eq_div_pow]

/-- "`NBLK` .. 28 bits" (R29). -/
theorem State.blockCount_lt (s : State) : s.blockCount < 2 ^ 28 := by
  have hw := s.width.isLt
  have hh := s.height.isLt
  have h1 : s.width.toNat / 4 ≤ 2 ^ 14 - 1 := by omega
  have h2 : s.height.toNat / 4 ≤ 2 ^ 14 - 1 := by omega
  rw [State.blockCount_eq]
  calc s.width.toNat / 4 * (s.height.toNat / 4) ≤ (2 ^ 14 - 1) * (2 ^ 14 - 1) := Nat.mul_le_mul h1 h2
    _ < 2 ^ 28 := by norm_num

/-- "`NW` .. 29 bits" (R29). -/
theorem State.fillWords_lt (s : State) : s.fillWords < 2 ^ 29 := by
  have hw := s.width.isLt
  have hh := s.height.isLt
  have h : s.width.toNat * s.height.toNat ≤ (2 ^ 16 - 1) * (2 ^ 16 - 1) := Nat.mul_le_mul (by omega) (by omega)
  rw [State.fillWords_eq]
  omega

/-- `CNT + 1` does not wrap below its bound (R19: "cannot overflow 29 bits"). -/
theorem nextCount_toNat {c : BitVec 29} (h : c.toNat + 1 < 2 ^ 29) : (nextCount c).toNat = c.toNat + 1 := by
  rw [nextCount, if_pos h, BitVec.toNat_add]
  simp only [BitVec.toNat_ofNat]
  omega

/-! ### Backing, as facts on numbers (20_memory.md R54) -/

theorem State.dstBacked_iff (s : State) (i : Nat) : s.dstBacked i = true ↔ i < s.cfg.dstSize ∧ i < 2 ^ 29 := by
  unfold State.dstBacked
  rw [Bool.and_eq_true]
  exact and_congr decide_eq_true_iff decide_eq_true_iff

theorem State.srcBacked_iff (s : State) (a : Nat) : s.srcBacked a = true ↔ a < s.cfg.srcSize ∧ a < 2 ^ 34 := by
  unfold State.srcBacked
  rw [Bool.and_eq_true]
  exact and_congr decide_eq_true_iff decide_eq_true_iff

/-- The pixel index of R90, by row and column. -/
theorem State.pixelIndex_rowCol (s : State) {row col : Nat} (hc : col < 4) :
    s.pixelIndex (row * 4 + col) = (4 * s.blockY + row) * s.width.toNat + (4 * s.blockX + col) := by
  rw [State.pixelIndex, show (row * 4 + col) / 4 = row by omega, show (row * 4 + col) % 4 = col by omega]

/-- The place of block `CNT` where the image has a block column (R29). -/
theorem State.blockX_eq {s : State} (h : 4 ≤ s.width.toNat) :
    s.blockX = s.cnt.toNat % (s.width.toNat / 4) := by
  rw [State.blockX, s.blocksPerRow_eq, if_neg (by omega)]

theorem State.blockY_eq {s : State} (h : 4 ≤ s.width.toNat) :
    s.blockY = s.cnt.toNat / (s.width.toNat / 4) := by
  rw [State.blockY, s.blocksPerRow_eq, if_neg (by omega)]

/-- The pixel index of R90 where the image has a block column. -/
theorem State.pixelIndex_eq {s : State} (h : 4 ≤ s.width.toNat) {row col : Nat} (hc : col < 4) :
    s.pixelIndex (row * 4 + col) =
      (4 * (s.cnt.toNat / (s.width.toNat / 4)) + row) * s.width.toNat
        + (4 * (s.cnt.toNat % (s.width.toNat / 4)) + col) := by
  rw [s.pixelIndex_rowCol hc, State.blockX_eq h, State.blockY_eq h]

/-- Where it has none, the place is free but for its width (log 11). -/
theorem State.blockX_lt {s : State} (h : s.width.toNat < 4) : s.blockX < 2 ^ 14 := by
  rw [State.blockX, s.blocksPerRow_eq, if_pos (by omega)]
  exact BitVec.isLt _

theorem State.blockY_lt {s : State} (h : s.width.toNat < 4) : s.blockY < 2 ^ 14 := by
  rw [State.blockY, s.blocksPerRow_eq, if_pos (by omega)]
  exact BitVec.isLt _

theorem State.blockBacked_iff (s : State) :
    s.blockBacked = true ↔ ∀ row col, row < 4 → col < 4 →
      4 * s.pixelIndex (row * 4 + col) + 3 < s.cfg.srcSize ∧ 4 * s.pixelIndex (row * 4 + col) + 3 < 2 ^ 34 := by
  simp only [State.blockBacked, List.all_eq_true, List.mem_range, State.pixelBacked, State.srcBacked_iff]
  constructor
  · intro h row col hr hc
    exact h _ (by omega)
  · intro h k hk
    have := h (k / 4) (k % 4) (by omega) (by omega)
    rwa [show k / 4 * 4 + k % 4 = k by omega] at this

/-- Without a block column the sixteen pixels lie in the first 2^20 bytes, wherever the block is placed. -/
theorem State.blockBacked_of_noColumn {s : State} (h : s.width.toNat < 4) (hs : 2 ^ 20 ≤ s.cfg.srcSize) :
    s.blockBacked = true := by
  have hx := State.blockX_lt h
  have hy := State.blockY_lt h
  rw [State.blockBacked_iff]
  intro row col hr hc
  rw [s.pixelIndex_rowCol hc]
  have hm : (4 * s.blockY + row) * s.width.toNat ≤ 65535 * 3 := Nat.mul_le_mul (by omega) (by omega)
  omega

end Sys2Proof.Machine
end

