-- ==== Sys2Proof/Laws/Index.lean ====
section
/-! SUPPORT. The palette and the index assigner against the reference's definitions (42_palette.md, 43_index_assigner.md). -/

namespace Sys2Proof.Machine

/-! ### The search (R115, R117) -/

/-- `b` is the nearest of the entries below `n`, and the first of the nearest. -/
def FirstNearest (d : Nat → Nat) (n b : Nat) : Prop :=
  b < n ∧ (∀ i, i < n → d b ≤ d i) ∧ ∀ i, i < b → d b < d i

/-- One more entry is compared: it replaces the best only if it is strictly nearer. -/
theorem FirstNearest.next {d : Nat → Nat} {n b : Nat} (h : FirstNearest d n b) :
    FirstNearest d (n + 1) (if d n < d b then n else b) := by
  obtain ⟨h1, h2, h3⟩ := h
  split
  · rename_i hlt
    refine ⟨by omega, fun i hi => ?_, fun i hi => ?_⟩
    · rcases Nat.lt_succ_iff_lt_or_eq.mp hi with hi | rfl
      · have := h2 i hi; omega
      · omega
    · have := h2 i hi; omega
  · refine ⟨by omega, fun i hi => ?_, h3⟩
    rcases Nat.lt_succ_iff_lt_or_eq.mp hi with hi | rfl
    · exact h2 i hi
    · omega

/-- The search returns one of the four entries, the nearest, and the first of the nearest. -/
theorem nearestOf_spec (d : Nat → Nat) :
    nearestOf d < 4 ∧ (∀ i, i < 4 → d (nearestOf d) ≤ d i) ∧ ∀ i, i < nearestOf d → d (nearestOf d) < d i := by
  have h0 : FirstNearest d 1 0 :=
    ⟨by omega, fun i hi => by rw [Nat.lt_one_iff.mp hi], fun i hi => by omega⟩
  exact h0.next.next.next

/-- What the search returns is determined by being the first of the nearest. -/
theorem nearestOf_unique {d : Nat → Nat} {n : Nat} (hn : n < 4) (hle : ∀ i, i < 4 → d n ≤ d i)
    (hlt : ∀ i, i < n → d n < d i) : nearestOf d = n := by
  obtain ⟨h1, h2, h3⟩ := nearestOf_spec d
  rcases Nat.lt_trichotomy (nearestOf d) n with h | h | h
  · have := hlt _ h
    have := h2 n hn
    omega
  · exact h
  · have := h3 n h
    have := hle _ h1
    omega

/-! ### Distances (R116) -/

theorem squaredDiff_eq (x y : Byte) : squaredDiff x y = Reference.sq x.toNat y.toNat := by
  unfold squaredDiff Reference.sq
  simp only
  split
  · rename_i h
    have : ((x.toNat : Int) - y.toNat) * ((x.toNat : Int) - y.toNat) =
        (((y.toNat - x.toNat) * (y.toNat - x.toNat) : Nat) : Int) := by
      rw [Nat.cast_mul, Nat.cast_sub h]
      ring
    rw [this, Int.toNat_natCast]
  · rename_i h
    have : ((x.toNat : Int) - y.toNat) * ((x.toNat : Int) - y.toNat) =
        (((x.toNat - y.toNat) * (x.toNat - y.toNat) : Nat) : Int) := by
      rw [Nat.cast_mul, Nat.cast_sub (by omega)]
    rw [this, Int.toNat_natCast]

/-- The channel values of a triple, as numbers. -/
def rgbTriple (q : Rgb) : Nat × Nat × Nat := (q.r.toNat, q.g.toNat, q.b.toNat)

theorem dist_eq (p q : Rgb) : dist p q = Reference.distance p (rgbTriple q) := by
  simp only [dist, Reference.distance, rgbTriple, squaredDiff_eq]

/-! ### The palette (R110) -/

theorem blendByte_toNat (x y : Byte) : (blendByte x y).toNat = (2 * x.toNat + y.toNat) / 3 := by
  have hx := x.isLt
  have hy := y.isLt
  unfold blendByte
  rw [BitVec.toNat_ofNat]
  omega

/-- The palette registers hold the reference's palette. -/
theorem paletteOf_triples (c0 c1 : Half) :
    (paletteOf c0 c1).toList.map rgbTriple = Reference.palette c0.toNat c1.toNat := by
  simp only [paletteOf, Reference.palette, Reference.shades, Reference.widen5, Reference.widen6, blend]
  simp [rgbTriple, blendByte_toNat, unpackR565_toNat, unpackG565_toNat, unpackB565_toNat, Nat.add_comm]

/-- A list of four entries: the search is the reference's first nearest. -/
theorem nearestOf_eq_leastNearest (pal : List Rgb) (hl : pal.length = 4) (p : Rgb) :
    nearestOf (fun i => dist p (pal.getD i Rgb.zero)) = Reference.leastNearest (pal.map rgbTriple) p := by
  match pal, hl with
  | [a, b, c, e], _ =>
    obtain ⟨h1, h2, h3⟩ := nearestOf_spec (fun i => dist p ([a, b, c, e].getD i Rgb.zero))
    generalize nearestOf (fun i => dist p ([a, b, c, e].getD i Rgb.zero)) = n at *
    have d0 := h2 0 (by omega)
    have d1 := h2 1 (by omega)
    have d2 := h2 2 (by omega)
    have d3 := h2 3 (by omega)
    simp only [Reference.leastNearest, List.map_cons, List.map_nil, List.all_cons, List.all_nil, ← dist_eq,
      List.findIdx_cons, Bool.and_true, ← Bool.decide_and]
    match n, h1 with
    | 0, _ =>
      simp at d0 d1 d2 d3
      simp [d1, d2, d3]
    | 1, _ =>
      simp at d0 d1 d2 d3
      have e0 := h3 0 (by omega)
      simp at e0
      have n0 : ¬ dist p a ≤ dist p b := by omega
      simp [d0, d2, d3, n0]
    | 2, _ =>
      simp at d0 d1 d2 d3
      have e0 := h3 0 (by omega)
      have e1 := h3 1 (by omega)
      simp at e0 e1
      have n0 : ¬ dist p a ≤ dist p c := by omega
      have n1 : ¬ dist p b ≤ dist p c := by omega
      simp [d0, d1, d3, n0, n1]
    | 3, _ =>
      simp at d0 d1 d2 d3
      have e0 := h3 0 (by omega)
      have e1 := h3 1 (by omega)
      have e2 := h3 2 (by omega)
      simp at e0 e1 e2
      have n0 : ¬ dist p a ≤ dist p e := by omega
      have n1 : ¬ dist p b ≤ dist p e := by omega
      have n2 : ¬ dist p c ≤ dist p e := by omega
      simp [d0, d1, d2, n0, n1, n2]

/-- The index of one pixel is the reference's. -/
theorem nearest_toNat (pal : Vector Rgb 4) (p : Rgb) :
    (nearest pal p).toNat = Reference.leastNearest (pal.toList.map rgbTriple) p := by
  rw [← nearestOf_eq_leastNearest pal.toList (by simp) p]
  have h := (nearestOf_spec (fun i => dist p (pal.toList.getD i Rgb.zero))).1
  unfold nearest palEntry
  rw [BitVec.toNat_ofNat]
  omega

/-! ### Packing the indices (R118) -/

/-- The OR of R115 adds one base-4 digit at a time. -/
theorem packIndices_toNat (pal : Vector Rgb 4) (ps : List Rgb) (k : Nat) (acc : Word)
    (hk : k + ps.length ≤ 16) (ha : acc.toNat < 4 ^ k) :
    (packIndices pal k ps acc).toNat =
      acc.toNat + 4 ^ k * Reference.indices (pal.toList.map rgbTriple) ps := by
  induction ps generalizing k acc with
  | nil => simp [packIndices, Reference.indices]
  | cons p ps ih =>
    simp only [List.length_cons] at hk
    have hn := (nearest pal p).isLt
    have h4 : (4 : Nat) ^ k = 2 ^ (2 * k) := by rw [Nat.pow_mul]
    have hn' : (nearest pal p).toNat * 2 ^ (2 * k) < 4 * 2 ^ (2 * k) :=
      Nat.mul_lt_mul_of_pos_right (by omega) (Nat.two_pow_pos _)
    have hpow : (2 : Nat) ^ (2 * k) * 4 ≤ 2 ^ 32 := by
      rw [show (4 : Nat) = 2 ^ 2 from rfl, ← Nat.pow_add]
      exact Nat.pow_le_pow_right (by omega) (by omega)
    have hsh : ((nearest pal p).setWidth 32 <<< (2 * k)).toNat = (nearest pal p).toNat <<< (2 * k) := by
      rw [BitVec.toNat_shiftLeft, BitVec.toNat_setWidth,
        Nat.mod_eq_of_lt (show (nearest pal p).toNat < 2 ^ 32 by omega), Nat.shiftLeft_eq]
      exact Nat.mod_eq_of_lt (by omega)
    have hor : (acc ||| ((nearest pal p).setWidth 32 <<< (2 * k))).toNat =
        acc.toNat + 4 ^ k * (nearest pal p).toNat := by
      rw [BitVec.toNat_or, hsh, Nat.or_comm, ← Nat.shiftLeft_add_eq_or_of_lt (by omega), Nat.shiftLeft_eq, h4]
      ring
    rw [packIndices, ih (k + 1) _ (by omega) ?_, hor, Reference.indices, nearest_toNat, Nat.pow_succ]
    · ring
    · rw [hor, Nat.pow_succ]
      have : 4 ^ k * (nearest pal p).toNat ≤ 4 ^ k * 3 := Nat.mul_le_mul_left _ (by omega)
      omega

/-- The index word of a block is the reference's. -/
theorem indexWord_toNat (pal : Vector Rgb 4) (pix : Vector Rgb 16) :
    (indexWord pal pix).toNat = Reference.indices (pal.toList.map rgbTriple) pix.toList := by
  unfold indexWord
  rw [packIndices_toNat pal pix.toList 0 0#32 (by simp) (by simp)]
  simp

/-- Digit `k` of the reference's index word, in base 4, is the index of pixel `k` (R118). -/
theorem Reference.indices_digit {pal : List (Nat × Nat × Nat)} (hlt : ∀ p, Reference.leastNearest pal p < 4)
    (ps : List Rgb) (k : Nat) (hk : k < ps.length) :
    Reference.indices pal ps / 4 ^ k % 4 = Reference.leastNearest pal ps[k] := by
  induction ps generalizing k with
  | nil => simp at hk
  | cons p ps ih =>
    have hp := hlt p
    rw [Reference.indices]
    cases k with
    | zero =>
      simp only [Nat.pow_zero, Nat.div_one, List.getElem_cons_zero]
      omega
    | succ k =>
      simp only [List.length_cons] at hk
      rw [Nat.pow_succ, Nat.mul_comm (4 ^ k), ← Nat.div_div_eq_div_mul,
        show (Reference.leastNearest pal p + 4 * Reference.indices pal ps) / 4 = Reference.indices pal ps by omega]
      simpa using ih k (by omega)

/-- The two bits of pixel `k` in the index word are the index of pixel `k` (R118). -/
theorem indexWord_digit (pal : Vector Rgb 4) (pix : Vector Rgb 16) (k : Fin 16) :
    (indexWord pal pix).toNat / 4 ^ k.val % 4 = (nearest pal pix[k]).toNat := by
  have hlt : ∀ p, Reference.leastNearest (pal.toList.map rgbTriple) p < 4 := by
    intro p
    rw [← nearest_toNat]
    exact (nearest pal p).isLt
  rw [indexWord_toNat, Reference.indices_digit hlt _ _ (by simp), nearest_toNat]
  simp

/-- The index of a pixel is the first of the nearest entries (R115, R117). -/
theorem nearest_spec (pal : Vector Rgb 4) (p : Rgb) :
    (∀ i, i < 4 → dist p (palEntry pal (nearest pal p).toNat) ≤ dist p (palEntry pal i)) ∧
      ∀ i, i < (nearest pal p).toNat →
        dist p (palEntry pal (nearest pal p).toNat) < dist p (palEntry pal i) := by
  obtain ⟨h1, h2, h3⟩ := nearestOf_spec (fun i => dist p (palEntry pal i))
  have he : (nearest pal p).toNat = nearestOf (fun i => dist p (palEntry pal i)) := by
    unfold nearest
    rw [BitVec.toNat_ofNat]
    omega
  rw [he]
  exact ⟨h2, h3⟩

/-- An in-range entry is the vector's. -/
theorem palEntry_eq (pal : Vector Rgb 4) (i : Fin 4) : palEntry pal i.val = pal[i] := by
  simp [palEntry]

/-- The distance as the sum of three squares of signed differences (R116). -/
theorem dist_squares (p q : Rgb) :
    (dist p q : Int) = ((p.r.toNat : Int) - q.r.toNat) ^ 2 + ((p.g.toNat : Int) - q.g.toNat) ^ 2
      + ((p.b.toNat : Int) - q.b.toNat) ^ 2 := by
  have key : ∀ x y : Byte, (squaredDiff x y : Int) = ((x.toNat : Int) - y.toNat) ^ 2 := by
    intro x y
    unfold squaredDiff
    rw [Int.toNat_of_nonneg (mul_self_nonneg _), pow_two]
  unfold dist
  push_cast
  rw [key, key, key]

end Sys2Proof.Machine
end

