-- ==== Sys2Proof/Laws/Memory.lean ====
section
/-! SUPPORT. The laws of a memory: a write is read back, leaves every other byte alone, and keeps the canonical form. -/

namespace Sys2Proof.Machine

/-! ### Canonical form -/

@[simp] theorem Memory.wf_nil : Memory.wf [] = true := rfl

theorem Memory.wfFrom_cons {lo x : Nat} {v : Byte} {m : Memory} :
    Memory.wfFrom lo ((x, v) :: m) = true ↔
      lo ≤ x ∧ v ≠ Config.unlisted ∧ Memory.wfFrom (x + 1) m = true := by
  simp [Memory.wfFrom, Bool.and_eq_true]

theorem Memory.wfFrom_mono {lo lo' : Nat} {m : Memory} (h : Memory.wfFrom lo m = true) (hl : lo' ≤ lo) :
    Memory.wfFrom lo' m = true := by
  cases m with
  | nil => rfl
  | cons e m =>
    obtain ⟨x, v⟩ := e
    rw [Memory.wfFrom_cons] at h ⊢
    exact ⟨hl.trans h.1, h.2⟩

/-- Below the first listed address every byte is unlisted. -/
theorem Memory.read_below {lo a : Nat} {m : Memory} (h : Memory.wfFrom lo m = true) (ha : a < lo) :
    m.read a = Config.unlisted := by
  induction m generalizing lo with
  | nil => rfl
  | cons e m ih =>
    obtain ⟨x, v⟩ := e
    rw [Memory.wfFrom_cons] at h
    have hne : a ≠ x := by omega
    simp only [Memory.read, hne, if_false]
    exact ih h.2.2 (by omega)

theorem Memory.wfFrom_put {lo a : Nat} {b : Byte} {m : Memory} (hl : lo ≤ a)
    (h : Memory.wfFrom (a + 1) m = true) : Memory.wfFrom lo (Memory.put a b m) = true := by
  unfold Memory.put
  split
  · exact Memory.wfFrom_mono h (by omega)
  · exact Memory.wfFrom_cons.mpr ⟨hl, ‹_›, h⟩

theorem Memory.wfFrom_write {lo a : Nat} {b : Byte} {m : Memory} (h : Memory.wfFrom lo m = true) (hl : lo ≤ a) :
    Memory.wfFrom lo (m.write a b) = true := by
  induction m generalizing lo with
  | nil => exact Memory.wfFrom_put hl rfl
  | cons e m ih =>
    obtain ⟨x, v⟩ := e
    have h' := Memory.wfFrom_cons.mp h
    simp only [Memory.write]
    split
    · exact Memory.wfFrom_put hl (Memory.wfFrom_cons.mpr ⟨by omega, h'.2⟩)
    · split
      · exact Memory.wfFrom_put hl (by rw [‹a = x›]; exact h'.2.2)
      · exact Memory.wfFrom_cons.mpr ⟨h'.1, h'.2.1, ih h'.2.2 (by omega)⟩

/-- A byte write keeps the canonical form. -/
theorem Memory.write_wf {m : Memory} (h : m.wf = true) (a : Nat) (b : Byte) : (m.write a b).wf = true :=
  Memory.wfFrom_write h (Nat.zero_le a)

/-! ### One byte -/

theorem Memory.read_put_other {a c : Nat} {b : Byte} {m : Memory} (hne : c ≠ a) :
    (Memory.put a b m).read c = m.read c := by
  unfold Memory.put
  split
  · rfl
  · simp [Memory.read, hne]

theorem Memory.read_put_same {a : Nat} {b : Byte} {m : Memory} (h : Memory.wfFrom (a + 1) m = true) :
    (Memory.put a b m).read a = b := by
  unfold Memory.put
  split
  · rename_i hb
    rw [hb]
    exact Memory.read_below h (by omega)
  · simp [Memory.read]

/-- A write leaves every other byte alone, canonical form or not. -/
theorem Memory.read_write_other {a c : Nat} {b : Byte} {m : Memory} (hne : c ≠ a) :
    (m.write a b).read c = m.read c := by
  induction m with
  | nil => exact Memory.read_put_other hne
  | cons e m ih =>
    obtain ⟨x, v⟩ := e
    simp only [Memory.write]
    split
    · exact Memory.read_put_other hne
    · split
      · rw [Memory.read_put_other hne]
        have : c ≠ x := by omega
        simp [Memory.read, this]
      · simp only [Memory.read, ih]

/-- A byte written is read back. -/
theorem Memory.read_write_same {a : Nat} {b : Byte} {m : Memory} (h : m.wf = true) : (m.write a b).read a = b := by
  unfold Memory.wf at h
  revert h
  generalize 0 = lo
  intro h
  induction m generalizing lo with
  | nil => exact Memory.read_put_same rfl
  | cons e m ih =>
    obtain ⟨x, v⟩ := e
    have h' := Memory.wfFrom_cons.mp h
    simp only [Memory.write]
    split
    · exact Memory.read_put_same (Memory.wfFrom_cons.mpr ⟨by omega, h'.2⟩)
    · split
      · exact Memory.read_put_same (by rw [‹a = x›]; exact h'.2.2)
      · have hne : a ≠ x := ‹¬a = x›
        simp only [Memory.read, hne, if_false]
        exact ih _ h'.2.2

/-! ### One word -/

/-- A word write keeps the canonical form. -/
theorem Memory.writeWord_wf {m : Memory} (h : m.wf = true) (i : Nat) (w : Word) : (m.writeWord i w).wf = true := by
  exact Memory.write_wf (Memory.write_wf (Memory.write_wf (Memory.write_wf h _ _) _ _) _ _) _ _

/-- Outside its four bytes a word write changes nothing. -/
theorem Memory.read_writeWord_outside {m : Memory} {i a : Nat} {w : Word} (h : a < 4 * i ∨ 4 * i + 4 ≤ a) :
    (m.writeWord i w).read a = m.read a := by
  unfold Memory.writeWord
  rw [Memory.read_write_other (by omega), Memory.read_write_other (by omega), Memory.read_write_other (by omega),
    Memory.read_write_other (by omega)]

/-- Byte `j` of a word written is byte `4i + j` of the memory (20_memory.md R45). -/
theorem Memory.read_writeWord_byte {m : Memory} (hm : m.wf = true) (i j : Nat) (w : Word) (hj : j < 4) :
    (m.writeWord i w).read (4 * i + j) = wordByte w j := by
  simp only [Memory.writeWord]
  have h0 := Memory.write_wf hm (4 * i) (wordByte w 0)
  have h1 := Memory.write_wf h0 (4 * i + 1) (wordByte w 1)
  have h2 := Memory.write_wf h1 (4 * i + 2) (wordByte w 2)
  match j, hj with
  | 0, _ =>
    rw [Memory.read_write_other (by omega), Memory.read_write_other (by omega), Memory.read_write_other (by omega)]
    exact Memory.read_write_same hm
  | 1, _ =>
    rw [Memory.read_write_other (by omega), Memory.read_write_other (by omega), Memory.read_write_same h0]
  | 2, _ => rw [Memory.read_write_other (by omega), Memory.read_write_same h1]
  | 3, _ => rw [Memory.read_write_same h2]

/-- A word is its four bytes. -/
theorem wordByte_concat (w : Word) : wordByte w 3 ++ wordByte w 2 ++ wordByte w 1 ++ wordByte w 0 = w := by
  apply BitVec.eq_of_toNat_eq
  simp only [wordByte, BitVec.toNat_append, BitVec.extractLsb'_toNat, Nat.shiftRight_eq_div_pow,
    Nat.shiftLeft_eq]
  have hw := w.isLt
  rw [← Nat.shiftLeft_eq, ← Nat.shiftLeft_eq, ← Nat.shiftLeft_eq,
    ← Nat.shiftLeft_add_eq_or_of_lt (by omega), ← Nat.shiftLeft_add_eq_or_of_lt (by omega),
    ← Nat.shiftLeft_add_eq_or_of_lt (by omega)]
  simp only [Nat.shiftLeft_eq]
  omega

/-- A word written is read back. -/
theorem Memory.readWord_writeWord_same {m : Memory} (hm : m.wf = true) (i : Nat) (w : Word) :
    (m.writeWord i w).readWord i = w := by
  have h := fun j hj => Memory.read_writeWord_byte hm i j w hj
  unfold Memory.readWord
  rw [h 3 (by omega), h 2 (by omega), h 1 (by omega), ← Nat.add_zero (4 * i), h 0 (by omega)]
  exact wordByte_concat w

/-- A word write leaves every other word alone. -/
theorem Memory.readWord_writeWord_other {m : Memory} {i j : Nat} {w : Word} (h : j ≠ i) :
    (m.writeWord i w).readWord j = m.readWord j := by
  unfold Memory.readWord
  have hr : ∀ k, k < 4 → (m.writeWord i w).read (4 * j + k) = m.read (4 * j + k) := fun k hk =>
    Memory.read_writeWord_outside (by omega)
  rw [hr 3 (by omega), hr 2 (by omega), hr 1 (by omega)]
  rw [show (m.writeWord i w).read (4 * j) = m.read (4 * j) from hr 0 (by omega)]

/-- The bytes of a word as they are read one by one. -/
theorem wordByte_readWord (m : Memory) (i j : Nat) (hj : j < 4) : wordByte (m.readWord i) j = m.read (4 * i + j) := by
  apply BitVec.eq_of_toNat_eq
  have h0 := (m.read (4 * i)).isLt
  have h1 := (m.read (4 * i + 1)).isLt
  have h2 := (m.read (4 * i + 2)).isLt
  have h3 := (m.read (4 * i + 3)).isLt
  simp only [wordByte, Memory.readWord, BitVec.extractLsb'_toNat, BitVec.toNat_append, Nat.shiftRight_eq_div_pow]
  rw [← Nat.shiftLeft_add_eq_or_of_lt (by omega), ← Nat.shiftLeft_add_eq_or_of_lt (by omega),
    ← Nat.shiftLeft_add_eq_or_of_lt (by omega)]
  simp only [Nat.shiftLeft_eq]
  match j, hj with
  | 0, _ => simp; omega
  | 1, _ => simp; omega
  | 2, _ => simp; omega
  | 3, _ => simp; omega

/-- Byte `j` of a word is the `j`-th digit of its value in base 256. -/
theorem wordByte_toNat (w : Word) (j : Nat) : (wordByte w j).toNat = w.toNat / 256 ^ j % 256 := by
  rw [wordByte, BitVec.extractLsb'_toNat, Nat.shiftRight_eq_div_pow, pow_mul]
  rfl

end Sys2Proof.Machine
end

