-- ==== Sys2Proof/Laws/Block.lean ====
section
/-! SUPPORT. The two words the phases compute for a block are the reference's (44_encode_and_driver.md R131). -/

namespace Sys2Proof.Machine

theorem endpointWord_toNat (c0 c1 : Half) : (endpointWord c0 c1).toNat = c1.toNat * 65536 + c0.toNat := by
  have h0 := c0.isLt
  have h1 := c1.isLt
  have e1 : (c1.setWidth 32 <<< 16).toNat = c1.toNat <<< 16 := by
    rw [BitVec.toNat_shiftLeft, BitVec.toNat_setWidth,
      Nat.mod_eq_of_lt (show c1.toNat < 2 ^ 32 by omega), Nat.shiftLeft_eq]
    exact Nat.mod_eq_of_lt (by omega)
  have e0 : (c0.setWidth 32).toNat = c0.toNat := by
    rw [BitVec.toNat_setWidth, Nat.mod_eq_of_lt (by omega)]
  unfold endpointWord
  rw [BitVec.toNat_or, e1, e0, ← Nat.shiftLeft_add_eq_or_of_lt (by omega), Nat.shiftLeft_eq]

/-- The words of a block whose registers hold what the phases computed: the endpoint word, and the index word of the long
path or zero. -/
theorem State.Analyzed.block {s : State} (h : s.Analyzed) :
    Reference.block s.pix.toList =
      (endpointWord s.maxEndpoint s.minEndpoint,
        if s.maxEndpoint = s.minEndpoint then 0#32
        else indexWord (paletteOf s.maxEndpoint s.minEndpoint) s.pix) := by
  have hle := h.endpoints_ordered
  unfold Reference.block
  simp only [← h.maxEndpoint, ← h.minEndpoint]
  by_cases he : s.maxEndpoint = s.minEndpoint
  · rw [if_pos (by rw [he]), if_pos he]
    congr 1
    apply BitVec.eq_of_toNat_eq
    have := (endpointWord s.maxEndpoint s.minEndpoint).isLt
    rw [endpointWord_toNat] at *
    rw [BitVec.toNat_ofNat]
    omega
  · have hne : s.maxEndpoint.toNat ≠ s.minEndpoint.toNat := fun hc => he (BitVec.eq_of_toNat_eq hc)
    rw [if_neg hne, if_neg he, Nat.max_eq_left hle, Nat.min_eq_right hle, ← paletteOf_triples, ← indexWord_toNat,
      BitVec.ofNat_toNat]
    congr 1
    apply BitVec.eq_of_toNat_eq
    have := (endpointWord s.maxEndpoint s.minEndpoint).isLt
    rw [endpointWord_toNat] at *
    rw [BitVec.toNat_ofNat]
    omega

/-- Pixel number `k` as `FETCH` reads it is the image's pixel at `(4*bx + col, 4*by + row)`. -/
theorem State.fetchedPixel_eq (s : State) (k : Nat) :
    s.fetchedPixel k =
      Reference.pixel s.src s.width.toNat (4 * s.blockX + k % 4) (4 * s.blockY + k / 4) := by
  have hb : ∀ j, j < 4 → wordByte (s.srcPixelWord (s.pixelIndex k)) j = s.src.read (4 * s.pixelIndex k + j) :=
    fun j hj => wordByte_readWord _ _ j hj
  unfold State.fetchedPixel pixelOfWord Reference.pixel
  have h0 := hb 0 (by omega)
  have h1 := hb 1 (by omega)
  have h2 := hb 2 (by omega)
  simp only [wordByte] at h0 h1 h2
  rw [h0, h1, h2]
  rfl

/-- The block `FETCH` reads is block `CNT` of the image, where the image has a block column. -/
theorem State.fetchedBlock_toList {s : State} (h : s.blocksPerRow ≠ 0) :
    s.fetchedBlock.toList = Reference.blockPixels s.src s.width.toNat s.cnt.toNat := by
  have hw := s.blocksPerRow_eq
  rw [hw] at h
  unfold State.fetchedBlock Reference.blockPixels
  apply List.ext_getElem
  · simp
  · intro i h1 h2
    simp [State.fetchedPixel_eq, State.blockX, State.blockY, hw, h]

end Sys2Proof.Machine
end

