-- ==== Sys2Proof/Laws/Decode.lean ====
section
/-! SUPPORT. What the decoder answers, format by format, and that its tables are unambiguous. -/

namespace Sys2Proof

/-- No two rows of the command table accept one word. -/
theorem commandRows_disjoint : commandRows.Pairwise (fun a b => a.mask &&& b.pattern ≠ b.mask &&& a.pattern) := by
  decide

/-- No two rows of the phase table accept one code. -/
theorem phaseRows_disjoint : phaseRows.Pairwise (fun a b => a.mask &&& b.pattern ≠ b.mask &&& a.pattern) := by
  decide

/-- The command words of R60, and nothing else. -/
theorem decode_cmd (v : Word) :
    decode (.cmd v) =
      if v = 0#32 then .ok .nop
      else if v = 1#32 then .ok .compress
      else if v = 2#32 then .ok .tfill
      else if v = 3#32 then .ok .clear
      else .error .reservedCommand := by
  have hm : v &&& 4294967295#32 = v := by
    rw [show (4294967295#32 : BitVec 32) = BitVec.allOnes 32 from rfl, BitVec.and_allOnes]
  simp only [decode, lookupRow, commandRows, List.find?, Row.accepts, hm]
  by_cases h0 : v = 0#32
  · subst h0; rfl
  by_cases h1 : v = 1#32
  · subst h1; rfl
  by_cases h2 : v = 2#32
  · subst h2; rfl
  by_cases h3 : v = 3#32
  · subst h3; rfl
  have e : ∀ w : Word, v ≠ w → (v == w) = false := fun w h => beq_eq_false_iff_ne.mpr h
  simp only [e _ h0, e _ h1, e _ h2, e _ h3, h0, h1, h2, h3, if_false, Option.map_none]

/-- The instruction of a phase code (R64). -/
def phaseInstr (p : BitVec 4) : Option Instr :=
  [Instr.idle, .check, .fetch, .bbox, .inset, .endpt, .order, .palette, .index, .encode, .store, .next, .fill][p.toNat]?

/-- The phase codes of R64, and nothing else. -/
theorem lookup_phase : ∀ p : BitVec 4, lookupRow phaseRows p = phaseInstr p := by decide

theorem decode_phase (p : BitVec 4) :
    decode (.phase p) =
      match phaseInstr p with
      | some i => .ok i
      | none => .error .reservedPhase :=
  congrArg (fun o : Option Instr => match o with
    | some i => Except.ok i
    | none => Except.error DecodeError.reservedPhase) (lookup_phase p)

/-- What a phase code that decodes can be. -/
theorem decode_phase_ok {p : BitVec 4} {i : Instr} (h : decode (.phase p) = .ok i) :
    (p = Phase.idle ∧ i = .idle) ∨ (p = Phase.check ∧ i = .check) ∨ (p = Phase.fetch ∧ i = .fetch) ∨
    (p = Phase.bbox ∧ i = .bbox) ∨ (p = Phase.inset ∧ i = .inset) ∨ (p = Phase.endpt ∧ i = .endpt) ∨
    (p = Phase.order ∧ i = .order) ∨ (p = Phase.palette ∧ i = .palette) ∨ (p = Phase.index ∧ i = .index) ∨
    (p = Phase.encode ∧ i = .encode) ∨ (p = Phase.store ∧ i = .store) ∨ (p = Phase.next ∧ i = .next) ∨
    (p = Phase.fill ∧ i = .fill) := by
  have key : ∀ p : BitVec 4, ∀ i ∈ phaseInstr p,
      (p = Phase.idle ∧ i = .idle) ∨ (p = Phase.check ∧ i = .check) ∨ (p = Phase.fetch ∧ i = .fetch) ∨
      (p = Phase.bbox ∧ i = .bbox) ∨ (p = Phase.inset ∧ i = .inset) ∨ (p = Phase.endpt ∧ i = .endpt) ∨
      (p = Phase.order ∧ i = .order) ∨ (p = Phase.palette ∧ i = .palette) ∨ (p = Phase.index ∧ i = .index) ∨
      (p = Phase.encode ∧ i = .encode) ∨ (p = Phase.store ∧ i = .store) ∨ (p = Phase.next ∧ i = .next) ∨
      (p = Phase.fill ∧ i = .fill) := by decide
  apply key
  rw [decode_phase] at h
  cases hp : phaseInstr p with
  | none => rw [hp] at h; cases h
  | some j => rw [hp] at h; cases h; rfl

/-- The operand lines `{r, g, b}` of `PACK565`, as a number. -/
theorem packLines_toNat (r g b : Byte) :
    (r ++ g ++ b : BitVec 24).toNat = r.toNat * 65536 + g.toNat * 256 + b.toNat := by
  have hg := g.isLt
  have hb := b.isLt
  rw [BitVec.toNat_append, BitVec.toNat_append, ← Nat.shiftLeft_add_eq_or_of_lt (by omega),
    ← Nat.shiftLeft_add_eq_or_of_lt (by omega)]
  simp only [Nat.shiftLeft_eq]
  omega

end Sys2Proof
end

