-- ==== Sys2Proof/Laws/Step.lean ====
section
/-! SUPPORT. Everything a step can do, said once: the inversion of `step`, and its equations turn by turn. -/

namespace Sys2Proof.Machine

open Sys2Proof.Safety

@[simp] theorem State.setScript_self (s : State) : s.setScript s.script = s := rfl

@[simp] theorem State.setScript_setScript (s : State) (a b : List Turn) :
    (s.setScript a).setScript b = s.setScript b := rfl

/-! ### Equations -/

theorem step_of_run {s u : State} {i : Instr} (h : nextWork s = .run i u) : step s = exec i u := by
  unfold step
  rw [h]

theorem step_of_done {s : State} {o : Host.Outcome State Fault Refusal} (h : nextWork s = .done o) : step s = o := by
  unfold step
  rw [h]

theorem nextWork_nil {s : State} (h : s.script = []) : nextWork s = engineWork s := by
  unfold nextWork
  rw [h]

theorem nextWork_cons {s : State} {t : Turn} {rest : List Turn} (h : s.script = t :: rest) :
    nextWork s = turnWork t rest s := by
  unfold nextWork
  rw [h]

/-- A busy engine runs the phase `PHASE` names. -/
theorem engineWork_busy {s : State} {i : Instr} (hb : s.state = .busy) (hd : decode (.phase s.phase) = .ok i) :
    engineWork s = .run i s := by
  unfold engineWork
  rw [if_pos hb, hd]

theorem engineWork_idle {s : State} (hb : s.state ≠ .busy) : engineWork s = .run .idle s := by
  unfold engineWork
  rw [if_neg hb]

/-- The engine's turn, whichever way the script gives it: the phase runs at the state with the turn taken. -/
theorem step_engine {s : State} (hm : EngineMoves s) :
    ∃ ts, (s.script = [] ∧ ts = [] ∨ s.script = .engine :: ts ∨ ∃ rest, s.script = .wait :: rest ∧ ts = s.script) ∧
      nextWork s = engineWork (s.setScript ts) := by
  obtain ⟨hb, h | ⟨rest, h⟩ | ⟨rest, h⟩⟩ := hm
  · refine ⟨[], .inl ⟨h, rfl⟩, ?_⟩
    rw [nextWork_nil h, ← h, State.setScript_self]
  · exact ⟨rest, .inr (.inl h), by rw [nextWork_cons h]; rfl⟩
  · refine ⟨s.script, .inr (.inr ⟨rest, h, rfl⟩), ?_⟩
    rw [nextWork_cons h, State.setScript_self]
    simp only [turnWork, waitWork, hb, if_true]

/-! ### Inversion -/

/-- What a step that answers a next state has done. `ts` is the script it leaves. -/
inductive StepCase (s t : State) : Prop where
  /-- The engine ran a phase. -/
  | engine (i : Instr) (ts : List Turn) (moves : EngineMoves s) (decoded : decode (.phase s.phase) = .ok i)
      (ran : exec i (s.setScript ts) = .next t)
  /-- Nothing of DXT1C changed: the engine had no step, a write was ignored, or a command had no effect. -/
  | quiet (ts : List Turn) (same : t = s.setScript ts)
  /-- A command was accepted. -/
  | command (v : Word) (i : Instr) (ts : List Turn) (turn : s.script = .wr 0 v :: ts) (ready : s.state ≠ .busy)
      (decoded : decode (.cmd v) = .ok i) (ran : exec i (s.setScript ts) = .next t)
  /-- A reserved command word was written. -/
  | illegal (v : Word) (ts : List Turn) (turn : s.script = .wr 0 v :: ts) (ready : s.state ≠ .busy)
      (reserved : decode (.cmd v) = .error .reservedCommand) (trapped : t = (s.setScript ts).raise .illegalCommand)
  /-- `WIDTH` was written. -/
  | width (v : Word) (ts : List Turn) (turn : s.script = .wr 2 v :: ts) (ready : s.state ≠ .busy)
      (written : t = (s.setScript ts).setWidth (v.extractLsb' 0 16))
  /-- `HEIGHT` was written. -/
  | height (v : Word) (ts : List Turn) (turn : s.script = .wr 3 v :: ts) (ready : s.state ≠ .busy)
      (written : t = (s.setScript ts).setHeight (v.extractLsb' 0 16))
  /-- The host read a register, a SRC byte or a DST word. -/
  | observed (w : Word) (ts : List Turn) (read : t = (s.setScript ts).setHostData w)
  /-- The host wrote a SRC byte. -/
  | srcWritten (a : Nat) (b : Byte) (ts : List Turn) (ready : s.state ≠ .busy) (backed : s.srcBacked a = true)
      (written : t = (s.setScript ts).storeSrc a b)
  /-- The host wrote a DST word. -/
  | dstWritten (i : Nat) (w : Word) (ts : List Turn) (ready : s.state ≠ .busy) (backed : s.dstBacked i = true)
      (written : t = (s.setScript ts).storeWord i w)
  /-- Reset, with or without a completed write. -/
  | reset (x : Turn) (ts : List Turn) (turn : s.script = x :: ts) (asserted : x.assertsReset = true)
      (done : t = (s.setScript ts).resetRegisters ∨
        ∃ i w, s.firstWrite = some (i, w) ∧ x = .rst true ∧ t = ((s.setScript ts).storeWord i w).resetRegisters)
  /-- A stand-alone codec instance was given operands. -/
  | packed (h : Half) (ts : List Turn) (shown : t = (s.setScript ts).setPackOut h)
  | unpacked (b : Byte) (ts : List Turn) (shown : t = (s.setScript ts).setUnpackOut b)

theorem firstWrite_setScript (s : State) (ts : List Turn) : (s.setScript ts).firstWrite = s.firstWrite := rfl

theorem stepCase_of_engineWork {s t : State} {ts : List Turn}
    (hm : s.state = .busy → EngineMoves s)
    (h : (match engineWork (s.setScript ts) with | .run i u => exec i u | .done o => o) = .next t) :
    StepCase s t := by
  by_cases hb : s.state = .busy
  · cases hd : decode (.phase s.phase) with
    | ok i =>
      rw [engineWork_busy (s := s.setScript ts) hb hd] at h
      exact .engine i ts (hm hb) hd h
    | error e =>
      unfold engineWork at h
      rw [if_pos (show (s.setScript ts).state = .busy from hb),
        show decode (.phase (s.setScript ts).phase) = .error e from hd] at h
      cases h
  · rw [engineWork_idle (s := s.setScript ts) hb] at h
    cases h
    exact .quiet ts rfl

/-- Every step that answers a next state is one of the cases. -/
theorem step_cases {s t : State} (h : step s = .next t) : StepCase s t := by
  cases hs : s.script with
  | nil =>
    apply stepCase_of_engineWork (ts := s.script) (fun hb => ⟨hb, .inl hs⟩)
    unfold step at h
    rw [nextWork_nil hs] at h
    exact h
  | cons turn rest =>
    unfold step at h
    rw [nextWork_cons hs] at h
    cases turn with
    | engine => exact stepCase_of_engineWork (fun hb => ⟨hb, .inr (.inl ⟨rest, hs⟩)⟩) h
    | wr off v =>
      simp only [turnWork, writeWork, State.setScript_state] at h
      by_cases hb : s.state = .busy
      · rw [if_pos hb] at h
        cases h
        exact .quiet rest rfl
      rw [if_neg hb] at h
      by_cases ho : off = 0
      · subst ho
        rw [if_pos rfl] at h
        unfold commandWork at h
        cases hd : decode (.cmd v) with
        | ok i => rw [hd] at h; exact .command v i rest hs hb hd h
        | error e =>
          rw [hd] at h
          cases h
          have he : e = .reservedCommand := by
            rw [decode_cmd] at hd
            split at hd
            · cases hd
            · split at hd
              · cases hd
              · split at hd
                · cases hd
                · split at hd
                  · cases hd
                  · cases hd; rfl
          exact .illegal v rest hs hb (he ▸ hd) rfl
      · rw [if_neg ho] at h
        cases h
        match off, ho with
        | 1, _ => exact .quiet rest rfl
        | 2, _ => exact .width v rest hs hb rfl
        | 3, _ => exact .height v rest hs hb rfl
        | n + 4, _ => exact .quiet rest rfl
    | rd off => cases h; exact .observed _ rest rfl
    | wait =>
      simp only [turnWork, waitWork] at h
      by_cases hb : s.state = .busy
      · rw [if_pos hb] at h
        exact stepCase_of_engineWork (ts := s.script) (fun hb => ⟨hb, .inr (.inr ⟨rest, hs⟩)⟩) h
      · rw [if_neg hb] at h
        cases h
        exact .observed _ rest rfl
    | srcw a b =>
      simp only [turnWork, hostSrcWrite, State.setScript_state] at h
      split at h
      · cases h
      · rename_i hb
        split at h
        · rename_i hk; cases h; exact .srcWritten a b rest hb hk rfl
        · cases h
    | srcr a =>
      simp only [turnWork, hostSrcRead, State.setScript_state] at h
      split at h
      · cases h
      · split at h
        · cases h; exact .observed _ rest rfl
        · cases h
    | dstw i w =>
      simp only [turnWork, hostDstWrite, State.setScript_state] at h
      split at h
      · cases h
      · rename_i hb
        split at h
        · rename_i hk; cases h; exact .dstWritten i w rest hb hk rfl
        · cases h
    | dstr i =>
      simp only [turnWork, hostDstRead, State.setScript_state] at h
      split at h
      · cases h
      · split at h
        · cases h; exact .observed _ rest rfl
        · cases h
    | rst b =>
      simp only [turnWork, assertReset, firstWrite_setScript] at h
      cases b with
      | false => simp at h; exact .reset _ rest hs rfl (.inl h.symm)
      | true =>
        simp only [if_true] at h
        cases hw : s.firstWrite with
        | none => rw [hw] at h; cases h; exact .reset _ rest hs rfl (.inl rfl)
        | some iw =>
          obtain ⟨i, w⟩ := iw
          rw [hw] at h
          simp only at h
          split at h
          · cases h; exact .reset _ rest hs rfl (.inr ⟨i, w, hw, rfl, rfl⟩)
          · cases h
    | rstWr off v => cases h; exact .reset _ rest hs rfl (.inl rfl)
    | rstRd off => cases h; exact .reset _ rest hs rfl (.inl rfl)
    | pack x => cases h; exact .packed _ rest rfl
    | unpack ch x => cases ch <;> (cases h; exact .unpacked _ rest rfl)

end Sys2Proof.Machine
end

