-- ==== Sys2Proof/Laws/Exec.lean ====
section
/-! SUPPORT. What each meaning can do: for every instruction, "if it answers `next t`, then `t` is this". -/

namespace Sys2Proof.Machine

/-- Host.Outcome's next states are equal exactly when the states are. -/
theorem next_inj {a b : State} : (Host.Outcome.next a : Host.Outcome State Fault Refusal) = .next b ↔ a = b :=
  ⟨fun h => by cases h; rfl, fun h => by rw [h]⟩

/-! ### One lemma per instruction -/

theorem exec_nop {s t : State} (h : exec .nop s = .next t) : t = s := (next_inj.mp h).symm

theorem exec_idle {s t : State} (h : exec .idle s = .next t) : t = s := (next_inj.mp h).symm

theorem exec_compress {s t : State} (h : exec .compress s = .next t) :
    (s.state = .busy ∧ t = s) ∨ (s.state ≠ .busy ∧ t = s.start Phase.check) := by
  change execCompress s = _ at h
  unfold execCompress at h
  split at h <;> cases h
  · exact .inl ⟨‹_›, rfl⟩
  · exact .inr ⟨‹_›, rfl⟩

theorem exec_tfill {s t : State} (h : exec .tfill s = .next t) :
    (s.state = .busy ∧ t = s) ∨ (s.state ≠ .busy ∧ t = s.start Phase.fill) := by
  change execTfill s = _ at h
  unfold execTfill at h
  split at h <;> cases h
  · exact .inl ⟨‹_›, rfl⟩
  · exact .inr ⟨‹_›, rfl⟩

theorem exec_clear {s t : State} (h : exec .clear s = .next t) :
    (s.state = .busy ∧ t = s) ∨ (s.state ≠ .busy ∧ t = s.acknowledge) := by
  change execClear s = _ at h
  unfold execClear at h
  split at h <;> cases h
  · exact .inl ⟨‹_›, rfl⟩
  · exact .inr ⟨‹_›, rfl⟩

theorem exec_check {s t : State} (h : exec .check s = .next t) :
    (s.badDimensions = true ∧ t = s.raise .invalidDimensions) ∨
    (s.badDimensions = false ∧ s.blockCount = 0 ∧ t = s.finish) ∨
    (s.badDimensions = false ∧ s.blockCount ≠ 0 ∧ t = s.goto Phase.fetch) := by
  change execCheck s = _ at h
  unfold execCheck at h
  split at h
  · cases h; exact .inl ⟨‹_›, rfl⟩
  · have hb : s.badDimensions = false := by simpa using ‹¬s.badDimensions = true›
    split at h <;> cases h
    · exact .inr (.inl ⟨hb, ‹_›, rfl⟩)
    · exact .inr (.inr ⟨hb, ‹_›, rfl⟩)

theorem exec_fetch {s t : State} (h : exec .fetch s = .next t) :
    s.blockBacked = true ∧ t = (s.setPix s.fetchedBlock).goto Phase.bbox := by
  change execFetch s = _ at h
  unfold execFetch at h
  split at h <;> cases h
  exact ⟨‹_›, rfl⟩

theorem exec_bbox {s t : State} (h : exec .bbox s = .next t) :
    t = (s.setBox (boxMin s.pix) (boxMax s.pix)).goto Phase.inset := (next_inj.mp h).symm

theorem exec_inset {s t : State} (h : exec .inset s = .next t) :
    t = (s.setInset (insetOf s.minR s.maxR) (insetOf s.minG s.maxG) (insetOf s.minB s.maxB)).goto Phase.endpt :=
  (next_inj.mp h).symm

theorem exec_endpt {s t : State} (h : exec .endpt s = .next t) :
    t = (s.setEndpoints s.maxEndpoint s.minEndpoint).goto Phase.order := (next_inj.mp h).symm

theorem exec_order {s t : State} (h : exec .order s = .next t) :
    (s.c0 = s.c1 ∧ t = (s.setDegen true).goto Phase.encode) ∨
    (s.c0 ≠ s.c1 ∧ s.c0.toNat < s.c1.toNat ∧
      t = ((s.setDegen false).setEndpoints s.c1 s.c0).goto Phase.palette) ∨
    (s.c0 ≠ s.c1 ∧ ¬s.c0.toNat < s.c1.toNat ∧ t = (s.setDegen false).goto Phase.palette) := by
  change execOrder s = _ at h
  unfold execOrder at h
  simp only [degenerate, mustExchange, decide_eq_true_eq] at h
  split at h
  · cases h; exact .inl ⟨‹_›, rfl⟩
  · split at h <;> cases h
    · exact .inr (.inl ⟨‹_›, ‹_›, rfl⟩)
    · exact .inr (.inr ⟨‹_›, ‹_›, rfl⟩)

theorem exec_palette {s t : State} (h : exec .palette s = .next t) :
    t = (s.setPal (paletteOf s.c0 s.c1)).goto Phase.index := (next_inj.mp h).symm

theorem exec_index {s t : State} (h : exec .index s = .next t) :
    t = (s.setIdx (indexWord s.pal s.pix)).goto Phase.encode := (next_inj.mp h).symm

theorem exec_encode {s t : State} (h : exec .encode s = .next t) :
    t = (s.setWords (endpointWord s.c0 s.c1) (if s.degen then 0#32 else s.idx)).goto Phase.store :=
  (next_inj.mp h).symm

theorem exec_store {s t : State} (h : exec .store s = .next t) :
    s.dstBacked s.endpointSlot = true ∧ s.dstBacked (s.endpointSlot + 1) = true ∧
    t = ((s.storeWord s.endpointSlot s.w0).storeWord (s.endpointSlot + 1) s.w1).goto Phase.next := by
  change execStore s = _ at h
  unfold execStore at h
  split at h <;> cases h
  rename_i hb
  rw [Bool.and_eq_true] at hb
  exact ⟨hb.1, hb.2, rfl⟩

theorem exec_next {s t : State} (h : exec .next s = .next t) :
    (s.cnt.toNat + 1 = s.blockCount ∧ t = (s.setCnt (nextCount s.cnt)).finish) ∨
    (s.cnt.toNat + 1 ≠ s.blockCount ∧ t = (s.setCnt (nextCount s.cnt)).goto Phase.fetch) := by
  change execNext s = _ at h
  unfold execNext at h
  simp only [State.lastBlock, decide_eq_true_eq] at h
  split at h <;> cases h
  · exact .inl ⟨‹_›, rfl⟩
  · exact .inr ⟨‹_›, rfl⟩

theorem exec_fill {s t : State} (h : exec .fill s = .next t) :
    (s.cnt.toNat = s.fillWords ∧ t = s.finish) ∨
    (s.cnt.toNat ≠ s.fillWords ∧ s.dstBacked s.fillSlot = true ∧
      t = (s.storeWord s.fillSlot fillWord).setCnt (nextCount s.cnt)) := by
  change execFill s = _ at h
  unfold execFill at h
  simp only [State.fillDone, decide_eq_true_eq] at h
  split at h
  · cases h; exact .inl ⟨‹_›, rfl⟩
  · split at h <;> cases h
    exact .inr ⟨‹_›, ‹_›, rfl⟩

/-! ### Frames over every instruction -/

/-- No instruction writes an operand register, SRC, the platform's parameters, the script or what the host read. -/
theorem exec_keeps_operands {i : Instr} {s t : State} (h : exec i s = .next t) :
    t.width = s.width ∧ t.height = s.height ∧ t.src = s.src ∧ t.cfg = s.cfg ∧ t.script = s.script ∧
      t.hostData = s.hostData := by
  cases i with
  | nop => rw [exec_nop h]; simp
  | idle => rw [exec_idle h]; simp
  | compress => obtain ⟨-, rfl⟩ | ⟨-, rfl⟩ := exec_compress h <;> simp
  | tfill => obtain ⟨-, rfl⟩ | ⟨-, rfl⟩ := exec_tfill h <;> simp
  | clear => obtain ⟨-, rfl⟩ | ⟨-, rfl⟩ := exec_clear h <;> simp
  | check => obtain ⟨-, rfl⟩ | ⟨-, -, rfl⟩ | ⟨-, -, rfl⟩ := exec_check h <;> simp
  | fetch => obtain ⟨-, -, rfl⟩ := exec_fetch h; simp
  | bbox => rw [exec_bbox h]; simp
  | inset => rw [exec_inset h]; simp
  | endpt => rw [exec_endpt h]; simp
  | order => obtain ⟨-, rfl⟩ | ⟨-, -, rfl⟩ | ⟨-, -, rfl⟩ := exec_order h <;> simp
  | palette => rw [exec_palette h]; simp
  | index => rw [exec_index h]; simp
  | encode => rw [exec_encode h]; simp
  | store => obtain ⟨-, -, rfl⟩ := exec_store h; simp
  | next => obtain ⟨-, rfl⟩ | ⟨-, rfl⟩ := exec_next h <;> simp
  | fill => obtain ⟨-, rfl⟩ | ⟨-, -, rfl⟩ := exec_fill h <;> simp
  | pack565 r g b => cases h; simp
  | unpackr565 c => cases h; simp
  | unpackg565 c => cases h; simp
  | unpackb565 c => cases h; simp

/-- What an accepted command word is. -/
theorem command_cases {v : Word} {i : Instr} (h : decode (.cmd v) = .ok i) :
    (v = 0#32 ∧ i = .nop) ∨ (v = 1#32 ∧ i = .compress) ∨ (v = 2#32 ∧ i = .tfill) ∨ (v = 3#32 ∧ i = .clear) := by
  rw [decode_cmd] at h
  split at h
  · cases h; exact .inl ⟨‹_›, rfl⟩
  · split at h
    · cases h; exact .inr (.inl ⟨‹_›, rfl⟩)
    · split at h
      · cases h; exact .inr (.inr (.inl ⟨‹_›, rfl⟩))
      · split at h <;> cases h
        exact .inr (.inr (.inr ⟨‹_›, rfl⟩))

end Sys2Proof.Machine
end

