-- ==== Sys2Proof/Laws/PerInstr.lean ====
section
/-! SUPPORT. Facts about each instruction as syntax, one lemma per constructor: the encoder gives it the bits of its row of
spec/opcode_table.json, copied here apart from the decoder's own tables. -/

namespace Sys2Proof.Laws.TableRow

/-- The format column of the opcode table. -/
inductive Format where
  | cmd
  | phase
  | func
deriving DecidableEq, Repr

/-- One row of the opcode table: format, width in bits, the bits that must be fixed and their values, and the operand
fields as (high bit, low bit, value). -/
structure Entry where
  format : Format
  width : Nat
  mask : Nat
  pattern : Nat
  fields : List (Nat × Nat × Nat)
deriving DecidableEq, Repr

def cmdRow (v : Nat) : Entry := ⟨.cmd, 32, 0xFFFFFFFF, v, []⟩

def phaseRow (v : Nat) : Entry := ⟨.phase, 4, 0xF, v, []⟩

/-- The rows, in the table's order. -/
def entry : Instr → Entry
  | .nop => cmdRow 0
  | .compress => cmdRow 1
  | .tfill => cmdRow 2
  | .clear => cmdRow 3
  | .idle => phaseRow 0x0
  | .check => phaseRow 0x1
  | .fetch => phaseRow 0x2
  | .bbox => phaseRow 0x3
  | .inset => phaseRow 0x4
  | .endpt => phaseRow 0x5
  | .order => phaseRow 0x6
  | .palette => phaseRow 0x7
  | .index => phaseRow 0x8
  | .encode => phaseRow 0x9
  | .store => phaseRow 0xA
  | .next => phaseRow 0xB
  | .fill => phaseRow 0xC
  | .pack565 r g b => ⟨.func, 24, 0, 0, [(23, 16, r.toNat), (15, 8, g.toNat), (7, 0, b.toNat)]⟩
  | .unpackr565 c => ⟨.func, 16, 0, 0, [(15, 11, c.toNat / 2048)]⟩
  | .unpackg565 c => ⟨.func, 16, 0, 0, [(10, 5, c.toNat / 32 % 64)]⟩
  | .unpackb565 c => ⟨.func, 16, 0, 0, [(4, 0, c.toNat % 32)]⟩

/-- Where a code's bits are, how many there are, and their value. -/
def bits : Code → Format × Nat × Nat
  | .cmd v => (.cmd, 32, v.toNat)
  | .phase p => (.phase, 4, p.toNat)
  | .pack x => (.func, 24, x.toNat)
  | .unpack _ x => (.func, 16, x.toNat)

/-- The encoding of the instruction has the format, the width, the fixed bits and the operand fields of its row. -/
def Statement (i : Instr) : Prop :=
  (bits (Sys2Proof.encode i)).1 = (entry i).format ∧
  (bits (Sys2Proof.encode i)).2.1 = (entry i).width ∧
  (bits (Sys2Proof.encode i)).2.2 &&& (entry i).mask = (entry i).pattern ∧
  ∀ f ∈ (entry i).fields, (bits (Sys2Proof.encode i)).2.2 / 2 ^ f.2.1 % 2 ^ (f.1 + 1 - f.2.1) = f.2.2

/-- A row without operand fields: only its format, width and fixed bits say anything. -/
theorem statement_of_bits {i : Instr} (hf : (bits (Sys2Proof.encode i)).1 = (entry i).format)
    (hw : (bits (Sys2Proof.encode i)).2.1 = (entry i).width)
    (hp : (bits (Sys2Proof.encode i)).2.2 &&& (entry i).mask = (entry i).pattern) (hn : (entry i).fields = []) :
    Statement i :=
  ⟨hf, hw, hp, fun f hf => by rw [hn] at hf; exact absurd hf List.not_mem_nil⟩

theorem nop : Statement .nop := statement_of_bits rfl rfl rfl rfl
theorem compress : Statement .compress := statement_of_bits rfl rfl rfl rfl
theorem tfill : Statement .tfill := statement_of_bits rfl rfl rfl rfl
theorem clear : Statement .clear := statement_of_bits rfl rfl rfl rfl
theorem idle : Statement .idle := statement_of_bits rfl rfl rfl rfl
theorem check : Statement .check := statement_of_bits rfl rfl rfl rfl
theorem fetch : Statement .fetch := statement_of_bits rfl rfl rfl rfl
theorem bbox : Statement .bbox := statement_of_bits rfl rfl rfl rfl
theorem inset : Statement .inset := statement_of_bits rfl rfl rfl rfl
theorem endpt : Statement .endpt := statement_of_bits rfl rfl rfl rfl
theorem order : Statement .order := statement_of_bits rfl rfl rfl rfl
theorem palette : Statement .palette := statement_of_bits rfl rfl rfl rfl
theorem index : Statement .index := statement_of_bits rfl rfl rfl rfl
theorem encode : Statement .encode := statement_of_bits rfl rfl rfl rfl
theorem store : Statement .store := statement_of_bits rfl rfl rfl rfl
theorem next : Statement .next := statement_of_bits rfl rfl rfl rfl
theorem fill : Statement .fill := statement_of_bits rfl rfl rfl rfl

theorem pack565 (r g b : Byte) : Statement (.pack565 r g b) := by
  have hr := r.isLt
  have hg := g.isLt
  have hb := b.isLt
  have hx := packLines_toNat r g b
  refine ⟨rfl, rfl, by simp [entry], ?_⟩
  simp only [entry, List.mem_cons, List.not_mem_nil, or_false]
  rintro f (rfl | rfl | rfl)
  all_goals
    simp only [bits, Sys2Proof.encode, hx]
    omega

theorem unpackr565 (c : Half) : Statement (.unpackr565 c) := by
  have hc := c.isLt
  refine ⟨rfl, rfl, by simp [entry], ?_⟩
  simp only [entry, List.mem_cons, List.not_mem_nil, or_false]
  rintro f rfl
  simp only [bits, Sys2Proof.encode]
  omega

theorem unpackg565 (c : Half) : Statement (.unpackg565 c) := by
  refine ⟨rfl, rfl, by simp [entry], ?_⟩
  simp only [entry, List.mem_cons, List.not_mem_nil, or_false]
  rintro f rfl
  simp [bits, Sys2Proof.encode]

theorem unpackb565 (c : Half) : Statement (.unpackb565 c) := by
  refine ⟨rfl, rfl, by simp [entry], ?_⟩
  simp only [entry, List.mem_cons, List.not_mem_nil, or_false]
  rintro f rfl
  simp [bits, Sys2Proof.encode]

end Sys2Proof.Laws.TableRow
end

