-- ==== Sys2Proof/Laws/Run.lean ====
section
/-! SUPPORT. Runs of several steps, one step at a time; the step of a busy engine whose script is empty. -/

namespace Sys2Proof.Machine

theorem run_zero (s : State) : core.run 0 s = .next s := rfl

/-- One step of a run, for any machine behind the host's interface. -/
theorem run_succ_next (M : Host.Core) {s t : M.State} (h : M.step s = .next t) (k : Nat) :
    M.run (k + 1) s = M.run k t := by
  simp only [Host.Core.run, h]

theorem run_succ_fault (M : Host.Core) {s : M.State} {r : M.Fault} (h : M.step s = .fault r) (k : Nat) :
    M.run (k + 1) s = .fault r := by
  simp only [Host.Core.run, h]

theorem run_succ_refused (M : Host.Core) {s : M.State} {r : M.Refusal} (h : M.step s = .refused r) (k : Nat) :
    M.run (k + 1) s = .refused r := by
  simp only [Host.Core.run, h]

theorem run_succ {s t : State} (h : step s = .next t) (k : Nat) : core.run (k + 1) s = core.run k t :=
  run_succ_next core h k

theorem run_add {s t : State} {k : Nat} (h : core.run k s = .next t) (n : Nat) :
    core.run (k + n) s = core.run n t := by
  induction k generalizing s with
  | zero =>
    cases h
    rw [Nat.zero_add]
  | succ k ih =>
    cases hs : step s with
    | next u =>
      rw [run_succ hs] at h
      rw [Nat.add_right_comm, run_succ hs]
      exact ih h
    | fault r =>
      rw [run_succ_fault core hs] at h
      cases h
    | refused r =>
      rw [run_succ_refused core hs] at h
      cases h

/-- With no turn left and the engine busy, a step is the meaning of the phase. -/
theorem step_busy {s : State} {i : Instr} (hs : s.script = []) (hb : s.state = .busy)
    (hd : decode (.phase s.phase) = .ok i) : step s = exec i s := by
  apply step_of_run
  rw [nextWork_nil hs]
  exact engineWork_busy hb hd

end Sys2Proof.Machine
end

