-- ==== Sys2Proof/Laws/Turns.lean ====
section
/-! SUPPORT. One lemma for each case of each operation a turn is made of, and what presenting an instruction's bits does. -/

namespace Sys2Proof.Machine

open Sys2Proof.Safety

/-! ### Register writes (46_host_commands.md R153, R154) -/

theorem writeWork_busy {s : State} {off : Nat} {v : Word} (hb : s.state = .busy) :
    writeWork off v s = .done (.next s) := by
  unfold writeWork
  rw [if_pos hb]

theorem writeWork_command {s : State} {v : Word} (hb : s.state ≠ .busy) : writeWork 0 v s = commandWork v s := by
  unfold writeWork
  rw [if_neg hb, if_pos rfl]

theorem writeWork_register {s : State} {off : Nat} {v : Word} (hb : s.state ≠ .busy) (ho : off ≠ 0) :
    writeWork off v s = .done (.next (s.writeReg off v)) := by
  unfold writeWork
  rw [if_neg hb, if_neg ho]

theorem commandWork_accepted {s : State} {v : Word} {i : Instr} (hd : decode (.cmd v) = .ok i) :
    commandWork v s = .run i s := by
  unfold commandWork
  rw [hd]

theorem commandWork_reserved {s : State} {v : Word} {e : DecodeError} (hd : decode (.cmd v) = .error e) :
    commandWork v s = .done (.next (s.raise .illegalCommand)) := by
  unfold commandWork
  rw [hd]

/-- A register write changes `WIDTH` and `HEIGHT` at most. -/
theorem writeReg_cases (s : State) (off : Nat) (v : Word) :
    (off = 2 ∧ s.writeReg off v = s.setWidth (v.extractLsb' 0 16)) ∨
    (off = 3 ∧ s.writeReg off v = s.setHeight (v.extractLsb' 0 16)) ∨ s.writeReg off v = s := by
  match off with
  | 0 => exact .inr (.inr rfl)
  | 1 => exact .inr (.inr rfl)
  | 2 => exact .inl ⟨rfl, rfl⟩
  | 3 => exact .inr (.inl ⟨rfl, rfl⟩)
  | n + 4 => exact .inr (.inr rfl)

/-! ### Host accesses to the memories (R159, 70_reset_and_hazards.md R194, R195) -/

theorem hostSrcWrite_next {a : Nat} {b : Byte} {s t : State} (h : hostSrcWrite a b s = .next t) :
    s.state ≠ .busy ∧ s.srcBacked a = true ∧ t = s.storeSrc a b := by
  unfold hostSrcWrite at h
  split at h
  · cases h
  · split at h <;> cases h
    exact ⟨‹_›, ‹_›, rfl⟩

theorem hostSrcRead_next {a : Nat} {s t : State} (h : hostSrcRead a s = .next t) :
    s.state ≠ .busy ∧ s.srcBacked a = true ∧ t = s.setHostData ((s.src.read a).setWidth 32) := by
  unfold hostSrcRead at h
  split at h
  · cases h
  · split at h <;> cases h
    exact ⟨‹_›, ‹_›, rfl⟩

theorem hostDstWrite_next {i : Nat} {v : Word} {s t : State} (h : hostDstWrite i v s = .next t) :
    s.state ≠ .busy ∧ s.dstBacked i = true ∧ t = s.storeWord i v := by
  unfold hostDstWrite at h
  split at h
  · cases h
  · split at h <;> cases h
    exact ⟨‹_›, ‹_›, rfl⟩

theorem hostDstRead_next {i : Nat} {s t : State} (h : hostDstRead i s = .next t) :
    s.state ≠ .busy ∧ s.dstBacked i = true ∧ t = s.setHostData (s.dst.readWord i) := by
  unfold hostDstRead at h
  split at h
  · cases h
  · split at h <;> cases h
    exact ⟨‹_›, ‹_›, rfl⟩

/-! ### Reset (70_reset_and_hazards.md R190, R191) -/

theorem assertReset_next {b : Bool} {s t : State} (h : assertReset b s = .next t) :
    t = s.resetRegisters ∨
      ∃ i w, b = true ∧ s.firstWrite = some (i, w) ∧ s.dstBacked i = true ∧
        t = (s.storeWord i w).resetRegisters := by
  unfold assertReset at h
  cases b with
  | false =>
    rw [if_neg (by decide)] at h
    cases h
    exact .inl rfl
  | true =>
    rw [if_pos rfl] at h
    cases hw : s.firstWrite with
    | none =>
      rw [hw] at h
      cases h
      exact .inl rfl
    | some iw =>
      obtain ⟨i, w⟩ := iw
      rw [hw] at h
      simp only at h
      split at h <;> cases h
      exact .inr ⟨i, w, rfl, rfl, ‹_›, rfl⟩

/-- Only a `BUSY` engine has a write that could be in flight. -/
theorem firstWrite_of_not_busy {s : State} (h : s.state ≠ .busy) : s.firstWrite = none := by
  unfold State.firstWrite State.portAccesses
  rw [if_neg h]
  rfl

/-- Every turn that asserts `rst` on a block that is not `BUSY` is the same reset, whatever the host presents. -/
theorem step_assertsReset {s : State} {x : Turn} {rest : List Turn} (hs : s.script = x :: rest)
    (hx : x.assertsReset = true) (hb : s.state ≠ .busy) : step s = .next (s.setScript rest).resetRegisters := by
  apply step_of_done
  rw [nextWork_cons hs]
  cases x with
  | rst b =>
    have hw := firstWrite_of_not_busy (s := s.setScript rest) hb
    cases b <;> simp only [turnWork, assertReset, hw, if_true, Bool.false_eq_true, if_false]
  | rstWr off v => rfl
  | rstRd off => rfl
  | _ => cases hx

/-- Holding a reset adds nothing to it. -/
@[simp] theorem State.resetRegisters_resetRegisters (s : State) (ts : List Turn) :
    (s.resetRegisters.setScript ts).resetRegisters = (s.setScript ts).resetRegisters := rfl

/-! ### Presenting an instruction's bits (log 3) -/

theorem State.stopped_state (s : State) : s.stopped.state ≠ .busy := by
  unfold State.stopped
  split
  · exact fun h => nomatch h
  · assumption

theorem State.runningPhase_state (s : State) (p : BitVec 4) : (s.runningPhase p).state = .busy := by
  unfold State.runningPhase
  split <;> rfl

theorem State.runningPhase_phase (s : State) (p : BitVec 4) : (s.runningPhase p).phase = p := by
  unfold State.runningPhase
  split <;> rfl

/-- What is presented is what the next step runs. -/
theorem nextWork_presenting {s : State} {c : Code} {i : Instr} (hd : decode c = .ok i) :
    ∃ t, nextWork (s.presenting c) = .run i t ∧ t.script = s.script := by
  cases c with
  | cmd v =>
    refine ⟨s.stopped.setScript s.script, ?_, rfl⟩
    rw [nextWork_cons (s := s.presenting (.cmd v)) rfl]
    change writeWork 0 v (s.stopped.setScript s.script) = _
    rw [writeWork_command (s := s.stopped.setScript s.script) s.stopped_state, commandWork_accepted hd]
  | phase p =>
    by_cases hp : p = Phase.idle
    · subst hp
      cases hd
      refine ⟨(s.stopped.goto Phase.idle).setScript s.script, ?_, rfl⟩
      exact engineWork_idle (s := (s.stopped.goto Phase.idle).setScript s.script) s.stopped_state
    · refine ⟨(s.runningPhase p).setScript s.script, ?_, rfl⟩
      have he : s.presenting (.phase p) = (s.runningPhase p).setScript (.engine :: s.script) := by
        unfold State.presenting
        simp only
        rw [if_neg hp]
      rw [he]
      exact engineWork_busy (s := (s.runningPhase p).setScript s.script) (s.runningPhase_state p)
        (by rw [State.setScript_phase, s.runningPhase_phase p, hd])
  | pack x =>
    cases hd
    exact ⟨s.setScript s.script, rfl, rfl⟩
  | unpack ch x =>
    cases ch <;> (cases hd; exact ⟨s.setScript s.script, rfl, rfl⟩)

/-- After `withFetchWord`, the very next step runs the instruction the decoder reads from the word. -/
theorem step_withFetchWord {s : State} {nbits w : Nat} {i : Instr} (h : decodeTableWord nbits w = some i) :
    ∃ t, step (s.withFetchWord nbits w) = exec i t ∧ t.script = s.script := by
  unfold decodeTableWord at h
  cases hc : tableCode nbits w with
  | none => rw [hc] at h; cases h
  | some c =>
    rw [hc] at h
    simp only at h
    cases hd : decode c with
    | error e => rw [hd] at h; cases h
    | ok j =>
      rw [hd] at h
      cases h
      obtain ⟨t, ht, hs⟩ := nextWork_presenting (s := s) hd
      refine ⟨t, ?_, hs⟩
      unfold State.withFetchWord
      rw [hc]
      exact step_of_run ht

end Sys2Proof.Machine
end

