-- ==== Sys2Proof/Tests/Slice0.lean ====
section
/-! SUPPORT. Tests with expected values from 95_test_vectors.md and the rules' own examples, the well-formedness smoke
tests, and a witness for the hypotheses of every obligation that has any. -/

namespace Sys2Proof.Tests

open Sys2Proof
open Sys2Proof.Machine
open Sys2Proof.Safety

/-! ### Reading an outcome -/

def after (o : Host.Outcome State Fault Refusal) : Option State :=
  match o with
  | .next t => some t
  | .fault _ => none
  | .refused _ => none

def stuckBy (o : Host.Outcome State Fault Refusal) : Option Fault :=
  match o with
  | .next _ => none
  | .fault r => some r
  | .refused _ => none

def refusedBy (o : Host.Outcome State Fault Refusal) : Option Refusal :=
  match o with
  | .next _ => none
  | .fault _ => none
  | .refused r => some r

/-! ### Small states -/

/-- A busy engine about to run phase `p`. -/
def busy (p : BitVec 4) : State := { State.reset with state := .busy, phase := p }

/-- An idle machine with these turns to come. -/
def idle (ts : List Turn) : State := { State.reset with script := ts }

/-- A 4×4 image of one colour, alpha 255. -/
def solid (r g b : Byte) : Memory :=
  (List.range 16).flatMap (fun p => [(4 * p, r), (4 * p + 1, g), (4 * p + 2, b), (4 * p + 3, 255#8)])

/-- The grey ramp "block G" of 41_block_analyzer.md. -/
def greyRamp : Vector Rgb 16 :=
  Vector.ofFn (fun k : Fin 16 => ⟨BitVec.ofNat 8 (16 * k.val), BitVec.ofNat 8 (16 * k.val), BitVec.ofNat 8 (16 * k.val)⟩)

/-- The palette of block G (42_palette.md R110, example). -/
def greyPalette : Vector Rgb 4 :=
  #v[⟨231#8, 227#8, 231#8⟩, ⟨8#8, 12#8, 8#8⟩, ⟨156#8, 155#8, 156#8⟩, ⟨82#8, 83#8, 82#8⟩]

def fetching : State :=
  { busy 2#4 with width := 4#16, height := 4#16, src := solid 200#8 100#8 50#8, cfg := ⟨64, 2⟩ }

/-- The last block of a 4×4 all-black image, stored and about to be counted. -/
def lastBlock : State :=
  { busy 11#4 with width := 4#16, height := 4#16, degen := true, cfg := ⟨64, 2⟩ }

def failed : State := { idle [] with state := .doneErr, cause := 1#4 }

/-! ### Decoding: words written out from 30_encoding.md R60, R64 and 40_color_codec.md R80 to R83 -/

theorem test_decode_nop : decode (.cmd 0b00000000000000000000000000000000#32) = .ok .nop := by decide
theorem test_decode_compress : decode (.cmd 0b00000000000000000000000000000001#32) = .ok .compress := by decide
theorem test_decode_tfill : decode (.cmd 0b00000000000000000000000000000010#32) = .ok .tfill := by decide
theorem test_decode_clear : decode (.cmd 0b00000000000000000000000000000011#32) = .ok .clear := by decide

theorem test_decode_phases :
    decode (.phase 0b0000#4) = .ok .idle ∧ decode (.phase 0b0001#4) = .ok .check ∧
    decode (.phase 0b0010#4) = .ok .fetch ∧ decode (.phase 0b0011#4) = .ok .bbox ∧
    decode (.phase 0b0100#4) = .ok .inset ∧ decode (.phase 0b0101#4) = .ok .endpt ∧
    decode (.phase 0b0110#4) = .ok .order ∧ decode (.phase 0b0111#4) = .ok .palette ∧
    decode (.phase 0b1000#4) = .ok .index ∧ decode (.phase 0b1001#4) = .ok .encode ∧
    decode (.phase 0b1010#4) = .ok .store ∧ decode (.phase 0b1011#4) = .ok .next ∧
    decode (.phase 0b1100#4) = .ok .fill := by decide

/-- `{r, g, b}` = 200, 100, 50 and `c` = `0xCB26`. -/
theorem test_decode_functions :
    decode (.pack 0b110010000110010000110010#24) = .ok (.pack565 200#8 100#8 50#8) ∧
    decode (.unpack .red 0b1100101100100110#16) = .ok (.unpackr565 0xCB26#16) ∧
    decode (.unpack .green 0b1100101100100110#16) = .ok (.unpackg565 0xCB26#16) ∧
    decode (.unpack .blue 0b1100101100100110#16) = .ok (.unpackb565 0xCB26#16) := by decide

/-- R61, R65. -/
theorem test_decode_reserved :
    decode (.cmd 0x00000004#32) = .error .reservedCommand ∧ decode (.cmd 0x0000000F#32) = .error .reservedCommand ∧
    decode (.cmd 0x00000010#32) = .error .reservedCommand ∧ decode (.cmd 0x80000001#32) = .error .reservedCommand ∧
    decode (.phase 0b1101#4) = .error .reservedPhase ∧ decode (.phase 0b1110#4) = .error .reservedPhase ∧
    decode (.phase 0b1111#4) = .error .reservedPhase := by decide

theorem test_decode_table_words :
    decodeTableWord 32 2 = some .tfill ∧ decodeTableWord 8 0xC = some .fill ∧ decodeTableWord 8 0xD = none ∧
    decodeTableWord 24 0xC86432 = some (.pack565 200#8 100#8 50#8) ∧
    decodeTableWord 16 0xC800 = some (.unpackr565 0xC800#16) ∧
    decodeTableWord 16 0x0320 = some (.unpackg565 0x0320#16) ∧
    decodeTableWord 16 0x0006 = some (.unpackb565 0x0006#16) := by decide

/-- The word of each format, placed where the next step after reset reads it, is run. -/
theorem test_fetch_word :
    (after (step (State.reset.withFetchWord 32 1))).map State.phase = some 1#4 ∧
    (after (step (State.reset.withFetchWord 8 9))).map State.phase = some 10#4 ∧
    (after (step (State.reset.withFetchWord 24 0xC86432))).map State.packOut = some 0xCB26#16 ∧
    (after (step (State.reset.withFetchWord 16 0xC800))).map State.unpackOut = some 206#8 := by decide +kernel

/-! ### Well-formedness refuses what the ports cannot carry -/

theorem smoke_register_offset : (Turn.wr 8 0#32).wellFormed = false ∧ (Turn.rd 8).wellFormed = false ∧
    (Turn.rstWr 8 0#32).wellFormed = false ∧ (Turn.rstRd 8).wellFormed = false ∧
    (Turn.wr 7 0#32).wellFormed = true := by decide
theorem smoke_src_address : (Turn.srcw (2 ^ 34) 0#8).wellFormed = false ∧ (Turn.srcr (2 ^ 34)).wellFormed = false ∧
    (Turn.srcr (2 ^ 34 - 1)).wellFormed = true := by decide
theorem smoke_dst_address : (Turn.dstw (2 ^ 29) 0#32).wellFormed = false ∧ (Turn.dstr (2 ^ 29)).wellFormed = false ∧
    (Turn.dstr (2 ^ 29 - 1)).wellFormed = true := by decide
/-- U12: the host-level calls refuse dimensions of 2^16 and more. -/
theorem smoke_dimensions : dimensionsWellFormed 65536 4 = false ∧ dimensionsWellFormed 4 65536 = false ∧
    dimensionsWellFormed 65535 65535 = true ∧ compressCall 65536 4 = none ∧
    transparentImageCall 4 65536 = none := by decide
theorem smoke_instructions : Instr.wellFormed (.pack565 255#8 255#8 255#8) = true := by decide

/-! ### One step, against 95_test_vectors.md -/

/-- V1.9. -/
theorem test_pack565 : (after (exec (.pack565 200#8 100#8 50#8) State.reset)).map State.packOut = some 0xCB26#16 := by
  decide
/-- V1.6. -/
theorem test_pack565_discards : (after (exec (.pack565 7#8 3#8 7#8) State.reset)).map State.packOut = some 0#16 := by
  decide
/-- V1.24: `0xABCD` expands to (173, 121, 107). -/
theorem test_unpack_abcd :
    (after (exec (.unpackr565 0xABCD#16) State.reset)).map State.unpackOut = some 173#8 ∧
    (after (exec (.unpackg565 0xABCD#16) State.reset)).map State.unpackOut = some 121#8 ∧
    (after (exec (.unpackb565 0xABCD#16) State.reset)).map State.unpackOut = some 107#8 := by decide
/-- V1.26 to V1.31: the top and the bottom bit of each field. -/
theorem test_unpack_edges :
    expand565 0x8000#16 = ⟨132#8, 0#8, 0#8⟩ ∧ expand565 0x0400#16 = ⟨0#8, 130#8, 0#8⟩ ∧
    expand565 0x0010#16 = ⟨0#8, 0#8, 132#8⟩ ∧ expand565 0x0800#16 = ⟨8#8, 0#8, 0#8⟩ ∧
    expand565 0x0020#16 = ⟨0#8, 4#8, 0#8⟩ ∧ expand565 0x0001#16 = ⟨0#8, 0#8, 8#8⟩ := by decide

/-- P1, step 2. -/
theorem test_fetch : (after (exec .fetch fetching)).map (fun t => (t.pix[15], t.phase)) =
    some (⟨200#8, 100#8, 50#8⟩, 3#4) := by decide +kernel
/-- R90's example: `WIDTH = 8`, `CNT = 1`, pixel 5 is SRC bytes 52 to 55. -/
theorem test_fetch_address : ({ busy 2#4 with width := 8#16, cnt := 1#29 } : State).pixelIndex 5 = 13 := by decide
/-- R92's example. -/
theorem test_bbox : (after (exec .bbox { busy 3#4 with pix := greyRamp })).map
    (fun t => (t.minR, t.minG, t.minB, t.maxR, t.maxG, t.maxB)) =
    some (0#8, 0#8, 0#8, 240#8, 240#8, 240#8) := by decide +kernel
/-- V2.7a, V2.7b, V2.7c: ranges 15, 16 and 255. -/
theorem test_inset : (after (exec .inset { busy 4#4 with maxR := 15#8, maxG := 16#8, maxB := 255#8 })).map
    (fun t => (t.insR, t.insG, t.insB)) = some (0#4, 1#4, 15#4) := by decide
/-- R94's example, block G. -/
theorem test_endpt : (after (exec .endpt { busy 5#4 with
      maxR := 240#8, maxG := 240#8, maxB := 240#8, insR := 15#4, insG := 15#4, insB := 15#4 })).map
    (fun t => (t.c0, t.c1)) = some (0xE71C#16, 0x0861#16) := by decide
/-- V2.7f: 255 stays 255. -/
theorem test_endpt_top : (after (exec .endpt { busy 5#4 with
      minR := 255#8, minG := 255#8, minB := 255#8, maxR := 255#8, maxG := 255#8, maxB := 255#8 })).map
    (fun t => (t.c0, t.c1)) = some (0xFFFF#16, 0xFFFF#16) := by decide
/-- R97's examples. -/
theorem test_order : (after (exec .order { busy 6#4 with c0 := 0xE71C#16, c1 := 0x0861#16 })).map
    (fun t => (t.degen, t.c0, t.phase)) = some (false, 0xE71C#16, 7#4) := by decide
theorem test_order_degenerate : (after (exec .order { busy 6#4 with c0 := 0xCB26#16, c1 := 0xCB26#16 })).map
    (fun t => (t.degen, t.phase)) = some (true, 9#4) := by decide
/-- V3.1. -/
theorem test_palette : (after (exec .palette { busy 7#4 with c0 := 0xE71C#16, c1 := 0x0861#16 })).map State.pal =
    some greyPalette := by decide +kernel
/-- R115's example, block G. -/
theorem test_index : (after (exec .index { busy 8#4 with pix := greyRamp, pal := greyPalette })).map State.idx =
    some 0x02AAFFD5#32 := by decide +kernel
/-- R117's example: a tie between entries 0 and 2 goes to 0. -/
theorem test_index_tie :
    nearest #v[⟨0#8, 4#8, 0#8⟩, ⟨0#8, 0#8, 0#8⟩, ⟨0#8, 2#8, 0#8⟩, ⟨0#8, 1#8, 0#8⟩] ⟨0#8, 3#8, 0#8⟩ = 0#2 ∧
    nearest #v[⟨0#8, 4#8, 0#8⟩, ⟨0#8, 0#8, 0#8⟩, ⟨0#8, 2#8, 0#8⟩, ⟨0#8, 1#8, 0#8⟩] ⟨0#8, 1#8, 0#8⟩ = 3#2 := by
  decide +kernel
/-- V4.5. -/
theorem test_dist : Machine.dist ⟨0#8, 0#8, 0#8⟩ ⟨255#8, 255#8, 255#8⟩ = 195075 ∧
    Machine.dist ⟨80#8, 80#8, 80#8⟩ ⟨82#8, 83#8, 82#8⟩ = 17 ∧ Machine.dist ⟨255#8, 0#8, 0#8⟩ ⟨8#8, 0#8, 8#8⟩ = 61073 := by decide
/-- R125's examples. -/
theorem test_encode : (after (exec .encode { busy 9#4 with c0 := 0xE71C#16, c1 := 0x0861#16, idx := 0x02AAFFD5#32 })).map
    (fun t => (t.w0, t.w1)) = some (0x0861E71C#32, 0x02AAFFD5#32) := by decide
theorem test_encode_degenerate : (after (exec .encode
      { busy 9#4 with c0 := 0xCB26#16, c1 := 0xCB26#16, idx := 0xDEADBEEF#32, degen := true })).map
    (fun t => (t.w0, t.w1)) = some (0xCB26CB26#32, 0#32) := by decide
/-- V5.2's byte column: block 1, offsets 8 to 15. -/
theorem test_store : (after (exec .store
      { busy 10#4 with cnt := 1#29, w0 := 0x0861F79E#32, w1 := 0x11111111#32 })).map State.dst =
    some [(8, 0x9E#8), (9, 0xF7#8), (10, 0x61#8), (11, 0x08#8), (12, 0x11#8), (13, 0x11#8), (14, 0x11#8),
      (15, 0x11#8)] := by decide +kernel
/-- R127's example, `NBLK = 2`. -/
theorem test_next_goes_on : (after (exec .next { busy 11#4 with width := 8#16, height := 4#16 })).map
    (fun t => (t.cnt, t.state, t.phase)) = some (1#29, .busy, 2#4) := by decide
theorem test_next_ends : (after (exec .next { busy 11#4 with width := 8#16, height := 4#16, cnt := 1#29 })).map
    (fun t => (t.cnt, t.state, t.phase)) = some (2#29, .doneOk, 0#4) := by decide
/-- R128's example and R133. -/
theorem test_check_width_five : (after (exec .check { busy 1#4 with width := 5#16, height := 4#16 })).map
    (fun t => (t.state, t.cause, t.phase)) = some (.doneErr, 1#4, 0#4) := by decide
theorem test_check_empty : (after (exec .check { busy 1#4 with width := 0#16, height := 4#16 })).map
    (fun t => (t.state, t.cause)) = some (.doneOk, 0#4) := by decide
/-- R146's example, `NW = 2`. -/
theorem test_fill : (after (exec .fill { busy 12#4 with width := 4#16, height := 4#16, cnt := 1#29 })).map
    (fun t => (t.dst.readWord 1, t.cnt, t.state)) = some (0xFFFFFFFF#32, 2#29, .busy) := by decide +kernel
theorem test_fill_ends : (after (exec .fill { busy 12#4 with width := 4#16, height := 4#16, cnt := 2#29 })).map
    (fun t => (t.dst, t.cnt, t.state)) = some ([], 2#29, .doneOk) := by decide
/-- V7.19 and V6.5. -/
theorem test_compress_accepted : (after (exec .compress { State.reset with state := .doneOk, degen := true, cnt := 9#29 })).map
    (fun t => (t.state, t.phase, t.cnt, t.degen)) = some (.busy, 1#4, 0#29, false) := by decide
theorem test_tfill_accepted : (after (exec .tfill failed)).map (fun t => (t.state, t.phase, t.cause)) =
    some (.busy, 12#4, 0#4) := by decide
/-- V7.10 and V7.12. -/
theorem test_nop : (after (exec .nop failed)).map (fun t => (t.state, t.cause)) = some (.doneErr, 1#4) := by decide
theorem test_clear : (after (exec .clear { failed with cnt := 7#29, degen := true })).map
    (fun t => (t.state, t.cause, t.cnt, t.degen)) = some (.idle, 0#4, 7#29, true) := by decide
/-- V7.18. -/
theorem test_busy_ignores :
    after (exec .clear (busy 3#4)) = some (busy 3#4) ∧
    after (step { busy 3#4 with script := [.wr 0 0xFFFFFFFF#32] }) = some (busy 3#4) ∧
    after (step { busy 3#4 with script := [.wr 2 8#32] }) = some (busy 3#4) := by decide +kernel
/-- R184. -/
theorem test_idle : after (exec .idle State.reset) = some State.reset := by decide +kernel
/-- V5.6: `(12,20)`, `(3,3)`, `(65535,65535)`. -/
theorem test_derived_values :
    (let s : State := { State.reset with width := 12#16, height := 20#16 }; (s.fillWords, s.blockCount)) = (30, 15) ∧
    (let s : State := { State.reset with width := 3#16, height := 3#16 }; (s.fillWords, s.blockCount)) = (1, 0) ∧
    (let s : State := { State.reset with width := 65535#16, height := 65535#16 }; (s.fillWords, s.blockCount)) =
      (536854528, 268402689) := by decide
/-- V7.1, V7.13, V7.15 to V7.17. -/
theorem test_status :
    State.reset.statusWord = 0#32 ∧
    ({ State.reset with state := .doneOk, degen := true, cnt := 1#29 } : State).statusWord = 0x102#32 ∧
    (busy 1#4).statusWord = 0x11#32 ∧ (busy 8#4).statusWord = 0x81#32 ∧ (busy 12#4).statusWord = 0xC1#32 := by decide
/-- R131's `BLOCK` on a single colour (R100). -/
theorem test_reference_block :
    Reference.block (List.replicate 16 ⟨200#8, 100#8, 50#8⟩) = (0xCB26CB26#32, 0#32) := by decide +kernel
/-- R131's `BLOCK` on block G. -/
theorem test_reference_ramp : Reference.block greyRamp.toList = (0x0861E71C#32, 0x02AAFFD5#32) := by decide +kernel

/-! ### Witnesses: what the hypotheses of each obligation ask for, met, clause by clause -/

theorem witness_DecodeAndEncodeAgree : Instr.wellFormed (.pack565 255#8 0#8 1#8) = true ∧
    decode (.phase 12#4) = .ok .fill ∧ decode (.cmd 3#32) = .ok .clear := by decide

/-- The reserved words begin at 4 and at bit 4; 3 is not one. -/
theorem witness_ReservedCommandWords :
    (idle [.wr 0 4#32]).script = [.wr 0 4#32] ∧ (idle []).state ≠ .busy ∧ (busy 2#4).state = .busy ∧
    ((4#32 : Word).toNat / 16 ≠ 0 ∨ 4 ≤ (4#32 : Word).toNat % 16) ∧
    ((16#32 : Word).toNat / 16 ≠ 0 ∨ 4 ≤ (16#32 : Word).toNat % 16) ∧
    ¬((3#32 : Word).toNat / 16 ≠ 0 ∨ 4 ≤ (3#32 : Word).toNat % 16) ∧
    (after (step (idle [.wr 0 4#32]))).map State.cause = some 2#4 ∧
    (after (step (idle [.wr 0 16#32]))).map State.cause = some 2#4 ∧
    (after (step { busy 2#4 with script := [.wr 0 4#32] })).map State.cause = some 0#4 := by decide +kernel

theorem witness_ReservedPhaseCodes :
    (EngineMoves (busy 13#4) ∧ 13 ≤ (busy 13#4).phase.toNat) ∧
    (EngineMoves { busy 15#4 with script := [.engine] } ∧ 13 ≤ (15#4 : BitVec 4).toNat) ∧
    EngineMoves { busy 14#4 with script := [.wait] } :=
  ⟨⟨⟨rfl, .inl rfl⟩, by decide⟩, ⟨⟨rfl, .inr (.inl ⟨[], rfl⟩)⟩, by decide⟩, ⟨rfl, .inr (.inr ⟨[], rfl⟩)⟩⟩

theorem witness_StepRunsTheDecodedInstruction :
    ((busy 9#4).state = .busy ∧ decode (.phase (busy 9#4).phase) = .ok .encode ∧ (busy 9#4).script = []) ∧
    ({ busy 9#4 with script := [.engine] } : State).script = [.engine] ∧
    ({ busy 9#4 with script := [.wait] } : State).script = [.wait] ∧
    ((idle [.wr 0 1#32]).state ≠ .busy ∧ decode (.cmd 1#32) = .ok .compress) ∧
    decode (.pack 0#24) = .ok (.pack565 0#8 0#8 0#8) ∧ decode (.unpack .blue 7#16) = .ok (.unpackb565 7#16) ∧
    (after (step { failed with script := [.wait] })).map (fun t => (t.hostData, t.script)) = some (3#32, []) := by
  decide

theorem witness_StatusLayout :
    (idle [.rd 1]).script = [.rd 1] ∧ (idle [.wr 1 0xFFFFFFFF#32]).script = [.wr 1 0xFFFFFFFF#32] ∧
    (after (step { busy 8#4 with degen := true, script := [.rd 1] })).map State.hostData = some 0x181#32 ∧
    (after (step { failed with script := [.rd 1] })).map State.hostData = some 0x3#32 := by decide

/-- Each register at its widest value, and the first and a later reserved offset. -/
theorem witness_RegisterReads :
    let s : State := { State.reset with width := 0xFFFF#16, height := 0xFFFF#16, cause := 2#4, cnt := 0x1FFFFFFF#29 }
    [0, 2, 3, 4, 5, 6, 7, 8].map (fun off => (after (step { s with script := [.rd off] })).map State.hostData) =
      [some 0#32, some 0xFFFF#32, some 0xFFFF#32, some 2#32, some 0x1FFFFFFF#32, some 0#32, some 0#32, some 0#32] := by
  decide +kernel

/-- V7.3 to V7.5, and a busy machine. -/
theorem witness_RegisterWrites :
    (after (step (idle [.wr 2 0x00010004#32]))).map State.width = some 4#16 ∧
    (after (step (idle [.wr 3 0xFFFFFFFF#32]))).map State.height = some 0xFFFF#16 ∧
    after (step (idle [.wr 1 0xFFFFFFFF#32])) = some (idle []) ∧
    after (step (idle [.wr 4 5#32])) = some (idle []) ∧
    after (step (idle [.wr 7 1#32])) = some (idle []) ∧
    (after (step { busy 2#4 with script := [.wr 3 8#32] })).map State.height = some 0#16 := by decide +kernel

/-- Every accepted word, the first reserved one, and a busy machine. -/
theorem witness_CommandAcceptance :
    (after (step (idle [.wr 0 0#32]))).map State.phase = some 0#4 ∧
    (after (step (idle [.wr 0 1#32]))).map State.phase = some 1#4 ∧
    (after (step (idle [.wr 0 2#32]))).map State.phase = some 12#4 ∧
    (after (step { failed with script := [.wr 0 3#32] })).map State.state = some .idle ∧
    (after (step (idle [.wr 0 4#32]))).map State.state = some .doneErr ∧
    (after (step { busy 5#4 with script := [.wr 0 3#32] })).map State.phase = some 5#4 := by decide

theorem witness_CommandsComplete : (busy 1#4).state = .busy ∧ failed.state ≠ .busy := by decide

theorem witness_IdleEngineStands : ((idle []).state ≠ .busy ∧ (idle []).script = []) ∧
    failed.state ≠ .busy ∧ ({ failed with script := [.engine] } : State).script = [.engine] := by decide

theorem witness_OutputsFollowState : (idle []).state = .idle ∧ (busy 1#4).state = .busy ∧
    ({ idle [] with state := .doneOk } : State).state = .doneOk ∧ failed.state = .doneErr := by decide

/-- Remainders 1 and 3, zero, and the least and the greatest accepted size. -/
theorem witness_CheckPhase :
    (after (exec .check { busy 1#4 with width := 4#16, height := 7#16 })).map State.state = some .doneErr ∧
    (after (exec .check { busy 1#4 with width := 4#16, height := 0#16 })).map State.state = some .doneOk ∧
    (after (exec .check { busy 1#4 with width := 4#16, height := 4#16 })).map State.phase = some 2#4 ∧
    (after (exec .check { busy 1#4 with width := 65532#16, height := 65532#16 })).map State.phase = some 2#4 := by
  decide

theorem witness_FaultsDoNotNest : failed.state = .doneErr ∧
    ({ failed with script := [.engine] } : State).script = [.engine] ∧
    (after (step { failed with script := [.wr 0 5#32] })).map (fun t => (t.state, t.cause)) = some (.doneErr, 2#4) := by
  decide

theorem witness_FaultPersists : failed.state = .doneErr ∧ failed.cause ≠ 0#4 ∧
    (after (step { failed with script := [.wr 2 8#32] })).map State.cause = some 1#4 ∧
    (after (step { failed with script := [.wr 0 3#32] })).map State.cause = some 0#4 ∧
    (after (step { failed with script := [.rst false] })).map State.cause = some 0#4 := by decide

theorem witness_FaultsArePrecise : (busy 1#4).state ≠ .doneErr ∧
    (after (step { busy 1#4 with width := 5#16 })).map State.state = some .doneErr ∧
    (idle [.wr 0 4#32]).state ≠ .doneErr ∧
    (after (step (idle [.wr 0 4#32]))).map State.state = some .doneErr := by decide

theorem witness_PackIsMonotone : (8#8 : Byte).toNat ≤ (255#8 : Byte).toNat ∧ (0#8 : Byte).toNat ≤ (0#8 : Byte).toNat := by
  decide

/-- A 4×4 image in exactly 64 bytes of SRC, and no block column with all of SRC backed. -/
theorem witness_FetchLoadsTheBlock : State.reset.width.toNat < 4 ∧ 4 ≤ fetching.width.toNat ∧
    ∀ row < 4, ∀ col < 4,
      let p := (4 * (fetching.cnt.toNat / (fetching.width.toNat / 4)) + row) * fetching.width.toNat
        + (4 * (fetching.cnt.toNat % (fetching.width.toNat / 4)) + col)
      4 * p + 3 < fetching.cfg.srcSize ∧ 4 * p + 3 < 2 ^ 34 := by decide

/-- The widest image without a block column, in exactly 2^20 bytes; and the empty one. -/
theorem witness_FetchRunsWithoutABlockColumn :
    (let s : State := { busy 2#4 with width := 3#16, cfg := ⟨2 ^ 20, 0⟩ }
     s.width.toNat < 4 ∧ 2 ^ 20 ≤ s.cfg.srcSize) ∧
    (busy 2#4).width.toNat < 4 ∧ 2 ^ 20 ≤ (busy 2#4).cfg.srcSize := by decide

/-- One byte short; and nothing backed, where every place is unbacked. -/
theorem witness_FetchIsStuckUnbacked :
    stuckBy (exec .fetch { fetching with cfg := ⟨63, 2⟩ }) = some .srcUnbacked ∧
    ∀ a, ({ fetching with width := 3#16, cfg := ⟨0, 2⟩ } : State).cfg.srcSize ≤ a :=
  ⟨by decide +kernel, fun _ => Nat.zero_le _⟩

/-- Two images that differ in the alpha byte of the first pixel, and only there. -/
theorem witness_AlphaDoesNotInterfere :
    let s : State := { fetching with src := [(0, 9#8)] }
    let s' : State := { fetching with src := [(0, 9#8), (3, 77#8)] }
    s.src.read 3 ≠ s'.src.read 3 ∧ s.width = s'.width ∧ s.cnt = s'.cnt ∧
    (∀ a, a % 4 ≠ 3 → s.src.read a = s'.src.read a) ∧
    (after (exec .fetch s)).isSome = true ∧ (after (exec .fetch s')).isSome = true := by
  refine ⟨by decide, rfl, rfl, fun a ha => ?_, ?_, ?_⟩
  · have : a ≠ 3 := by omega
    simp [Memory.read, this]
  · decide +kernel
  · decide +kernel

/-- Equal, and the full range. -/
theorem witness_InsetIsASixteenth :
    ({ busy 4#4 with minR := 255#8, maxR := 255#8 } : State).minR.toNat ≤
      ({ busy 4#4 with minR := 255#8, maxR := 255#8 } : State).maxR.toNat ∧
    (insetOf 0#8 255#8).toNat = 15 ∧ (insetOf 255#8 255#8).toNat = 0 ∧ (insetOf 0#8 16#8).toNat = 1 := by decide

theorem witness_ClampsNeverClamp : (0#8 : Byte).toNat ≤ (255#8 : Byte).toNat ∧ (255#8 : Byte).toNat ≤ (255#8 : Byte).toNat ∧
    adjustedHi 255#8 (insetOf 0#8 255#8) = 240#8 ∧ adjustedLo 255#8 (insetOf 255#8 255#8) = 255#8 := by decide

/-- Equal, one above, one below. -/
theorem witness_OrderPhase :
    (after (exec .order { busy 6#4 with c0 := 5#16, c1 := 5#16 })).map State.phase = some 9#4 ∧
    (after (exec .order { busy 6#4 with c0 := 6#16, c1 := 5#16 })).map State.c0 = some 6#16 ∧
    (after (exec .order { busy 6#4 with c0 := 5#16, c1 := 6#16 })).map State.c0 = some 6#16 := by decide

theorem witness_ExchangeIsDead :
    let s : State := { busy 5#4 with
      maxR := 240#8, maxG := 240#8, maxB := 240#8, insR := 15#4, insG := 15#4, insB := 15#4 }
    s.minR.toNat ≤ s.maxR.toNat ∧ s.minG.toNat ≤ s.maxG.toNat ∧ s.minB.toNat ≤ s.maxB.toNat ∧
    s.insR.toNat = (s.maxR.toNat - s.minR.toNat) / 16 ∧ s.insG.toNat = (s.maxG.toNat - s.minG.toNat) / 16 ∧
    s.insB.toNat = (s.maxB.toNat - s.minB.toNat) / 16 ∧
    ((after (exec .endpt s)).bind (fun t => after (exec .order t))).map State.degen = some false := by decide

/-- Fields equal but for one, the endpoints one apart in blue. -/
theorem witness_PaletteEntriesAreDistinct :
    let s : State := { busy 7#4 with c0 := 0x0861#16, c1 := 0x0860#16 }
    s.c1.toNat / 2048 ≤ s.c0.toNat / 2048 ∧ s.c1.toNat / 32 % 64 ≤ s.c0.toNat / 32 % 64 ∧
    s.c1.toNat % 32 ≤ s.c0.toNat % 32 ∧ s.c0 ≠ s.c1 ∧ (after (exec .palette s)).isSome = true := by decide

theorem witness_ShortCircuitChangesNothing : (busy 7#4).c0 = (busy 7#4).c1 := by decide

theorem witness_EncodeWords : ({ busy 9#4 with degen := true } : State).degen = true ∧ (busy 9#4).degen = false := by
  decide

/-- Exactly the two words of block 3 backed. -/
theorem witness_StoreWritesTheBlock :
    let s : State := { busy 10#4 with cnt := 3#29, cfg := ⟨0, 8⟩ }
    s.dst.wf = true ∧ 2 * s.cnt.toNat + 1 < s.cfg.dstSize ∧ 2 * s.cnt.toNat + 1 < 2 ^ 29 := by decide

/-- One word short. -/
theorem witness_WritesAreStuckUnbacked :
    stuckBy (exec .store { busy 10#4 with cnt := 3#29, cfg := ⟨0, 7⟩ }) = some .dstUnbacked ∧
    stuckBy (exec .fill { busy 12#4 with width := 4#16, height := 4#16, cfg := ⟨0, 0⟩ }) = some .dstUnbacked := by decide

theorem witness_NextPhase :
    (busy 11#4).cnt.toNat + 1 < 2 ^ 29 ∧
    (let s : State := { busy 11#4 with width := 4#16, height := 4#16 }
     s.cnt.toNat + 1 = s.width.toNat / 4 * (s.height.toNat / 4)) ∧
    (let s : State := { busy 11#4 with width := 8#16, height := 4#16 }
     s.cnt.toNat + 1 ≠ s.width.toNat / 4 * (s.height.toNat / 4)) := by decide

/-- `NW = 0`, and the last word, exactly backed. -/
theorem witness_FillPhase :
    (busy 12#4).cnt.toNat = (busy 12#4).width.toNat * (busy 12#4).height.toNat / 8 ∧
    (let s : State := { busy 12#4 with width := 4#16, height := 4#16, cnt := 1#29, cfg := ⟨0, 2⟩ }
     s.cnt.toNat ≠ s.width.toNat * s.height.toNat / 8 ∧ s.dst.wf = true ∧ s.cnt.toNat < s.cfg.dstSize ∧
       s.cnt.toNat + 1 < 2 ^ 29) := by decide

theorem witness_SingleColourBlock :
    let s : State := { busy 3#4 with pix := Vector.replicate 16 ⟨200#8, 100#8, 50#8⟩ }
    s.state = .busy ∧ s.script = [] ∧ s.phase = 3#4 ∧ s.pix = Vector.replicate 16 ⟨200#8, 100#8, 50#8⟩ :=
  ⟨rfl, rfl, rfl, rfl⟩

theorem witness_WordsAreLittleEndian : Memory.wf [(0, 1#8), (4, 2#8)] = true := by decide

/-- The last backed byte and word. -/
theorem witness_HostMemoryAccesses :
    (let s : State := { idle [.srcw 63 9#8] with cfg := ⟨64, 2⟩ }
     s.state ≠ .busy ∧ s.src.wf = true ∧ s.dst.wf = true ∧ 63 < s.cfg.srcSize ∧ 63 < 2 ^ 34 ∧
       (after (step s)).map State.src = some [(63, 9#8)]) ∧
    (after (step { fetching with state := .doneOk, script := [.srcr 63] })).map State.hostData = some 255#32 ∧
    (after (step { idle [.dstw 1 0xDEADBEEF#32] with cfg := ⟨64, 2⟩ })).map (fun t => t.dst.readWord 1) =
      some 0xDEADBEEF#32 ∧
    (after (step { idle [.dstr 1] with cfg := ⟨64, 2⟩, dst := [(4, 7#8)] })).map State.hostData = some 7#32 := by
  decide +kernel

theorem witness_HostMemoryRefusedWhileBusy :
    refusedBy (step { busy 2#4 with script := [.srcw 0 1#8] }) = some .hostSrcWhileBusy ∧
    refusedBy (step { busy 2#4 with script := [.srcr 0] }) = some .hostSrcWhileBusy ∧
    refusedBy (step { busy 2#4 with script := [.dstw 0 1#32] }) = some .hostDstWhileBusy ∧
    refusedBy (step { busy 2#4 with script := [.dstr 0] }) = some .hostDstWhileBusy := by decide

theorem witness_PhasesIssueTheirTransactions :
    (EngineMoves fetching ∧ (after (step fetching)).isSome = true ∧ fetching.phase = 2#4) ∧
    (EngineMoves (busy 10#4) ∧ (after (step (busy 10#4))).isSome = true) ∧
    (EngineMoves (busy 12#4) ∧ (after (step (busy 12#4))).isSome = true ∧
      (busy 12#4).cnt.toNat = (busy 12#4).width.toNat * (busy 12#4).height.toNat / 8) ∧
    (let s : State := { busy 12#4 with width := 4#16, height := 4#16, cnt := 1#29 }
     EngineMoves s ∧ (after (step s)).isSome = true ∧ s.cnt.toNat ≠ s.width.toNat * s.height.toNat / 8) ∧
    (EngineMoves (busy 3#4) ∧ (after (step (busy 3#4))).isSome = true) :=
  ⟨⟨⟨rfl, .inl rfl⟩, by decide +kernel, rfl⟩, ⟨⟨rfl, .inl rfl⟩, by decide +kernel⟩,
    ⟨⟨rfl, .inl rfl⟩, by decide +kernel, by decide⟩, ⟨⟨rfl, .inl rfl⟩, by decide +kernel, by decide⟩,
    ⟨⟨rfl, .inl rfl⟩, by decide +kernel⟩⟩

theorem witness_ResetAbortsTheCommand :
    ({ busy 8#4 with script := [.rst false] } : State).script = [.rst false] ∧
    (let s : State := { busy 10#4 with cnt := 3#29, cfg := ⟨0, 7⟩, w0 := 1#32, script := [.rst true] }
     s.script = [.rst true] ∧ s.state = .busy ∧ s.phase = 10#4 ∧ 2 * s.cnt.toNat < s.cfg.dstSize ∧
       2 * s.cnt.toNat < 2 ^ 29 ∧ (after (step s)).map State.dst = some [(24, 1#8)]) ∧
    (after (step { busy 8#4 with width := 4#16, script := [.rstWr 0 1#32] })).map (fun t => (t.state, t.width)) =
      some (.idle, 0#16) ∧
    (after (step { failed with script := [.rstRd 4] })).map (fun t => (t.state, t.hostData)) = some (.idle, 0#32) ∧
    stuckBy (step { busy 10#4 with cnt := 3#29, cfg := ⟨0, 6⟩, script := [.rst true] }) = some .dstUnbacked ∧
    (let s : State :=
       { busy 12#4 with width := 4#16, height := 4#16, cnt := 1#29, cfg := ⟨0, 2⟩, script := [.rst true] }
     s.state = .busy ∧ s.phase = 12#4 ∧ s.cnt.toNat ≠ s.width.toNat * s.height.toNat / 8 ∧
       s.cnt.toNat < s.cfg.dstSize ∧
       (after (step s)).map State.dst = some [(4, 255#8), (5, 255#8), (6, 255#8), (7, 255#8)]) ∧
    stuckBy (step { busy 12#4 with width := 4#16, height := 4#16, cnt := 1#29, cfg := ⟨0, 1⟩, script := [.rst true] }) =
      some .dstUnbacked ∧
    (after (step { busy 12#4 with cnt := 0#29, script := [.rst true] })).map State.state = some .idle ∧
    (after (step { failed with phase := 10#4, script := [.rst true] })).map State.dst = some [] ∧
    (after (step { busy 8#4 with cnt := 9#29, script := [.rst true] })).map (fun t => (t.state, t.cnt)) =
      some (.idle, 0#29) := by decide +kernel

/-- A command, an operand and a read presented under `rst`, and `COMPRESS` released right after it. -/
theorem witness_HeldResetIsOneReset :
    let held : List Turn := [.rstWr 0 1#32, .rstWr 2 8#32, .rstRd 1, .rst true]
    let s : State := { busy 10#4 with w0 := 1#32, hostData := 7#32, script := .rst true :: (held ++ [.wr 0 1#32]) }
    (∀ x ∈ held, (∃ b', x = .rst b') ∨ (∃ off v, x = .rstWr off v) ∨ ∃ off, x = .rstRd off) ∧
    (after (step { s with script := [.rst true, .wr 0 1#32] })).map (fun t => (t.state, t.dst)) =
      some (.idle, [(0, 1#8)]) ∧
    (after (core.run 5 s)).map (fun t => (t.state, t.width, t.hostData, t.dst)) =
      some (.idle, 0#16, 7#32, [(0, 1#8)]) ∧
    (after (core.run 6 s)).map State.phase = some 1#4 := by
  refine ⟨?_, by decide +kernel, by decide +kernel, by decide +kernel⟩
  intro x hx
  simp only [List.mem_cons, List.not_mem_nil, or_false] at hx
  rcases hx with rfl | rfl | rfl | rfl
  · exact .inr (.inl ⟨_, _, rfl⟩)
  · exact .inr (.inl ⟨_, _, rfl⟩)
  · exact .inr (.inr ⟨_, rfl⟩)
  · exact .inl ⟨_, rfl⟩

/-- By a command, by each phase that ends one, by reset. -/
theorem witness_OnlyTheseWriteState :
    (after (step (idle [.wr 0 2#32]))).map State.state = some .busy ∧
    (after (step (busy 1#4))).map State.state = some .doneOk ∧
    (after (step lastBlock)).map State.state = some .doneOk ∧
    (after (step (busy 12#4))).map State.state = some .doneOk ∧
    (after (step { busy 5#4 with script := [.rst false] })).map State.state = some .idle := by decide

theorem witness_OperandsHoldWhileBusy :
    let s : State := { busy 3#4 with script := [.wr 2 8#32] }
    s.state = .busy ∧ ¬Resets s ∧ (after (step s)).isSome = true := by
  refine ⟨rfl, ?_, by decide⟩
  rintro ⟨x, rest, h, hx⟩
  cases h
  cases hx

/-- By `NEXT`, by `FILL`, by acceptance, by reset. -/
theorem witness_CounterRules :
    (after (step lastBlock)).map State.cnt = some 1#29 ∧
    (after (step { busy 12#4 with width := 4#16, height := 4#16 })).map State.cnt = some 1#29 ∧
    (after (step { idle [.wr 0 2#32] with cnt := 9#29 })).map State.cnt = some 0#29 ∧
    (after (step { busy 8#4 with cnt := 9#29, script := [.rst false] })).map State.cnt = some 0#29 := by decide +kernel

theorem witness_OnePhaseWritesEachRegister :
    ¬Resets fetching ∧ (after (step fetching)).map (fun t => decide (t.pix ≠ fetching.pix)) = some true ∧
    (after (step { busy 3#4 with pix := greyRamp })).map State.maxR = some 240#8 ∧
    (after (step { busy 4#4 with maxR := 255#8 })).map State.insR = some 15#4 ∧
    (after (step { busy 5#4 with maxR := 255#8 })).map State.c0 = some 0xF800#16 ∧
    (after (step { busy 9#4 with c0 := 1#16, c1 := 1#16 })).map State.w0 = some 0x00010001#32 ∧
    (after (step (busy 6#4))).map State.degen = some true := by
  refine ⟨?_, by decide +kernel, by decide +kernel, by decide, by decide, by decide, by decide⟩
  rintro ⟨x, rest, h, -⟩
  cases h

/-- A state in the block loop that meets the three invariants, with the step that ends the command. -/
theorem lastBlock_inv : Inv lastBlock where
  srcCanonical := by decide
  dstCanonical := by decide
  idlePhase := by decide
  legalPhase := by decide
  causeOfError := by decide
  legalCause := by decide
  checkCount := by decide
  loopWidth := fun _ => by decide
  loopHeight := fun _ => by decide
  loopCount := fun _ => by decide
  fillCount := by decide

theorem lastBlock_dataflow : Dataflow lastBlock where
  pixels := fun _ => by decide +kernel
  boxMin := fun _ => by decide +kernel
  boxMax := fun _ => by decide +kernel
  insetR := fun _ => by decide
  insetG := fun _ => by decide
  insetB := fun _ => by decide
  endpointMax := fun _ => by decide
  endpointMin := fun _ => by decide
  flag := fun _ => by decide
  longPath := fun h => absurd h.2 (by decide)
  palette := fun h => h.elim (fun h => absurd h.2 (by decide)) (fun h => absurd h.2 (by decide))
  indices := fun h => absurd h.2 (by decide)
  word0 := fun _ => by decide
  word1 := fun _ => by decide
  stored0 := fun _ => by decide
  stored1 := fun _ => by decide

theorem lastBlock_progress : Progress lastBlock := fun _ b hb => absurd hb (by simp [lastBlock, busy, State.reset])

theorem witness_StepKeepsControlInvariant : Inv lastBlock ∧ (after (step lastBlock)).isSome = true :=
  ⟨lastBlock_inv, by decide⟩

theorem witness_StepKeepsDataflow : Inv lastBlock ∧ Dataflow lastBlock ∧ (after (step lastBlock)).isSome = true :=
  ⟨lastBlock_inv, lastBlock_dataflow, by decide⟩

theorem witness_StepKeepsProgress :
    Inv lastBlock ∧ Dataflow lastBlock ∧ Progress lastBlock ∧ (after (step lastBlock)).isSome = true :=
  ⟨lastBlock_inv, lastBlock_dataflow, lastBlock_progress, by decide⟩

theorem witness_SuccessDeliversTheImage :
    Inv lastBlock ∧ Dataflow lastBlock ∧ Progress lastBlock ∧ EngineMoves lastBlock ∧ lastBlock.phase = 11#4 ∧
    (after (step lastBlock)).map State.state = some .doneOk :=
  ⟨lastBlock_inv, lastBlock_dataflow, lastBlock_progress, ⟨rfl, .inl rfl⟩, rfl, by decide⟩

/-- A 5×4 image, an empty one, and a 4×4 image in exactly 64 bytes and 2 words. -/
theorem witness_CompressComputesTheReference :
    (5#16 : BitVec 16).toNat % 4 ≠ 0 ∧ (State.reset.width.toNat = 0 ∧ State.reset.state ≠ .busy) ∧
    let s : State := { idle [] with width := 4#16, height := 4#16, cfg := ⟨64, 2⟩ }
    s.state ≠ .busy ∧ s.dst.wf = true ∧ s.width.toNat % 4 = 0 ∧ s.height.toNat % 4 = 0 ∧ s.width.toNat ≠ 0 ∧
    s.height.toNat ≠ 0 ∧ 4 * s.width.toNat * s.height.toNat ≤ s.cfg.srcSize ∧
    s.width.toNat * s.height.toNat / 8 ≤ s.cfg.dstSize := by decide

/-- V6.4: dimensions that are no multiples of 4, and V6.3: none at all. -/
theorem witness_FillComputesThePlaceholder :
    (let s : State := { idle [] with width := 5#16, height := 4#16, cfg := ⟨0, 2⟩ }
     s.state ≠ .busy ∧ s.dst.wf = true ∧ s.width.toNat * s.height.toNat / 8 ≤ s.cfg.dstSize) ∧
    (let s : State := { idle [] with height := 4#16, cfg := ⟨0, 0⟩ }
     s.state ≠ .busy ∧ s.dst.wf = true ∧ s.width.toNat * s.height.toNat / 8 ≤ s.cfg.dstSize) := by decide

end Sys2Proof.Tests
end

section
/-! What a step does, in the grain the rules about every step need: the host's turns grouped by what they may touch, the
phases grouped by what they do to the control registers, and the registers each instruction owns. -/

namespace Sys2Proof.Machine

open Sys2Proof.Safety

/-! ### Turns, grouped by what they may touch -/

/-- A host transaction outside the control registers: at most `WIDTH`, `HEIGHT` and the two memories change, and the
memories stay canonical. -/
structure HostWrote (s t : State) : Prop where
  frame : t = { s with width := t.width, height := t.height, src := t.src, dst := t.dst, script := t.script }
  srcCanonical : s.src.wf = true → t.src.wf = true
  dstCanonical : s.dst.wf = true → t.dst.wf = true

/-- The cases of `StepCase`, those with one frame taken together. -/
inductive StepKind (s t : State) : Prop where
  /-- The engine ran a phase. -/
  | engine (i : Instr) (ts : List Turn) (moves : EngineMoves s) (decoded : decode (.phase s.phase) = .ok i)
      (ran : exec i (s.setScript ts) = .next t)
  /-- Only the script and what can be observed outside changed. -/
  | outside (ts : List Turn) (w : Word) (p : Half) (u : Byte)
      (same : t = { s with script := ts, hostData := w, packOut := p, unpackOut := u })
  /-- A command was accepted. -/
  | command (v : Word) (i : Instr) (ts : List Turn) (turn : s.script = .wr 0 v :: ts) (ready : s.state ≠ .busy)
      (decoded : decode (.cmd v) = .ok i) (ran : exec i (s.setScript ts) = .next t)
  /-- A reserved command word was written. -/
  | illegal (v : Word) (ts : List Turn) (turn : s.script = .wr 0 v :: ts) (ready : s.state ≠ .busy)
      (trapped : t = (s.setScript ts).raise .illegalCommand)
  /-- The host wrote a register other than `CMD`, or a memory. -/
  | hostWrite (ready : s.state ≠ .busy) (wrote : HostWrote s t)
  /-- Reset, with or without a completed write. -/
  | reset (resets : Resets s) (m : Memory) (ts : List Turn) (canonical : s.dst.wf = true → m.wf = true)
      (done : t = { s.resetRegisters with dst := m, script := ts })

theorem StepCase.kind {s t : State} (h : StepCase s t) : StepKind s t := by
  cases h with
  | engine i ts moves decoded ran => exact .engine i ts moves decoded ran
  | quiet ts same => exact .outside ts _ _ _ same
  | command v i ts turn ready decoded ran => exact .command v i ts turn ready decoded ran
  | illegal v ts turn ready _ trapped => exact .illegal v ts turn ready trapped
  | width v ts _ ready written => subst written; exact .hostWrite ready ⟨rfl, id, id⟩
  | height v ts _ ready written => subst written; exact .hostWrite ready ⟨rfl, id, id⟩
  | observed w ts read => exact .outside ts w _ _ read
  | srcWritten a b ts ready _ written =>
    subst written
    exact .hostWrite ready ⟨rfl, fun hm => Memory.write_wf hm a b, id⟩
  | dstWritten i w ts ready _ written =>
    subst written
    exact .hostWrite ready ⟨rfl, id, fun hm => Memory.writeWord_wf hm i w⟩
  | reset x ts turn asserted done =>
    obtain done | ⟨i, w, -, -, done⟩ := done
    · exact .reset ⟨x, ts, turn, asserted⟩ s.dst ts id done
    · exact .reset ⟨x, ts, turn, asserted⟩ (s.dst.writeWord i w) ts (fun hm => Memory.writeWord_wf hm i w) done
  | packed p ts shown => exact .outside ts _ p _ shown
  | unpacked u ts shown => exact .outside ts _ _ u shown

theorem step_kind {s t : State} (h : step s = .next t) : StepKind s t := (step_cases h).kind

/-! ### Phases, grouped by what they do to the control registers -/

/-- The registers that `FETCH` to `STORE` leave alone, and SRC. -/
structure SameControl (s t : State) : Prop where
  width : t.width = s.width
  height : t.height = s.height
  state : t.state = s.state
  cause : t.cause = s.cause
  cnt : t.cnt = s.cnt
  src : t.src = s.src

/-- What a phase that answers a next state has done to the control registers and the memories. -/
inductive PhaseCase (s t : State) : Prop where
  /-- `IDLE`. -/
  | idle (phase : s.phase = Phase.idle) (same : t = s)
  /-- `CHECK` trapped. -/
  | badDimensions (phase : s.phase = Phase.check) (trapped : t = s.raise .invalidDimensions)
  /-- `CHECK` found an empty image. -/
  | emptyImage (phase : s.phase = Phase.check) (ended : t = s.finish)
  /-- `CHECK` entered the loop over the blocks. -/
  | loopEntered (phase : s.phase = Phase.check) (good : s.badDimensions = false) (blocks : s.blockCount ≠ 0)
      (entered : t = s.goto Phase.fetch)
  /-- One of `FETCH` to `ENCODE`. -/
  | datapath (here : PhaseIn s 2 9) (there : PhaseIn t 3 10) (frame : SameControl s t) (dst : t.dst = s.dst)
  /-- `STORE`. -/
  | stored (phase : s.phase = Phase.store)
      (wrote : t = ((s.storeWord s.endpointSlot s.w0).storeWord (s.endpointSlot + 1) s.w1).goto Phase.next)
  /-- `NEXT` ended the command. -/
  | lastCounted (phase : s.phase = Phase.next) (last : s.cnt.toNat + 1 = s.blockCount)
      (ended : t = (s.setCnt (nextCount s.cnt)).finish)
  /-- `NEXT` went to the next block. -/
  | counted (phase : s.phase = Phase.next) (more : s.cnt.toNat + 1 ≠ s.blockCount)
      (back : t = (s.setCnt (nextCount s.cnt)).goto Phase.fetch)
  /-- `FILL` ended the command. -/
  | fillEnded (phase : s.phase = Phase.fill) (ended : t = s.finish)
  /-- `FILL` wrote a word. -/
  | filled (phase : s.phase = Phase.fill) (more : s.cnt.toNat ≠ s.fillWords)
      (wrote : t = (s.storeWord s.fillSlot fillWord).setCnt (nextCount s.cnt))

theorem phaseIn_of_eq {s : State} {p : BitVec 4} {a b : Nat} (hp : s.phase = p) (ha : a ≤ p.toNat) (hb : p.toNat ≤ b) :
    PhaseIn s a b := by
  subst hp
  exact ⟨ha, hb⟩

/-- `PHASE` selects the instruction whose code it is. -/
theorem encode_of_decode_phase {p : BitVec 4} {i : Instr} (h : decode (.phase p) = .ok i) : encode i = .phase p := by
  rcases decode_phase_ok h with h | h | h | h | h | h | h | h | h | h | h | h | h <;>
  · obtain ⟨rfl, rfl⟩ := h
    rfl

/-- The phase that selects an instruction is the one the encoder gives it. -/
theorem phase_of_instr {p q : BitVec 4} {i j : Instr} (hd : decode (.phase p) = .ok i) (hij : i = j)
    (hj : encode j = .phase q) : p = q := by
  subst hij
  rw [encode_of_decode_phase hd] at hj
  exact Code.phase.inj hj

/-- A phase of the datapath: it leaves the control registers and the memories alone, but for `PHASE`. -/
theorem phaseCase_of_datapath {s u : State} {p q : BitVec 4} (hs : s.phase = p)
    (hp : 2 ≤ p.toNat ∧ p.toNat ≤ 9 := by decide) (hq : 3 ≤ q.toNat ∧ q.toNat ≤ 10 := by decide)
    (frame : SameControl s u := by constructor <;> simp) (hdst : u.dst = s.dst := by simp) : PhaseCase s (u.goto q) :=
  .datapath (phaseIn_of_eq hs hp.1 hp.2) hq { frame with } hdst

/-- Every phase that answers a next state is one of the cases. -/
theorem phase_cases {s t : State} {i : Instr} (hd : decode (.phase s.phase) = .ok i) (h : exec i s = .next t) :
    PhaseCase s t := by
  have he := encode_of_decode_phase hd
  have phase : ∀ {q}, encode i = .phase q → s.phase = q := fun hq => phase_of_instr hd rfl hq
  cases i with
  | nop | compress | tfill | clear | pack565 | unpackr565 | unpackg565 | unpackb565 => cases he
  | idle => exact .idle (phase rfl) (exec_idle h)
  | check =>
    obtain ⟨-, ht⟩ | ⟨-, -, ht⟩ | ⟨good, blocks, ht⟩ := exec_check h
    · exact .badDimensions (phase rfl) ht
    · exact .emptyImage (phase rfl) ht
    · exact .loopEntered (phase rfl) good blocks ht
  | fetch =>
    obtain ⟨-, rfl⟩ := exec_fetch h
    exact phaseCase_of_datapath (phase rfl)
  | bbox =>
    rw [exec_bbox h]
    exact phaseCase_of_datapath (phase rfl)
  | inset =>
    rw [exec_inset h]
    exact phaseCase_of_datapath (phase rfl)
  | endpt =>
    rw [exec_endpt h]
    exact phaseCase_of_datapath (phase rfl)
  | order =>
    obtain ⟨-, rfl⟩ | ⟨-, -, rfl⟩ | ⟨-, -, rfl⟩ := exec_order h <;> exact phaseCase_of_datapath (phase rfl)
  | palette =>
    rw [exec_palette h]
    exact phaseCase_of_datapath (phase rfl)
  | index =>
    rw [exec_index h]
    exact phaseCase_of_datapath (phase rfl)
  | encode =>
    rw [exec_encode h]
    exact phaseCase_of_datapath (phase rfl)
  | store => exact .stored (phase rfl) (exec_store h).2.2
  | next =>
    obtain ⟨last, ht⟩ | ⟨more, ht⟩ := exec_next h
    · exact .lastCounted (phase rfl) last ht
    · exact .counted (phase rfl) more ht
  | fill =>
    obtain ⟨-, ht⟩ | ⟨more, -, ht⟩ := exec_fill h
    · exact .fillEnded (phase rfl) ht
    · exact .filled (phase rfl) more ht

/-! ### Which instruction writes which register -/

/-- Each datapath register has its own instruction (10_state.md R21 to R28). -/
structure WritersOf (i : Instr) (s t : State) : Prop where
  pix : t.pix ≠ s.pix → i = .fetch
  box : (t.minR, t.minG, t.minB, t.maxR, t.maxG, t.maxB) ≠ (s.minR, s.minG, s.minB, s.maxR, s.maxG, s.maxB) → i = .bbox
  inset : (t.insR, t.insG, t.insB) ≠ (s.insR, s.insG, s.insB) → i = .inset
  endpoints : (t.c0, t.c1) ≠ (s.c0, s.c1) → i = .endpt ∨ i = .order
  pal : t.pal ≠ s.pal → i = .palette
  idx : t.idx ≠ s.idx → i = .index
  words : (t.w0, t.w1) ≠ (s.w0, s.w1) → i = .encode
  degen : t.degen ≠ s.degen → i = .order ∨ i = .compress ∨ i = .tfill

theorem exec_writersOf {i : Instr} {s t : State} (h : exec i s = .next t) : WritersOf i s t := by
  cases i with
  | nop => rw [exec_nop h]; constructor <;> simp
  | idle => rw [exec_idle h]; constructor <;> simp
  | compress => obtain ⟨-, rfl⟩ | ⟨-, rfl⟩ := exec_compress h <;> constructor <;> simp
  | tfill => obtain ⟨-, rfl⟩ | ⟨-, rfl⟩ := exec_tfill h <;> constructor <;> simp
  | clear => obtain ⟨-, rfl⟩ | ⟨-, rfl⟩ := exec_clear h <;> constructor <;> simp
  | check => obtain ⟨-, rfl⟩ | ⟨-, -, rfl⟩ | ⟨-, -, rfl⟩ := exec_check h <;> constructor <;> simp
  | fetch => obtain ⟨-, rfl⟩ := exec_fetch h; constructor <;> simp
  | bbox => rw [exec_bbox h]; constructor <;> simp
  | inset => rw [exec_inset h]; constructor <;> simp
  | endpt => rw [exec_endpt h]; constructor <;> simp
  | order => obtain ⟨-, rfl⟩ | ⟨-, -, rfl⟩ | ⟨-, -, rfl⟩ := exec_order h <;> constructor <;> simp
  | palette => rw [exec_palette h]; constructor <;> simp
  | index => rw [exec_index h]; constructor <;> simp
  | encode => rw [exec_encode h]; constructor <;> simp
  | store => obtain ⟨-, -, rfl⟩ := exec_store h; constructor <;> simp
  | next => obtain ⟨-, rfl⟩ | ⟨-, rfl⟩ := exec_next h <;> constructor <;> simp
  | fill => obtain ⟨-, rfl⟩ | ⟨-, -, rfl⟩ := exec_fill h <;> constructor <;> simp
  | pack565 r g b => cases h; constructor <;> simp
  | unpackr565 c => cases h; constructor <;> simp
  | unpackg565 c => cases h; constructor <;> simp
  | unpackb565 c => cases h; constructor <;> simp

end Sys2Proof.Machine
end

section
/-! The control invariant (10_state.md R15, R16, R19). -/

namespace Sys2Proof.Safety

open Sys2Proof.Machine

/-! ### Ways to meet the invariant -/

theorem PhaseIn.mono {s : State} {a b a' b' : Nat} (h : PhaseIn s a b) (ha : a' ≤ a) (hb : b ≤ b') : PhaseIn s a' b' :=
  ⟨ha.trans h.1, h.2.trans hb⟩

/-- What is observed outside DXT1C is no part of the invariant. -/
theorem Inv.outside {s : State} (h : Inv s) (ts : List Turn) (w : Word) (p : Half) (u : Byte) :
    Inv { s with script := ts, hostData := w, packOut := p, unpackOut := u } := { h with }

theorem not_inBlockLoop_of_idle {s : State} (h : s.phase = Phase.idle) : ¬InBlockLoop s := by
  simp [InBlockLoop, h]

/-- A stopped machine: neither loop has anything to keep. -/
theorem inv_of_stopped {s : State} (hsrc : s.src.wf = true) (hdst : s.dst.wf = true) (hphase : s.phase = Phase.idle)
    (hready : s.state ≠ .busy) (hcause : s.cause ≠ 0#4 ↔ s.state = .doneErr) (hlegal : s.cause.toNat ≤ 2) : Inv s where
  srcCanonical := hsrc
  dstCanonical := hdst
  idlePhase := iff_of_true hphase hready
  legalPhase := by simp [hphase]
  causeOfError := hcause
  legalCause := hlegal
  checkCount := fun hf => absurd (hphase.symm.trans hf) (by decide)
  loopWidth := fun hl => absurd hl (not_inBlockLoop_of_idle hphase)
  loopHeight := fun hl => absurd hl (not_inBlockLoop_of_idle hphase)
  loopCount := fun hl => absurd hl (not_inBlockLoop_of_idle hphase)
  fillCount := fun hf => absurd (hphase.symm.trans hf) (by decide)

/-- A running command: what each phase needs of `CNT` and of the dimensions. -/
theorem inv_of_running {s : State} (hsrc : s.src.wf = true) (hdst : s.dst.wf = true) (hphase : s.phase ≠ Phase.idle)
    (hlegal : s.phase.toNat ≤ 12) (hbusy : s.state = .busy) (hcause : s.cause = 0#4)
    (hcheck : s.phase = Phase.check → s.cnt = 0#29)
    (hloop : InBlockLoop s → s.width.toNat % 4 = 0 ∧ s.height.toNat % 4 = 0 ∧ s.cnt.toNat < s.blockCount)
    (hfill : s.phase = Phase.fill → s.cnt.toNat ≤ s.fillWords) : Inv s where
  srcCanonical := hsrc
  dstCanonical := hdst
  idlePhase := iff_of_false hphase (by simp [hbusy])
  legalPhase := hlegal
  causeOfError := by simp [hcause, hbusy]
  legalCause := by simp [hcause]
  checkCount := hcheck
  loopWidth := fun hl => (hloop hl).1
  loopHeight := fun hl => (hloop hl).2.1
  loopCount := fun hl => (hloop hl).2.2
  fillCount := hfill

/-- A command just accepted: `CNT` and `CAUSE` are cleared, and the first phase is `CHECK` or `FILL`. -/
theorem inv_of_start {s : State} {p : BitVec 4} (h : Inv s) (hp : p = Phase.check ∨ p = Phase.fill) :
    Inv (s.start p) := by
  have hloop : ¬InBlockLoop (s.start p) := by
    rcases hp with rfl | rfl <;> simp [InBlockLoop]
  have hphase : p ≠ Phase.idle ∧ p.toNat ≤ 12 := by
    rcases hp with rfl | rfl <;> decide
  exact inv_of_running h.srcCanonical h.dstCanonical hphase.1 hphase.2 rfl rfl (fun _ => rfl)
    (fun hl => absurd hl hloop) (fun _ => by simp)

/-- In the loop over the blocks the invariant is about the memories, the dimensions and `CNT`. -/
theorem inv_of_inBlockLoop {s : State} (hl : InBlockLoop s) (hsrc : s.src.wf = true) (hdst : s.dst.wf = true)
    (hbusy : s.state = .busy) (hcause : s.cause = 0#4) (hwidth : s.width.toNat % 4 = 0)
    (hheight : s.height.toNat % 4 = 0) (hcnt : s.cnt.toNat < s.blockCount) : Inv s := by
  obtain ⟨hlo, hhi⟩ := hl
  refine inv_of_running hsrc hdst ?_ (by omega) hbusy hcause ?_ (fun _ => ⟨hwidth, hheight, hcnt⟩) ?_ <;>
  · intro hp
    simp [hp] at hlo hhi

/-! ### What the invariant says of a running command -/

theorem Inv.cause_of_busy {s : State} (h : Inv s) (hb : s.state = .busy) : s.cause = 0#4 := by
  by_contra hc
  have hstate := h.causeOfError.mp hc
  rw [hb] at hstate
  cases hstate

theorem Inv.phase_of_ready {s : State} (h : Inv s) (hb : s.state ≠ .busy) : s.phase = Phase.idle := h.idlePhase.mpr hb

/-- `CNT` counts by one: inside the loop it is below its bound. -/
theorem Inv.nextCount_eq {s : State} (h : Inv s) (hl : InBlockLoop s) : (nextCount s.cnt).toNat = s.cnt.toNat + 1 := by
  have hc := h.loopCount hl
  have hb := s.blockCount_lt
  exact nextCount_toNat (by omega)

/-- Within the loop only DST and the datapath registers change, until `NEXT`. -/
theorem Inv.within_loop {s t : State} (h : Inv s) (hb : s.state = .busy) (hs : InBlockLoop s) (ht : InBlockLoop t)
    (frame : SameControl s t) (hdst : t.dst.wf = true) : Inv t := by
  refine inv_of_inBlockLoop ht ?_ hdst (frame.state.trans hb) (frame.cause.trans (h.cause_of_busy hb)) ?_ ?_ ?_
  · rw [frame.src]; exact h.srcCanonical
  · rw [frame.width]; exact h.loopWidth hs
  · rw [frame.height]; exact h.loopHeight hs
  · rw [frame.cnt, State.blockCount_congr frame.width frame.height]; exact h.loopCount hs

/-! ### The steps -/

/-- A phase of a running command keeps the invariant. -/
theorem Inv.phase {s t : State} (h : Inv s) (hb : s.state = .busy) (hc : PhaseCase s t) : Inv t := by
  have hcause := h.cause_of_busy hb
  cases hc with
  | idle _ same => rwa [same]
  | badDimensions _ trapped =>
    subst trapped
    exact inv_of_stopped h.srcCanonical h.dstCanonical rfl (by simp) (by simp [Cause.code]) (by simp [Cause.code])
  | emptyImage _ ended | lastCounted _ _ ended | fillEnded _ ended =>
    subst ended
    exact inv_of_stopped h.srcCanonical h.dstCanonical rfl (by simp) (by simp [hcause]) (by simp [hcause])
  | loopEntered phase good blocks entered =>
    subst entered
    have hdims : ¬(s.width.toNat % 4 ≠ 0 ∨ s.height.toNat % 4 ≠ 0) := by
      rw [← s.badDimensions_iff, good]
      simp
    have hcnt : s.cnt.toNat < s.blockCount := by
      rw [h.checkCount phase]
      exact Nat.pos_of_ne_zero blocks
    exact inv_of_inBlockLoop ⟨by simp, by simp⟩ h.srcCanonical h.dstCanonical hb hcause (by simp; omega)
      (by simp; omega) hcnt
  | datapath here there frame dst =>
    exact h.within_loop hb (here.mono le_rfl (by decide)) (there.mono (by decide) (by decide)) frame
      (dst ▸ h.dstCanonical)
  | stored phase wrote =>
    subst wrote
    exact h.within_loop hb (phaseIn_of_eq phase (by decide) (by decide)) ⟨by simp, by simp⟩ (by constructor <;> simp)
      (Memory.writeWord_wf (Memory.writeWord_wf h.dstCanonical _ _) _ _)
  | counted phase more back =>
    subst back
    have hl : InBlockLoop s := phaseIn_of_eq phase (by decide) (by decide)
    have hlt := h.loopCount hl
    have hcnt : (nextCount s.cnt).toNat < s.blockCount := by
      rw [h.nextCount_eq hl]
      omega
    exact inv_of_inBlockLoop ⟨by simp, by simp⟩ h.srcCanonical h.dstCanonical hb hcause (h.loopWidth hl)
      (h.loopHeight hl) hcnt
  | filled phase more wrote =>
    subst wrote
    have hle := h.fillCount phase
    have hlt := s.fillWords_lt
    have hcnt : (nextCount s.cnt).toNat ≤ s.fillWords := by
      rw [nextCount_toNat (by omega)]
      omega
    exact inv_of_running h.srcCanonical (Memory.writeWord_wf h.dstCanonical _ _) (ne_of_eq_of_ne phase (by decide))
      (by simp [phase]) hb hcause (fun hp => absurd (phase.symm.trans hp) (by decide))
      (by simp [InBlockLoop, phase]) (fun _ => hcnt)

/-- A command the host gives keeps the invariant. -/
theorem Inv.command {s t : State} {v : Word} {i : Instr} (h : Inv s) (hb : s.state ≠ .busy)
    (hd : decode (.cmd v) = .ok i) (hr : exec i s = .next t) : Inv t := by
  rcases command_cases hd with ⟨-, rfl⟩ | ⟨-, rfl⟩ | ⟨-, rfl⟩ | ⟨-, rfl⟩
  · rwa [exec_nop hr]
  · obtain ⟨hbusy, -⟩ | ⟨-, rfl⟩ := exec_compress hr
    · exact absurd hbusy hb
    · exact inv_of_start h (.inl rfl)
  · obtain ⟨hbusy, -⟩ | ⟨-, rfl⟩ := exec_tfill hr
    · exact absurd hbusy hb
    · exact inv_of_start h (.inr rfl)
  · obtain ⟨hbusy, -⟩ | ⟨-, rfl⟩ := exec_clear hr
    · exact absurd hbusy hb
    · exact inv_of_stopped h.srcCanonical h.dstCanonical (h.phase_of_ready hb) (by simp) (by simp) (by simp)

/-- Settles O53: the invariant is kept by each kind of step, and by each phase. -/
theorem stepKeepsControlInvariant : Obligations.StepKeepsControlInvariant := by
  intro s t h hstep
  have here : ∀ ts, Inv (s.setScript ts) := fun ts => h.outside ts _ _ _
  cases step_kind hstep with
  | engine i ts moves decoded ran => exact (here ts).phase moves.1 (phase_cases decoded ran)
  | outside ts w p u same =>
    rw [same]
    exact h.outside ts w p u
  | command v i ts _ ready decoded ran => exact (here ts).command ready decoded ran
  | illegal v ts _ ready trapped =>
    subst trapped
    exact inv_of_stopped h.srcCanonical h.dstCanonical rfl (by simp) (by simp [Cause.code]) (by simp [Cause.code])
  | hostWrite ready wrote =>
    have hphase := h.phase_of_ready ready
    have hsrc := wrote.srcCanonical h.srcCanonical
    have hdst := wrote.dstCanonical h.dstCanonical
    rw [wrote.frame]
    exact inv_of_stopped hsrc hdst hphase ready h.causeOfError h.legalCause
  | reset _ m ts canonical done =>
    rw [done]
    exact inv_of_stopped h.srcCanonical (canonical h.dstCanonical) rfl (by simp) (by simp) (by simp)

end Sys2Proof.Safety
end

section
/-! The dataflow invariant: no phase reads a stale register (10_state.md R35). -/

namespace Sys2Proof.Safety

open Sys2Proof.Machine

/-! ### Where the invariant says nothing -/

/-- What is observed outside DXT1C is no part of the invariant. -/
theorem Dataflow.outside {s : State} (h : Dataflow s) (ts : List Turn) (w : Word) (p : Half) (u : Byte) :
    Dataflow { s with script := ts, hostData := w, packOut := p, unpackOut := u } := { h with }

/-- Before `FETCH` has run nothing is asked of the registers. -/
theorem dataflow_of_unfetched {s : State} (h : ¬PhaseIn s 3 11) : Dataflow s where
  pixels := fun g => absurd g h
  boxMin := fun g => absurd (g.mono (by decide) le_rfl) h
  boxMax := fun g => absurd (g.mono (by decide) le_rfl) h
  insetR := fun g => absurd (g.mono (by decide) le_rfl) h
  insetG := fun g => absurd (g.mono (by decide) le_rfl) h
  insetB := fun g => absurd (g.mono (by decide) le_rfl) h
  endpointMax := fun g => absurd (g.mono (by decide) le_rfl) h
  endpointMin := fun g => absurd (g.mono (by decide) le_rfl) h
  flag := fun g => absurd (g.mono (by decide) le_rfl) h
  longPath := fun g => absurd (g.mono (by decide) (by decide)) h
  palette := fun g => g.elim (fun g => absurd (g.mono (by decide) (by decide)) h)
    (fun g => absurd (g.1.mono (by decide) le_rfl) h)
  indices := fun g => absurd (g.1.mono (by decide) le_rfl) h
  word0 := fun g => absurd (g.mono (by decide) le_rfl) h
  word1 := fun g => absurd (g.mono (by decide) le_rfl) h
  stored0 := fun g => absurd (g.mono (by decide) le_rfl) h
  stored1 := fun g => absurd (g.mono (by decide) le_rfl) h

/-! ### What the registers hold, phase by phase -/

/-- `FETCH` has run for this block. -/
structure HasPixels (s : State) : Prop where
  pixels : s.pix = s.fetchedBlock

/-- `BBOX` has. -/
structure HasBox (s : State) : Prop extends HasPixels s where
  boxMin : (⟨s.minR, s.minG, s.minB⟩ : Rgb) = Machine.boxMin s.pix
  boxMax : (⟨s.maxR, s.maxG, s.maxB⟩ : Rgb) = Machine.boxMax s.pix

/-- `INSET` has. -/
structure HasInset (s : State) : Prop extends HasBox s where
  insetR : s.insR = insetOf s.minR s.maxR
  insetG : s.insG = insetOf s.minG s.maxG
  insetB : s.insB = insetOf s.minB s.maxB

/-- `ENDPT` has. -/
structure HasEndpoints (s : State) : Prop extends HasInset s where
  endpointMax : s.c0 = s.maxEndpoint
  endpointMin : s.c1 = s.minEndpoint

/-- `ORDER` has. -/
structure HasFlag (s : State) : Prop extends HasEndpoints s where
  flag : s.degen = decide (s.c0 = s.c1)

/-- `ORDER` has, and took the long path. -/
structure OnLongPath (s : State) : Prop extends HasFlag s where
  longPath : s.degen = false

/-- `PALETTE` has. -/
structure HasPalette (s : State) : Prop extends OnLongPath s where
  palette : s.pal = paletteOf s.c0 s.c1

/-- `INDEX` has, or the block is degenerate. -/
structure HasIndices (s : State) : Prop extends HasFlag s where
  palette : s.degen = false → s.pal = paletteOf s.c0 s.c1
  indices : s.degen = false → s.idx = indexWord s.pal s.pix

/-- `ENCODE` has. -/
structure HasWords (s : State) : Prop extends HasIndices s where
  word0 : s.w0 = endpointWord s.c0 s.c1
  word1 : s.w1 = if s.degen then 0#32 else s.idx

/-- `STORE` has. -/
structure HasStored (s : State) : Prop extends HasWords s where
  stored0 : s.dst.readWord s.endpointSlot = s.w0
  stored1 : s.dst.readWord (s.endpointSlot + 1) = s.w1

/-! ### From the invariant to the registers -/

section
variable {s : State} (h : Dataflow s)
include h

theorem Dataflow.hasPixels (g : PhaseIn s 3 11) : HasPixels s := ⟨h.pixels g⟩

theorem Dataflow.hasBox (g : PhaseIn s 4 11) : HasBox s :=
  { h.hasPixels (g.mono (by decide) le_rfl) with boxMin := h.boxMin g, boxMax := h.boxMax g }

theorem Dataflow.hasInset (g : PhaseIn s 5 11) : HasInset s :=
  { h.hasBox (g.mono (by decide) le_rfl) with insetR := h.insetR g, insetG := h.insetG g, insetB := h.insetB g }

theorem Dataflow.hasEndpoints (g : PhaseIn s 6 11) : HasEndpoints s :=
  { h.hasInset (g.mono (by decide) le_rfl) with endpointMax := h.endpointMax g, endpointMin := h.endpointMin g }

theorem Dataflow.hasFlag (g : PhaseIn s 7 11) : HasFlag s :=
  { h.hasEndpoints (g.mono (by decide) le_rfl) with flag := h.flag g }

theorem Dataflow.onLongPath (g : PhaseIn s 7 8) : OnLongPath s :=
  { h.hasFlag (g.mono le_rfl (by decide)) with longPath := h.longPath g }

theorem Dataflow.hasPalette (g : PhaseIn s 8 8) : HasPalette s :=
  { h.onLongPath (g.mono (by decide) le_rfl) with palette := h.palette (.inl g) }

theorem Dataflow.hasIndices (g : PhaseIn s 9 11) : HasIndices s :=
  { h.hasFlag (g.mono (by decide) le_rfl) with
    palette := fun hd => h.palette (.inr ⟨g, hd⟩), indices := fun hd => h.indices ⟨g, hd⟩ }

theorem Dataflow.hasWords (g : PhaseIn s 10 11) : HasWords s :=
  { h.hasIndices (g.mono (by decide) le_rfl) with word0 := h.word0 g, word1 := h.word1 g }

theorem Dataflow.hasStored (g : PhaseIn s 11 11) : HasStored s :=
  { h.hasWords (g.mono (by decide) le_rfl) with stored0 := h.stored0 g, stored1 := h.stored1 g }

end

/-! ### From the registers to the invariant: `PHASE` decides which clauses are asked for -/

section
variable {s : State}

theorem HasPixels.dataflow (h : HasPixels s) (hp : s.phase = Phase.bbox) : Dataflow s := by
  constructor <;> intro g <;> simp [PhaseIn, PastIndex, hp] at g
  exact h.pixels

theorem HasBox.dataflow (h : HasBox s) (hp : s.phase = Phase.inset) : Dataflow s := by
  constructor <;> intro g <;> simp [PhaseIn, PastIndex, hp] at g
  exacts [h.pixels, h.boxMin, h.boxMax]

theorem HasInset.dataflow (h : HasInset s) (hp : s.phase = Phase.endpt) : Dataflow s := by
  constructor <;> intro g <;> simp [PhaseIn, PastIndex, hp] at g
  exacts [h.pixels, h.boxMin, h.boxMax, h.insetR, h.insetG, h.insetB]

theorem HasEndpoints.dataflow (h : HasEndpoints s) (hp : s.phase = Phase.order) : Dataflow s := by
  constructor <;> intro g <;> simp [PhaseIn, PastIndex, hp] at g
  exacts [h.pixels, h.boxMin, h.boxMax, h.insetR, h.insetG, h.insetB, h.endpointMax, h.endpointMin]

theorem OnLongPath.dataflow (h : OnLongPath s) (hp : s.phase = Phase.palette) : Dataflow s := by
  constructor <;> intro g <;> simp [PhaseIn, PastIndex, hp] at g
  exacts [h.pixels, h.boxMin, h.boxMax, h.insetR, h.insetG, h.insetB, h.endpointMax, h.endpointMin, h.flag, h.longPath]

theorem HasPalette.dataflow (h : HasPalette s) (hp : s.phase = Phase.index) : Dataflow s := by
  constructor <;> intro g <;> simp [PhaseIn, PastIndex, hp] at g
  exacts [h.pixels, h.boxMin, h.boxMax, h.insetR, h.insetG, h.insetB, h.endpointMax, h.endpointMin, h.flag, h.longPath,
    h.palette]

theorem HasIndices.dataflow (h : HasIndices s) (hp : s.phase = Phase.encode) : Dataflow s := by
  constructor <;> intro g <;> simp [PhaseIn, PastIndex, hp] at g
  exacts [h.pixels, h.boxMin, h.boxMax, h.insetR, h.insetG, h.insetB, h.endpointMax, h.endpointMin, h.flag, h.palette g,
    h.indices g]

theorem HasWords.dataflow (h : HasWords s) (hp : s.phase = Phase.store) : Dataflow s := by
  constructor <;> intro g <;> simp [PhaseIn, PastIndex, hp] at g
  exacts [h.pixels, h.boxMin, h.boxMax, h.insetR, h.insetG, h.insetB, h.endpointMax, h.endpointMin, h.flag, h.palette g,
    h.indices g, h.word0, h.word1]

theorem HasStored.dataflow (h : HasStored s) (hp : s.phase = Phase.next) : Dataflow s := by
  constructor <;> intro g <;> simp [PhaseIn, PastIndex, hp] at g
  exacts [h.pixels, h.boxMin, h.boxMax, h.insetR, h.insetG, h.insetB, h.endpointMax, h.endpointMin, h.flag, h.palette g,
    h.indices g, h.word0, h.word1, h.stored0, h.stored1]

end

/-! ### What each phase adds -/

section
variable {s : State}

/-- The registers `ENDPT` reads are those of an analyzed block. -/
theorem HasInset.analyzed (h : HasInset s) : s.Analyzed := { h with }

/-- `ORDER` has nothing to exchange (41_block_analyzer.md R99). -/
theorem HasEndpoints.ordered (h : HasEndpoints s) : s.c1.toNat ≤ s.c0.toNat := by
  rw [h.endpointMax, h.endpointMin]
  exact h.analyzed.endpoints_ordered

theorem hasPixels_setPix {p : Vector Rgb 16} (hp : p = s.fetchedBlock) : HasPixels ((s.setPix p).goto Phase.bbox) :=
  ⟨hp.trans (State.fetchedBlock_congr rfl rfl rfl).symm⟩

theorem HasPixels.setBox {lo hi : Rgb} (h : HasPixels s) (hlo : lo = Machine.boxMin s.pix)
    (hhi : hi = Machine.boxMax s.pix) : HasBox ((s.setBox lo hi).goto Phase.inset) :=
  { h with boxMin := hlo, boxMax := hhi }

theorem HasBox.setInset {r g b : BitVec 4} (h : HasBox s) (hr : r = insetOf s.minR s.maxR)
    (hg : g = insetOf s.minG s.maxG) (hb : b = insetOf s.minB s.maxB) :
    HasInset ((s.setInset r g b).goto Phase.endpt) :=
  { h with insetR := hr, insetG := hg, insetB := hb }

theorem HasInset.setEndpoints {c0 c1 : Half} (h : HasInset s) (h0 : c0 = s.maxEndpoint) (h1 : c1 = s.minEndpoint) :
    HasEndpoints ((s.setEndpoints c0 c1).goto Phase.order) :=
  { h with endpointMax := h0, endpointMin := h1 }

theorem HasEndpoints.degenerate (h : HasEndpoints s) (he : s.c0 = s.c1) :
    HasIndices ((s.setDegen true).goto Phase.encode) :=
  { h with flag := (decide_eq_true he).symm, palette := nofun, indices := nofun }

theorem HasEndpoints.longPath (h : HasEndpoints s) (hne : s.c0 ≠ s.c1) :
    OnLongPath ((s.setDegen false).goto Phase.palette) :=
  { h with flag := (decide_eq_false hne).symm, longPath := rfl }

theorem OnLongPath.setPal {p : Vector Rgb 4} (h : OnLongPath s) (hp : p = paletteOf s.c0 s.c1) :
    HasPalette ((s.setPal p).goto Phase.index) :=
  { h with palette := hp }

theorem HasPalette.setIdx {w : Word} (h : HasPalette s) (hw : w = indexWord s.pal s.pix) :
    HasIndices ((s.setIdx w).goto Phase.encode) :=
  { h with palette := fun _ => h.palette, indices := fun _ => hw }

theorem HasIndices.setWords {w0 w1 : Word} (h : HasIndices s) (h0 : w0 = endpointWord s.c0 s.c1)
    (h1 : w1 = if s.degen then 0#32 else s.idx) : HasWords ((s.setWords w0 w1).goto Phase.store) :=
  { h with word0 := h0, word1 := h1 }

theorem HasWords.setDst {m : Memory} (h : HasWords s) (h0 : m.readWord s.endpointSlot = s.w0)
    (h1 : m.readWord (s.endpointSlot + 1) = s.w1) : HasStored (State.goto { s with dst := m } Phase.next) :=
  { h with stored0 := h0, stored1 := h1 }

/-- The two words of the block are read back, the first past the write of the second. -/
theorem HasWords.store (h : HasWords s) (hm : s.dst.wf = true) :
    HasStored (((s.storeWord s.endpointSlot s.w0).storeWord (s.endpointSlot + 1) s.w1).goto Phase.next) := by
  refine h.setDst ?_ ?_
  · exact (Memory.readWord_writeWord_other (by omega)).trans (Memory.readWord_writeWord_same hm _ _)
  · exact Memory.readWord_writeWord_same (Memory.writeWord_wf hm _ _) _ _

end

/-! ### The steps -/

/-- A phase keeps the invariant: it adds the registers it writes to those that are held. -/
theorem Dataflow.phase {s t : State} {i : Instr} (h : Dataflow s) (hm : s.dst.wf = true)
    (hd : decode (.phase s.phase) = .ok i) (hr : exec i s = .next t) : Dataflow t := by
  have he := encode_of_decode_phase hd
  have inPhase : ∀ {q a b}, encode i = .phase q → a ≤ q.toNat → q.toNat ≤ b → PhaseIn s a b :=
    fun hq => phaseIn_of_eq (phase_of_instr hd rfl hq)
  cases i with
  | nop | compress | tfill | clear | pack565 | unpackr565 | unpackg565 | unpackb565 => cases he
  | idle => rwa [exec_idle hr]
  | check =>
    obtain ⟨-, rfl⟩ | ⟨-, -, rfl⟩ | ⟨-, -, rfl⟩ := exec_check hr <;> exact dataflow_of_unfetched (by simp [PhaseIn])
  | fetch =>
    obtain ⟨-, rfl⟩ := exec_fetch hr
    exact (hasPixels_setPix rfl).dataflow rfl
  | bbox =>
    rw [exec_bbox hr]
    have held := h.hasPixels (inPhase rfl (by decide) (by decide))
    exact (held.setBox rfl rfl).dataflow rfl
  | inset =>
    rw [exec_inset hr]
    have held := h.hasBox (inPhase rfl (by decide) (by decide))
    exact (held.setInset rfl rfl rfl).dataflow rfl
  | endpt =>
    rw [exec_endpt hr]
    have held := h.hasInset (inPhase rfl (by decide) (by decide))
    exact (held.setEndpoints rfl rfl).dataflow rfl
  | order =>
    have held := h.hasEndpoints (inPhase rfl (by decide) (by decide))
    obtain ⟨heq, rfl⟩ | ⟨-, hlt, -⟩ | ⟨hne, -, rfl⟩ := exec_order hr
    · exact (held.degenerate heq).dataflow rfl
    · exact absurd hlt (Nat.not_lt.mpr held.ordered)
    · exact (held.longPath hne).dataflow rfl
  | palette =>
    rw [exec_palette hr]
    have held := h.onLongPath (inPhase rfl (by decide) (by decide))
    exact (held.setPal rfl).dataflow rfl
  | index =>
    rw [exec_index hr]
    have held := h.hasPalette (inPhase rfl (by decide) (by decide))
    exact (held.setIdx rfl).dataflow rfl
  | encode =>
    rw [exec_encode hr]
    have held := h.hasIndices (inPhase rfl (by decide) (by decide))
    exact (held.setWords rfl rfl).dataflow rfl
  | store =>
    obtain ⟨-, -, rfl⟩ := exec_store hr
    have held := h.hasWords (inPhase rfl (by decide) (by decide))
    exact (held.store hm).dataflow rfl
  | next =>
    obtain ⟨-, rfl⟩ | ⟨-, rfl⟩ := exec_next hr <;> exact dataflow_of_unfetched (by simp [PhaseIn])
  | fill =>
    have hp : s.phase = Phase.fill := phase_of_instr hd rfl rfl
    obtain ⟨-, rfl⟩ | ⟨-, -, rfl⟩ := exec_fill hr <;> exact dataflow_of_unfetched (by simp [PhaseIn, hp])

/-- Only the engine moves within the loop over the blocks: after any other step `PHASE` is outside it, or what it stands for
is as it was. -/
theorem step_loop_cases {s t : State} (h : Inv s) (hstep : step s = .next t) :
    (∃ i ts, EngineMoves s ∧ decode (.phase s.phase) = .ok i ∧ exec i (s.setScript ts) = .next t) ∨
    (∃ ts w p u, t = { s with script := ts, hostData := w, packOut := p, unpackOut := u }) ∨ ¬InBlockLoop t := by
  cases step_kind hstep with
  | engine i ts moves decoded ran => exact .inl ⟨i, ts, moves, decoded, ran⟩
  | outside ts w p u same => exact .inr (.inl ⟨ts, w, p, u, same⟩)
  | command v i ts _ ready decoded ran =>
    have hidle := not_inBlockLoop_of_idle (h.phase_of_ready ready)
    refine .inr (.inr ?_)
    rcases command_cases decoded with ⟨-, rfl⟩ | ⟨-, rfl⟩ | ⟨-, rfl⟩ | ⟨-, rfl⟩
    · rwa [exec_nop ran]
    · obtain ⟨-, rfl⟩ | ⟨-, rfl⟩ := exec_compress ran
      · exact hidle
      · simp [InBlockLoop]
    · obtain ⟨-, rfl⟩ | ⟨-, rfl⟩ := exec_tfill ran
      · exact hidle
      · simp [InBlockLoop]
    · obtain ⟨-, rfl⟩ | ⟨-, rfl⟩ := exec_clear ran <;> exact hidle
  | illegal v ts _ _ trapped =>
    subst trapped
    exact .inr (.inr (not_inBlockLoop_of_idle rfl))
  | hostWrite ready wrote =>
    rw [wrote.frame]
    exact .inr (.inr (not_inBlockLoop_of_idle (h.phase_of_ready ready)))
  | reset _ m ts _ done =>
    rw [done]
    exact .inr (.inr (not_inBlockLoop_of_idle rfl))

/-- Settles O54: each phase adds its registers to those held, and no other step leaves a block in hand. -/
theorem stepKeepsDataflow : Obligations.StepKeepsDataflow := by
  intro s t hi h hstep
  obtain ⟨i, ts, -, decoded, ran⟩ | ⟨ts, w, p, u, rfl⟩ | hout := step_loop_cases hi hstep
  · exact Dataflow.phase (s := s.setScript ts) (h.outside ts _ _ _) hi.dstCanonical decoded ran
  · exact h.outside ts w p u
  · exact dataflow_of_unfetched fun g => hout (g.mono (by decide) le_rfl)

end Sys2Proof.Safety
end

section
/-! The progress invariant: the blocks counted are delivered (10_state.md R16, 44_encode_and_driver.md R131). -/

namespace Sys2Proof.Safety

open Sys2Proof.Machine

/-- What is observed outside DXT1C is no part of the invariant. -/
theorem Progress.outside {s : State} (h : Progress s) (ts : List Turn) (w : Word) (p : Half) (u : Byte) :
    Progress { s with script := ts, hostData := w, packOut := p, unpackOut := u } := h

/-- Delivery is about both memories and the width only. -/
theorem Delivered.congr {s t : State} {n : Nat} (h : Delivered s n) (hw : t.width = s.width) (hs : t.src = s.src)
    (hd : ∀ i, i < 2 * n → t.dst.readWord i = s.dst.readWord i) : Delivered t n := by
  intro b hb
  rw [hw, hs, hd _ (by omega), hd _ (by omega)]
  exact h b hb

theorem Delivered.succ {s : State} {n : Nat} (h : Delivered s n)
    (hn : (s.dst.readWord (2 * n), s.dst.readWord (2 * n + 1)) = Reference.compressedBlock s.src s.width.toNat n) :
    Delivered s (n + 1) := by
  intro b hb
  rcases Nat.lt_succ_iff_lt_or_eq.mp hb with hlt | rfl
  · exact h b hlt
  · exact hn

/-- The two words `ENCODE` leaves are `BLOCK` of the pixels `FETCH` read. -/
theorem HasWords.block {s : State} (h : HasWords s) : (s.w0, s.w1) = Reference.block s.pix.toList := by
  rw [h.analyzed.block, h.word0, h.word1, h.flag, ← h.endpointMax, ← h.endpointMin]
  by_cases he : s.c0 = s.c1
  · simp [he]
  · have hd : s.degen = false := by simp [h.flag, he]
    simp [he, h.indices hd, h.palette hd]

/-- The two words `STORE` has written are those of block `CNT` of the compressed image. -/
theorem HasStored.compressedBlock {s : State} (h : HasStored s) (hb : s.blocksPerRow ≠ 0) :
    (s.dst.readWord (2 * s.cnt.toNat), s.dst.readWord (2 * s.cnt.toNat + 1)) =
      Reference.compressedBlock s.src s.width.toNat s.cnt.toNat := by
  rw [Reference.compressedBlock, ← State.fetchedBlock_toList hb, ← h.pixels, ← h.block, ← h.stored0, ← h.stored1]
  rfl

/-- When `NEXT` runs, the block in hand is delivered too. -/
theorem delivered_succ_of_next {s : State} (hi : Inv s) (hd : Dataflow s) (h : Progress s) (hp : s.phase = Phase.next) :
    Delivered s (s.cnt.toNat + 1) := by
  have hl : InBlockLoop s := phaseIn_of_eq hp (by decide) (by decide)
  have hstored := hd.hasStored (phaseIn_of_eq hp (by decide) (by decide))
  exact (h hl).succ (hstored.compressedBlock (State.blocksPerRow_ne_zero (hi.loopCount hl)))

/-- A phase keeps the invariant: `STORE` writes behind the blocks counted, and `NEXT` counts a block delivered. -/
theorem Progress.phase {s t : State} (hi : Inv s) (hd : Dataflow s) (h : Progress s) (hc : PhaseCase s t) :
    Progress t := by
  intro hout
  cases hc with
  | idle _ same =>
    subst same
    exact h hout
  | badDimensions _ trapped =>
    subst trapped
    exact absurd hout (not_inBlockLoop_of_idle rfl)
  | emptyImage _ ended | lastCounted _ _ ended | fillEnded _ ended =>
    subst ended
    exact absurd hout (not_inBlockLoop_of_idle rfl)
  | loopEntered phase _ _ entered =>
    subst entered
    rw [State.goto_cnt, hi.checkCount phase]
    exact fun b hb => absurd hb (Nat.not_lt_zero b)
  | datapath here _ frame dst =>
    rw [frame.cnt]
    exact (h (here.mono le_rfl (by decide))).congr frame.width frame.src (fun i _ => by rw [dst])
  | stored phase wrote =>
    subst wrote
    refine (h (phaseIn_of_eq phase (by decide) (by decide))).congr (by simp) (by simp) fun i hlt => ?_
    have hlt : i < s.endpointSlot := hlt
    exact (Memory.readWord_writeWord_other (by omega)).trans (Memory.readWord_writeWord_other (by omega))
  | counted phase _ back =>
    subst back
    have hl : InBlockLoop s := phaseIn_of_eq phase (by decide) (by decide)
    have hcnt : ((s.setCnt (nextCount s.cnt)).goto Phase.fetch).cnt.toNat = s.cnt.toNat + 1 := hi.nextCount_eq hl
    rw [hcnt]
    exact (delivered_succ_of_next hi hd h phase).congr rfl rfl (fun _ _ => rfl)
  | filled phase _ wrote =>
    subst wrote
    exact absurd hout (by simp [InBlockLoop, phase])

/-- Settles O55: only the engine moves within the loop, and each phase keeps what is delivered. -/
theorem stepKeepsProgress : Obligations.StepKeepsProgress := by
  intro s t hi hd h hstep
  obtain ⟨i, ts, -, decoded, ran⟩ | ⟨ts, w, p, u, rfl⟩ | hout := step_loop_cases hi hstep
  · have hc : PhaseCase (s.setScript ts) t := phase_cases decoded ran
    exact Progress.phase (hi.outside ts _ _ _) (hd.outside ts _ _ _) (h.outside ts _ _ _) hc
  · exact h.outside ts w p u
  · exact fun hl => absurd hl hout

/-- Settles O52: after reset `PHASE` is `IDLE` and both memories are empty. -/
theorem resetMeetsInvariants : Obligations.ResetMeetsInvariants :=
  have hout : ¬InBlockLoop State.reset := not_inBlockLoop_of_idle rfl
  ⟨inv_of_stopped rfl rfl rfl nofun (by decide) (by decide),
    dataflow_of_unfetched fun g => hout (g.mono (by decide) le_rfl), fun hl => absurd hl hout⟩

end Sys2Proof.Safety
end

section
/-! Who writes which register (10_state.md R11 to R28), and the values the host sees (R14, R32, R34). -/

namespace Sys2Proof.Safety

open Sys2Proof.Machine

/-- Of the phases, only `CHECK`, `NEXT` and `FILL` write `STATE`. -/
theorem phaseCase_state {s t : State} (hc : PhaseCase s t) (hne : t.state ≠ s.state) :
    s.phase = Phase.check ∨ s.phase = Phase.next ∨ s.phase = Phase.fill := by
  cases hc with
  | idle _ same => exact absurd (congrArg State.state same) hne
  | badDimensions phase | emptyImage phase | loopEntered phase => exact .inl phase
  | datapath _ _ frame _ => exact absurd frame.state hne
  | stored _ wrote => exact absurd (congrArg State.state wrote) hne
  | lastCounted phase | counted phase => exact .inr (.inl phase)
  | fillEnded phase | filled phase => exact .inr (.inr phase)

/-- Settles O48, by the kinds of step. -/
theorem onlyTheseWriteState : Obligations.OnlyTheseWriteState := by
  intro s t hstep hne
  cases step_kind hstep with
  | engine i ts moves decoded ran =>
    have hc : PhaseCase (s.setScript ts) t := phase_cases decoded ran
    exact .inr (.inl ⟨moves, phaseCase_state (s := s.setScript ts) hc hne⟩)
  | outside ts w p u same => exact absurd (congrArg State.state same) hne
  | command v i ts turn ready | illegal v ts turn ready => exact .inl ⟨ready, v, ts, turn⟩
  | hostWrite _ wrote => exact absurd (congrArg State.state wrote.frame) hne
  | reset resets => exact .inr (.inr resets)

/-- Settles O49: the engine writes no operand, and while `BUSY` every host write is ignored or refused. -/
theorem operandsHoldWhileBusy : Obligations.OperandsHoldWhileBusy := by
  intro s t hb hreset hstep
  cases step_kind hstep with
  | engine i ts _ _ ran =>
    obtain ⟨hw, hh, hs, hg, -⟩ := exec_keeps_operands ran
    exact ⟨hw, hh, hs, hg⟩
  | outside ts w p u same =>
    subst same
    exact ⟨rfl, rfl, rfl, rfl⟩
  | command _ _ _ _ ready | illegal _ _ _ ready | hostWrite ready => exact absurd hb ready
  | reset resets => exact absurd resets hreset

/-- Of the phases, only `NEXT` and `FILL` write `CNT`, and what they write is the next count. -/
theorem phaseCase_cnt {s t : State} (hc : PhaseCase s t) :
    t.cnt = s.cnt ∨ (s.phase = Phase.next ∨ s.phase = Phase.fill) ∧ t.cnt = nextCount s.cnt := by
  cases hc with
  | idle _ same => exact .inl (congrArg State.cnt same)
  | badDimensions _ ht | emptyImage _ ht | loopEntered _ _ _ ht | stored _ ht | fillEnded _ ht =>
    exact .inl (by rw [ht]; rfl)
  | datapath _ _ frame _ => exact .inl frame.cnt
  | lastCounted phase _ ht | counted phase _ ht => exact .inr ⟨.inl phase, congrArg State.cnt ht⟩
  | filled phase _ ht => exact .inr ⟨.inr phase, congrArg State.cnt ht⟩

/-- An accepted command leaves `CNT` alone, or is one of the two that clear it. -/
theorem command_cnt {s t : State} {v : Word} {i : Instr} (hd : decode (.cmd v) = .ok i) (hr : exec i s = .next t) :
    t.cnt = s.cnt ∨ t.cnt = 0#29 ∧ (v = 1#32 ∨ v = 2#32) := by
  rcases command_cases hd with ⟨-, rfl⟩ | ⟨hv, rfl⟩ | ⟨hv, rfl⟩ | ⟨-, rfl⟩
  · exact .inl (congrArg State.cnt (exec_nop hr))
  · obtain ⟨-, rfl⟩ | ⟨-, rfl⟩ := exec_compress hr
    · exact .inl rfl
    · exact .inr ⟨rfl, .inl hv⟩
  · obtain ⟨-, rfl⟩ | ⟨-, rfl⟩ := exec_tfill hr
    · exact .inl rfl
    · exact .inr ⟨rfl, .inr hv⟩
  · obtain ⟨-, rfl⟩ | ⟨-, rfl⟩ := exec_clear hr <;> exact .inl rfl

/-- A `CMD` write of 1 or 2, as a write of the word it is. -/
theorem writesCommand_start {s : State} {v : Word} {ts : List Turn} (turn : s.script = .wr 0 v :: ts)
    (hv : v = 1#32 ∨ v = 2#32) : WritesCommand s 1#32 ∨ WritesCommand s 2#32 := by
  rcases hv with rfl | rfl
  · exact .inl ⟨ts, turn⟩
  · exact .inr ⟨ts, turn⟩

/-- Settles O50, by the kinds of step. -/
theorem counterRules : Obligations.CounterRules := by
  intro s t hstep
  cases step_kind hstep with
  | engine i ts moves decoded ran =>
    have hc : PhaseCase (s.setScript ts) t := phase_cases decoded ran
    obtain hkept | ⟨hphase, hnext⟩ := phaseCase_cnt hc
    · exact .inl hkept
    · exact .inr (.inl ⟨moves, hphase, fun hfits => by rw [hnext]; exact nextCount_toNat hfits⟩)
  | outside ts w p u same => exact .inl (by rw [same])
  | command v i ts turn ready decoded ran =>
    obtain hkept | ⟨hzero, hv⟩ := command_cnt decoded ran
    · exact .inl hkept
    · exact .inr (.inr (.inl ⟨hzero, ready, writesCommand_start turn hv⟩))
  | illegal v ts _ _ trapped => exact .inl (by rw [trapped]; rfl)
  | hostWrite _ wrote => exact .inl (by rw [wrote.frame])
  | reset resets m ts _ done => exact .inr (.inr (.inr ⟨congrArg State.cnt done, resets⟩))

/-- `DEGEN` and the datapath registers. -/
def datapathOf (s : State) :=
  (s.pix, (s.minR, s.minG, s.minB, s.maxR, s.maxG, s.maxB), (s.insR, s.insG, s.insB), (s.c0, s.c1), s.pal, s.idx,
    (s.w0, s.w1), s.degen)

/-- An accepted command word selects the instruction whose word it is. -/
theorem encode_of_decode_cmd {v : Word} {i : Instr} (hd : decode (.cmd v) = .ok i) : encode i = .cmd v := by
  rcases command_cases hd with ⟨rfl, rfl⟩ | ⟨rfl, rfl⟩ | ⟨rfl, rfl⟩ | ⟨rfl, rfl⟩ <;> rfl

/-- But for reset, a step writes none of these registers, or runs an instruction that writes its own: a phase whose code is
in `PHASE`, or a command whose word the host writes. -/
theorem step_writes {s t : State} (hstep : step s = .next t) (hreset : ¬Resets s) :
    datapathOf t = datapathOf s ∨ ∃ i, WritersOf i s t ∧ (∀ p, encode i = .phase p → EngineMoves s ∧ s.phase = p) ∧
      ∀ v, encode i = .cmd v → s.state ≠ .busy ∧ WritesCommand s v := by
  cases step_kind hstep with
  | engine i ts moves decoded ran =>
    refine .inr ⟨i, { exec_writersOf ran with }, fun p hp => ⟨moves, phase_of_instr decoded rfl hp⟩, fun v hv => ?_⟩
    rw [encode_of_decode_phase decoded] at hv
    cases hv
  | command v i ts turn ready decoded ran =>
    refine .inr ⟨i, { exec_writersOf ran with }, fun p hp => ?_, fun w hw => ⟨ready, ts, ?_⟩⟩
    · rw [encode_of_decode_cmd decoded] at hp
      cases hp
    · rw [encode_of_decode_cmd decoded] at hw
      cases hw
      exact turn
  | outside ts w p u same => exact .inl (by rw [same]; rfl)
  | illegal v ts _ _ trapped => exact .inl (by rw [trapped]; rfl)
  | hostWrite _ wrote => exact .inl (by rw [wrote.frame]; rfl)
  | reset resets => exact absurd resets hreset

/-- Settles O51: each instruction has its registers, and of the host's turns only commands write any. -/
theorem onePhaseWritesEachRegister : Obligations.OnePhaseWritesEachRegister := by
  intro s t hstep hreset
  obtain hsame | ⟨i, writers, hphase, hcmd⟩ := step_writes hstep hreset
  · simp only [datapathOf, Prod.mk.injEq] at hsame
    simp [hsame]
  · refine ⟨fun hc => hphase _ ?_, fun hc => hphase _ ?_, fun hc => hphase _ ?_, fun hc => ?_, fun hc => hphase _ ?_,
      fun hc => hphase _ ?_, fun hc => hphase _ ?_, fun hc => ?_⟩
    · rw [writers.pix hc]; rfl
    · rw [writers.box hc]; rfl
    · rw [writers.inset hc]; rfl
    · obtain rfl | rfl := writers.endpoints hc
      · exact (hphase _ rfl).imp_right .inl
      · exact (hphase _ rfl).imp_right .inr
    · rw [writers.pal hc]; rfl
    · rw [writers.idx hc]; rfl
    · rw [writers.words hc]; rfl
    · obtain rfl | rfl | rfl := writers.degen hc
      · exact .inl (hphase _ rfl)
      · exact .inr ((hcmd _ rfl).imp_right .inl)
      · exact .inr ((hcmd _ rfl).imp_right .inr)

/-- `STATUS` as a number: the fields at their bits (10_state.md R14). -/
theorem statusWord_toNat (s : State) :
    s.statusWord.toNat = 256 * s.degen.toNat + 16 * s.phase.toNat + s.state.code.toNat := by
  have hp := s.phase.isLt
  have hc := s.state.code.isLt
  unfold State.statusWord
  rw [BitVec.toNat_append, BitVec.toNat_append, BitVec.toNat_append, BitVec.toNat_append,
    ← Nat.shiftLeft_add_eq_or_of_lt hc, ← Nat.shiftLeft_add_eq_or_of_lt (by decide),
    ← Nat.shiftLeft_add_eq_or_of_lt hp, ← Nat.shiftLeft_add_eq_or_of_lt (BitVec.isLt _)]
  simp only [Nat.shiftLeft_eq, BitVec.toNat_ofBool, BitVec.toNat_ofNat]
  omega

/-- Settles O6: the layout of R14 as arithmetic, and a write to `STATUS` is ignored. -/
theorem statusLayout : Obligations.StatusLayout := by
  intro s rest
  refine ⟨fun hs => ⟨s.statusWord, ?_, ?_⟩, fun v hs => ?_⟩
  · exact step_of_done (nextWork_cons hs)
  · have hp := s.phase.isLt
    rw [statusWord_toNat]
    cases s.state <;> cases s.degen <;> simp [EngineState.code] <;> omega
  · apply step_of_done
    rw [nextWork_cons hs]
    by_cases hb : s.state = .busy
    · exact writeWork_busy (s := s.setScript rest) hb
    · exact writeWork_register (s := s.setScript rest) hb (by decide)

/-- Settles O12: each output is a function of `STATE` alone. -/
theorem outputsFollowState : Obligations.OutputsFollowState := by
  intro s
  simp only [State.busyOut, State.doneOut, State.errOut, State.irqOut]
  refine ⟨?_, ?_, ?_, ?_⟩ <;>
  · intro h
    rw [h]
    decide

/-- Settles O45: the state after reset is written out. -/
theorem resetValues : Obligations.ResetValues := by
  unfold Obligations.ResetValues
  decide

end Sys2Proof.Safety
end

section
/-! The memories (20_memory.md): DST words and their bytes (R45), where a phase stops (R54), and the transactions a phase
issues on the two ports (R49, R50). -/

namespace Sys2Proof.Machine

open Sys2Proof.Safety

/-- Settles O41: a word write is four byte writes, each of which is read back and leaves the others alone. -/
theorem wordsAreLittleEndian : Obligations.WordsAreLittleEndian := by
  intro m i w hm
  refine ⟨Memory.readWord_writeWord_same hm i w, fun j hj => ?_, fun a ha => Memory.read_writeWord_outside ha,
    Memory.writeWord_wf hm i w⟩
  rw [Memory.read_writeWord_byte hm i j w hj, wordByte_toNat]

/-! ### Where a phase stops (R54) -/

/-- `FETCH` stops unless the whole block is backed. -/
theorem exec_fetch_unbacked {s : State} (h : ¬s.blockBacked = true) : exec .fetch s = .fault .srcUnbacked := if_neg h

/-- `STORE` stops unless both words are backed. -/
theorem exec_store_unbacked {s : State}
    (h : ¬(s.dstBacked s.endpointSlot = true ∧ s.dstBacked (s.endpointSlot + 1) = true)) :
    exec .store s = .fault .dstUnbacked :=
  if_neg fun hb => h (Bool.and_eq_true_iff.mp hb)

/-- The loop test of `FILL`, as a fact on numbers (45_transparent_fill.md R146, R148). -/
theorem State.fillDone_iff (s : State) : s.fillDone = true ↔ s.cnt.toNat = s.width.toNat * s.height.toNat / 8 := by
  rw [State.fillDone, decide_eq_true_eq, s.fillWords_eq]

/-- `FILL` with a word to write stops unless that word is backed. -/
theorem exec_fill_unbacked {s : State} (hmore : ¬s.fillDone = true) (h : ¬s.dstBacked s.fillSlot = true) :
    exec .fill s = .fault .dstUnbacked :=
  (if_neg hmore).trans (if_neg h)

/-- Where block `CNT` is: the place of R29 with a block column, and 14-bit free values without one (log 11). -/
theorem State.blockPlace (s : State) :
    (4 ≤ s.width.toNat →
      s.blockX = s.cnt.toNat % (s.width.toNat / 4) ∧ s.blockY = s.cnt.toNat / (s.width.toNat / 4)) ∧
    (s.width.toNat < 4 → s.blockX < 2 ^ 14 ∧ s.blockY < 2 ^ 14) :=
  ⟨fun h => ⟨State.blockX_eq h, State.blockY_eq h⟩, fun h => ⟨State.blockX_lt h, State.blockY_lt h⟩⟩

/-- Settles O23: a pixel at or beyond `SRC_SIZE` leaves the block not backed. -/
theorem fetchIsStuckUnbacked : Obligations.FetchIsStuckUnbacked := by
  intro s
  refine ⟨s.blockX, s.blockY, s.blockPlace.1, s.blockPlace.2, fun row col hr hc hbeyond => exec_fetch_unbacked ?_⟩
  intro hbacked
  have hpixel := (s.blockBacked_iff.mp hbacked row col hr hc).1
  rw [s.pixelIndex_rowCol hc] at hpixel
  omega

/-- Settles O37: the word at or beyond `DST_SIZE` is not backed. -/
theorem writesAreStuckUnbacked : Obligations.WritesAreStuckUnbacked := by
  intro s
  constructor
  · intro hbeyond
    refine exec_store_unbacked fun ⟨_, hsecond⟩ => ?_
    exact absurd ((s.dstBacked_iff _).mp hsecond).1 (Nat.not_lt.mpr hbeyond)
  · intro hmore hbeyond
    refine exec_fill_unbacked (fun hdone => hmore (s.fillDone_iff.mp hdone)) fun hbacked => ?_
    exact absurd ((s.dstBacked_iff _).mp hbacked).1 (Nat.not_lt.mpr hbeyond)

/-! ### The transactions of each phase (R49, R50) -/

theorem portAccesses_fetch {s : State} (hb : s.state = .busy) (hp : s.phase = Phase.fetch) :
    s.portAccesses = (List.range 16).map (fun k => .srcRead (s.pixelIndex k)) := by
  rw [State.portAccesses, if_pos hb, if_pos hp]

theorem portAccesses_store {s : State} (hb : s.state = .busy) (hp : s.phase = Phase.store) :
    s.portAccesses = [.dstWrite s.endpointSlot s.w0, .dstWrite (s.endpointSlot + 1) s.w1] := by
  rw [State.portAccesses, if_pos hb, hp, if_neg (by decide), if_pos rfl]

theorem portAccesses_fill {s : State} (hb : s.state = .busy) (hp : s.phase = Phase.fill) :
    s.portAccesses = if s.fillDone then [] else [.dstWrite s.fillSlot fillWord] := by
  rw [State.portAccesses, if_pos hb, hp, if_neg (by decide), if_neg (by decide), if_pos rfl]

/-- No other phase touches a memory. -/
theorem portAccesses_other {s : State} (hf : s.phase ≠ Phase.fetch) (hs : s.phase ≠ Phase.store)
    (hl : s.phase ≠ Phase.fill) : s.portAccesses = [] := by
  simp [State.portAccesses, hf, hs, hl]

/-- Reads leave DST alone. -/
theorem foldl_apply_srcReads (ks : List Nat) (f : Nat → Nat) (m : Memory) :
    (ks.map (fun k => PortAccess.srcRead (f k))).foldl PortAccess.apply m = m := by
  induction ks with
  | nil => rfl
  | cons k ks ih => exact ih

/-- A phase with no transactions that leaves DST alone has done to DST what its transactions do. -/
theorem dst_of_other {s t : State} {p : BitVec 4} (hp : s.phase = p) (hd : t.dst = s.dst)
    (hother : p ≠ Phase.fetch ∧ p ≠ Phase.store ∧ p ≠ Phase.fill := by decide) :
    t.dst = s.portAccesses.foldl PortAccess.apply s.dst := by
  subst hp
  rw [portAccesses_other hother.1 hother.2.1 hother.2.2, hd]
  rfl

/-- `FILL` writes the one word it issues, or none. -/
theorem exec_fill_dst {s t : State} (hb : s.state = .busy) (hp : s.phase = Phase.fill) (h : exec .fill s = .next t) :
    t.dst = s.portAccesses.foldl PortAccess.apply s.dst := by
  have hdone := s.fillDone_iff
  rw [← s.fillWords_eq] at hdone
  rw [portAccesses_fill hb hp]
  obtain ⟨hend, rfl⟩ | ⟨hmore, -, rfl⟩ := exec_fill h
  · rw [if_pos (hdone.mpr hend)]
    rfl
  · rw [if_neg (mt hdone.mp hmore)]
    rfl

/-- A phase does to DST what its transactions do. -/
theorem exec_phase_dst {s t : State} {i : Instr} (hb : s.state = .busy) (hd : decode (.phase s.phase) = .ok i)
    (h : exec i s = .next t) : t.dst = s.portAccesses.foldl PortAccess.apply s.dst := by
  cases phase_cases hd h with
  | idle phase ht | badDimensions phase ht | emptyImage phase ht | loopEntered phase _ _ ht | lastCounted phase _ ht
  | counted phase _ ht => exact dst_of_other phase (by simp [ht])
  | datapath here _ _ dst =>
    by_cases hf : s.phase = Phase.fetch
    · rw [portAccesses_fetch hb hf, foldl_apply_srcReads, dst]
    · refine dst_of_other rfl dst ⟨hf, ?_, ?_⟩ <;>
      · intro hp
        simp [PhaseIn, hp] at here
  | stored phase wrote =>
    rw [portAccesses_store hb phase, wrote]
    rfl
  | fillEnded phase | filled phase =>
    rw [phase] at hd
    cases hd
    exact exec_fill_dst hb phase h

/-- An engine step that answers a next state has run the phase `PHASE` names. -/
theorem engineMoves_runs {s t : State} (hm : EngineMoves s) (h : step s = .next t) :
    ∃ i ts, decode (.phase s.phase) = .ok i ∧ exec i (s.setScript ts) = .next t := by
  obtain ⟨ts, -, hwork⟩ := step_engine hm
  cases hd : decode (.phase s.phase) with
  | ok i => exact ⟨i, ts, rfl, by rw [← h, step_of_run (hwork.trans (engineWork_busy hm.1 hd))]⟩
  | error e =>
    have hstuck : engineWork (s.setScript ts) = .done (.fault .reservedPhase) := by
      rw [engineWork, if_pos (show (s.setScript ts).state = .busy from hm.1), State.setScript_phase, hd]
    rw [step_of_done (hwork.trans hstuck)] at h
    cases h

/-- Settles O44: the phase that ran does to DST what its transactions do, and these are the phase's own. -/
theorem phasesIssueTheirTransactions : Obligations.PhasesIssueTheirTransactions := by
  intro s t hm hstep
  have hb := hm.1
  obtain ⟨i, ts, decoded, ran⟩ := engineMoves_runs hm hstep
  have hdst : t.dst = s.portAccesses.foldl PortAccess.apply s.dst :=
    exec_phase_dst (s := s.setScript ts) hb decoded ran
  obtain ⟨-, -, hsrc, -⟩ := exec_keeps_operands ran
  refine ⟨hdst, hsrc, fun hp => ⟨?_, s.blockX, s.blockY, s.blockPlace.1, s.blockPlace.2, portAccesses_fetch hb hp⟩,
    portAccesses_store hb, fun hp hend => ?_, fun hp hmore => ?_, portAccesses_other⟩
  · rw [hdst, portAccesses_fetch hb hp, foldl_apply_srcReads]
  · rw [portAccesses_fill hb hp, if_pos (s.fillDone_iff.mpr hend)]
  · rw [portAccesses_fill hb hp, if_neg (mt s.fillDone_iff.mp hmore)]
    rfl

end Sys2Proof.Machine
end

section
/-! The encodings (30_encoding.md): the round trip of R60, R64 and R80 to R83, and what the reserved words of R61 and the
reserved phase codes of R65 do. -/

namespace Sys2Proof

open Sys2Proof.Machine
open Sys2Proof.Safety

/-! ### The operand lines of `PACK565` -/

theorem operandLines_toNat (x : BitVec 24) (k : Nat) : (x.extractLsb' k 8).toNat = x.toNat / 2 ^ k % 256 := by
  rw [BitVec.extractLsb'_toNat, Nat.shiftRight_eq_div_pow]

/-- Each operand stands on its own eight lines. -/
theorem decode_pack_append (r g b : Byte) : decode (.pack (r ++ g ++ b)) = .ok (.pack565 r g b) := by
  have hr := r.isLt
  have hg := g.isLt
  have hb := b.isLt
  simp only [decode, Except.ok.injEq, Instr.pack565.injEq, ← BitVec.toNat_inj, operandLines_toNat, packLines_toNat]
  omega

/-- The three operands take up all 24 lines. -/
theorem append_operandLines (x : BitVec 24) :
    x.extractLsb' 16 8 ++ x.extractLsb' 8 8 ++ x.extractLsb' 0 8 = x := by
  have hx := x.isLt
  apply BitVec.eq_of_toNat_eq
  rw [packLines_toNat]
  simp only [operandLines_toNat]
  omega

/-! ### The round trip -/

/-- Every encoding is read as the instruction it was made from. -/
theorem decode_encode (i : Instr) : decode (encode i) = .ok i := by
  cases i with
  | pack565 r g b => exact decode_pack_append r g b
  | nop | compress | tfill | clear => exact decode_cmd _
  | idle | check | fetch | bbox | inset | endpt | order | palette | index | encode | store | next | fill =>
    exact decode_phase _
  | unpackr565 c | unpackg565 c | unpackb565 c => rfl

/-- A code that is read as an instruction is that instruction's encoding. -/
theorem encode_of_decode {c : Code} {i : Instr} (hd : decode c = .ok i) : encode i = c := by
  cases c with
  | cmd v => exact encode_of_decode_cmd hd
  | phase p => exact encode_of_decode_phase hd
  | pack x =>
    cases hd
    exact congrArg Code.pack (append_operandLines x)
  | unpack ch x => cases ch <;> cases hd <;> rfl

/-- Settles O1, instruction by instruction one way and format by format the other. -/
theorem decodeAndEncodeAgree : Obligations.DecodeAndEncodeAgree :=
  ⟨fun i _ => decode_encode i, fun _ _ => encode_of_decode⟩

/-! ### Reserved command words (R61) -/

/-- The commands are the words below 4. -/
theorem decode_cmd_reserved_iff (v : Word) : decode (.cmd v) = .error .reservedCommand ↔ 4 ≤ v.toNat := by
  constructor
  · intro hd
    by_contra hlt
    have hv : v = 0#32 ∨ v = 1#32 ∨ v = 2#32 ∨ v = 3#32 := by bv_omega
    rcases hv with rfl | rfl | rfl | rfl <;> cases hd
  · intro hle
    have hne : v ≠ 0#32 ∧ v ≠ 1#32 ∧ v ≠ 2#32 ∧ v ≠ 3#32 := by bv_omega
    obtain ⟨h0, h1, h2, h3⟩ := hne
    rw [decode_cmd, if_neg h0, if_neg h1, if_neg h2, if_neg h3]

/-- A write to `CMD` is decoded only while `STATE` is not `BUSY`, and a reserved word then traps. -/
theorem step_reservedCommand {s : State} {v : Word} {rest : List Turn} (hs : s.script = .wr 0 v :: rest)
    (hb : s.state ≠ .busy) (hd : decode (.cmd v) = .error .reservedCommand) :
    step s = .next ((s.setScript rest).raise .illegalCommand) :=
  step_of_done <| (nextWork_cons hs).trans <|
    (writeWork_command (s := s.setScript rest) hb).trans (commandWork_reserved hd)

/-- A write to any register while `BUSY` only takes the turn (46_host_commands.md R153). -/
theorem step_write_busy {s : State} {off : Nat} {v : Word} {rest : List Turn} (hs : s.script = .wr off v :: rest)
    (hb : s.state = .busy) : step s = .next (s.setScript rest) :=
  step_of_done <| (nextWork_cons hs).trans (writeWork_busy (s := s.setScript rest) hb)

/-- Settles O3: the reserved words are those of 4 and more, and trap unless the engine is busy. -/
theorem reservedCommandWords : Obligations.ReservedCommandWords := by
  intro s v rest hs
  have hfields : v.toNat / 16 ≠ 0 ∨ 4 ≤ v.toNat % 16 ↔ 4 ≤ v.toNat := by omega
  rw [hfields]
  refine ⟨decode_cmd_reserved_iff v, fun hv hb => ?_, fun hb => step_write_busy hs hb⟩
  exact step_reservedCommand hs hb ((decode_cmd_reserved_iff v).mpr hv)

/-! ### Words of the tables -/

/-- Settles O2: the nine words are decoded. -/
theorem specWordsDecode : Obligations.SpecWordsDecode := by
  unfold Obligations.SpecWordsDecode
  decide

/-! ### Reserved phase codes (R65) -/

/-- The phases of R64 are the codes below 13. -/
theorem decode_phase_reserved_iff : ∀ p : BitVec 4, decode (.phase p) = .error .reservedPhase ↔ 13 ≤ p.toNat := by
  decide

/-- A busy engine has no meaning for a code that is no phase. -/
theorem engineWork_reserved {s : State} {e : DecodeError} (hb : s.state = .busy)
    (hd : decode (.phase s.phase) = .error e) : engineWork s = .done (.fault .reservedPhase) := by
  rw [engineWork, if_pos hb, hd]

/-- Settles O4: the codes of 13 and more are no phases, whichever way the script gives the engine its turn. -/
theorem reservedPhaseCodes : Obligations.ReservedPhaseCodes := by
  refine ⟨decode_phase_reserved_iff, fun s hm hp => ?_⟩
  have hd : decode (.phase s.phase) = .error .reservedPhase := (decode_phase_reserved_iff _).mpr hp
  obtain ⟨ts, -, hwork⟩ := step_engine hm
  exact step_of_done (hwork.trans (engineWork_reserved (s := s.setScript ts) hm.1 hd))

end Sys2Proof
end

section
/-! The colour codec (40_color_codec.md): what evaluating a codec function shows (R80 to R83), the round trip and its exact
error (R85), and the order of packed colours (R86). -/

namespace Sys2Proof.Machine

/-! ### The meanings (R80 to R83) -/

/-- Settles O17: the stand-alone instance shows the packed colour, a sum of the three fields. -/
theorem packFormula : Obligations.PackFormula :=
  fun r g b _ => ⟨pack565 r g b, rfl, pack565_toNat r g b⟩

/-- Settles O18, field by field. -/
theorem unpackFormulas : Obligations.UnpackFormulas := by
  intro c s
  refine ⟨⟨unpackR565 c, rfl, ?_⟩, ⟨unpackG565 c, rfl, ?_⟩, ⟨unpackB565 c, rfl, ?_⟩⟩
  · rw [unpackR565_toNat, Nat.mul_comm]
  · rw [unpackG565_toNat, Nat.mul_comm]
  · rw [unpackB565_toNat, Nat.mul_comm]

/-! ### Packing an expanded colour: "the top bits of each widened channel are the field itself" (R85 b) -/

theorem unpackR565_div (c : Half) : (unpackR565 c).toNat / 8 = c.toNat / 2048 := by
  have hc := c.isLt
  rw [unpackR565_toNat]
  omega

theorem unpackG565_div (c : Half) : (unpackG565 c).toNat / 4 = c.toNat / 32 % 64 := by
  rw [unpackG565_toNat]
  omega

theorem unpackB565_div (c : Half) : (unpackB565 c).toNat / 8 = c.toNat % 32 := by
  rw [unpackB565_toNat]
  omega

/-- Packing puts each field back in its place. -/
theorem packRgb_expand565 (c : Half) : packRgb (expand565 c) = c := by
  apply BitVec.eq_of_toNat_eq
  rw [packRgb, pack565_toNat, expand565_r, expand565_g, expand565_b, unpackR565_div, unpackG565_div, unpackB565_div]
  omega

/-! ### Expanding a packed colour: each channel keeps its top bits and repeats them below (R85 c) -/

/-- The three fields of a packed colour do not overlap (R80). -/
theorem pack565_fields (r g b : Byte) :
    (pack565 r g b).toNat / 2048 = r.toNat / 8 ∧ (pack565 r g b).toNat / 32 % 64 = g.toNat / 4 ∧
      (pack565 r g b).toNat % 32 = b.toNat / 8 := by
  have hg := g.isLt
  have hb := b.isLt
  rw [pack565_toNat]
  omega

/-- What the round trip loses is the dropped bits, less the top bits put in their place. -/
theorem expand565_pack565_error (r g b : Byte) :
    (r.toNat : Int) - (expand565 (pack565 r g b)).r.toNat = (r.toNat % 8 : Nat) - (r.toNat / 32 : Nat) ∧
    (g.toNat : Int) - (expand565 (pack565 r g b)).g.toNat = (g.toNat % 4 : Nat) - (g.toNat / 64 : Nat) ∧
    (b.toNat : Int) - (expand565 (pack565 r g b)).b.toNat = (b.toNat % 8 : Nat) - (b.toNat / 32 : Nat) := by
  obtain ⟨hr, hg, hb⟩ := pack565_fields r g b
  rw [expand565_r, expand565_g, expand565_b, unpackR565_toNat, unpackG565_toNat, unpackB565_toNat, hr, hg, hb]
  omega

/-- Settles O19: the bounds follow from the exact error, since a dropped part and the top bits are both at most 7, 3, 7. -/
theorem codecRoundTrip : Obligations.CodecRoundTrip := by
  refine ⟨by decide, by decide, packRgb_expand565, fun r g b => ?_, by decide⟩
  obtain ⟨hr, hg, hb⟩ := expand565_pack565_error r g b
  refine ⟨hr, hg, hb, ?_, ?_, ?_⟩
  · have hlt := r.isLt
    rw [hr]
    omega
  · have hlt := g.isLt
    rw [hg]
    omega
  · have hlt := b.isLt
    rw [hb]
    omega

/-! ### Monotonicity (R86) -/

/-- Settles O20: a packed colour is the sum of its fields times fixed weights, and each field keeps the order. -/
theorem packIsMonotone : Obligations.PackIsMonotone := by
  intro r1 g1 b1 r2 g2 b2 hr hg hb
  rw [pack565_toNat, pack565_toNat]
  gcongr

end Sys2Proof.Machine
end

section
/-! The block analyzer (41_block_analyzer.md): what `FETCH` loads (R90), the box, its inset and the clamps (R92 to R96),
the dead exchange of `ORDER` (R97, R99), and the single-colour block (R100). -/

namespace Sys2Proof.Machine

/-! ### FETCH (R90) -/

/-- `FETCH` loads the block when all of it is backed. -/
theorem exec_fetch_backed {s : State} (h : s.blockBacked = true) :
    exec .fetch s = .next ((s.setPix s.fetchedBlock).goto Phase.bbox) := if_pos h

/-- Pixel `k` is the first three of the four bytes at its pixel index (20_memory.md R42). -/
theorem State.fetchedPixel_bytes (s : State) (k : Nat) :
    s.fetchedPixel k =
      ⟨s.src.read (4 * s.pixelIndex k), s.src.read (4 * s.pixelIndex k + 1), s.src.read (4 * s.pixelIndex k + 2)⟩ :=
  s.fetchedPixel_eq k

theorem State.fetchedBlock_getElem? (s : State) {k : Nat} (hk : k < 16) :
    s.fetchedBlock.toList[k]? = some (s.fetchedPixel k) := by
  simp [State.fetchedBlock, hk]

/-- Settles O21: the block is at `blockX`, `blockY`, and pixel `row*4 + col` is its three bytes. -/
theorem fetchLoadsTheBlock : Obligations.FetchLoadsTheBlock := by
  intro s
  refine ⟨s.blockX, s.blockY, s.blockPlace.1, s.blockPlace.2, fun hbacked =>
    ⟨s.fetchedBlock, exec_fetch_backed (s.blockBacked_iff.mpr fun row col hr hc => ?_), fun row col hr hc => ?_⟩⟩
  · rw [s.pixelIndex_rowCol hc]
    exact hbacked row col hr hc
  · rw [s.fetchedBlock_getElem? (by omega), s.fetchedPixel_bytes, s.pixelIndex_rowCol hc]

/-- Settles O22: wherever the free values place the block, it is backed. -/
theorem fetchRunsWithoutABlockColumn : Obligations.FetchRunsWithoutABlockColumn :=
  fun s hwidth hsize => ⟨s.fetchedBlock, exec_fetch_backed (State.blockBacked_of_noColumn hwidth hsize)⟩

/-- The block in hand depends on SRC only outside the alpha bytes (93_implementation_defined.md U8). -/
theorem State.fetchedBlock_congr_of_channels {s t : State} (hw : t.width = s.width) (hc : t.cnt = s.cnt)
    (hsrc : ∀ a, a % 4 ≠ 3 → t.src.read a = s.src.read a) : t.fetchedBlock = s.fetchedBlock := by
  have hpixel : ∀ k, t.fetchedPixel k = s.fetchedPixel k := by
    intro k
    rw [t.fetchedPixel_bytes, s.fetchedPixel_bytes, State.pixelIndex_congr hw hc, hsrc _ (by omega), hsrc _ (by omega),
      hsrc _ (by omega)]
  simp only [State.fetchedBlock, hpixel]

/-- Settles O24: what `FETCH` loads is the block, which no alpha byte reaches. -/
theorem alphaDoesNotInterfere : Obligations.AlphaDoesNotInterfere := by
  intro s s' t t' hw hc hsrc ht ht'
  obtain ⟨-, rfl⟩ := exec_fetch ht
  obtain ⟨-, rfl⟩ := exec_fetch ht'
  exact State.fetchedBlock_congr_of_channels hw hc hsrc

/-! ### BBOX (R92) -/

/-- The minimum of a channel bounds every pixel from below, and some pixel has it. -/
theorem channelMin_spec (ch : Rgb → Byte) (pix : Vector Rgb 16) :
    (∀ p ∈ pix.toList, (channelMin ch pix).toNat ≤ (ch p).toNat) ∧ ∃ p ∈ pix.toList, ch p = channelMin ch pix := by
  obtain ⟨hle, p, hp, he⟩ := channelLeast_spec ch pix.toList (pix_toList_ne_nil pix)
  rw [← channelMin_toNat] at hle he
  exact ⟨hle, p, hp, BitVec.eq_of_toNat_eq he⟩

/-- The maximum of a channel bounds every pixel from above, and some pixel has it. -/
theorem channelMax_spec (ch : Rgb → Byte) (pix : Vector Rgb 16) :
    (∀ p ∈ pix.toList, (ch p).toNat ≤ (channelMax ch pix).toNat) ∧ ∃ p ∈ pix.toList, ch p = channelMax ch pix := by
  obtain ⟨hle, p, hp, he⟩ := channelGreatest_spec ch pix.toList (pix_toList_ne_nil pix)
  rw [← channelMax_toNat] at hle he
  exact ⟨hle, p, hp, BitVec.eq_of_toNat_eq he⟩

/-- Settles O25, channel by channel. -/
theorem boundingBox : Obligations.BoundingBox := by
  intro s
  have lo := fun ch => channelMin_spec ch s.pix
  have hi := fun ch => channelMax_spec ch s.pix
  refine ⟨boxMin s.pix, boxMax s.pix, rfl, fun p hp => ?_, (lo Rgb.r).2, (hi Rgb.r).2, (lo Rgb.g).2, (hi Rgb.g).2,
    (lo Rgb.b).2, (hi Rgb.b).2⟩
  have between := fun ch => And.intro ((lo ch).1 p hp) ((hi ch).1 p hp)
  exact ⟨between Rgb.r, between Rgb.g, between Rgb.b⟩

/-! ### INSET and ENDPT (R93 to R96) -/

/-- Settles O26, channel by channel. -/
theorem insetIsASixteenth : Obligations.InsetIsASixteenth :=
  fun _ => ⟨_, _, _, rfl, insetOf_toNat, insetOf_toNat, insetOf_toNat⟩

/-- `clamp_low` as R94 writes it, on integers. -/
theorem adjustedHi_toInt (hi : Byte) (ins : BitVec 4) :
    ((adjustedHi hi ins).toNat : Int) =
      if (ins.toNat : Int) ≤ (hi.toNat : Int) - ins.toNat then (hi.toNat : Int) - ins.toNat else 0 := by
  rw [adjustedHi_toNat]
  split <;> split <;> omega

/-- `clamp_high` as R94 writes it. -/
theorem adjustedLo_toNat_ite (lo : Byte) (ins : BitVec 4) :
    (adjustedLo lo ins).toNat = if lo.toNat + ins.toNat < 255 then lo.toNat + ins.toNat else 255 := by
  rw [adjustedLo_toNat]
  split <;> omega

/-- Settles O27: the packed endpoint is the sum of its fields, and each channel its clamp. -/
theorem endpointDerivation : Obligations.EndpointDerivation := by
  intro s
  refine ⟨s.maxEndpoint, s.minEndpoint, rfl, ?_, ?_⟩
  · rw [State.maxEndpoint, pack565_toNat]
    push_cast
    rw [adjustedHi_toInt, adjustedHi_toInt, adjustedHi_toInt]
  · rw [State.minEndpoint, pack565_toNat, adjustedLo_toNat_ite, adjustedLo_toNat_ite, adjustedLo_toNat_ite]

/-- Settles O28: an inset is at most a sixteenth of the maximum. -/
theorem clampsNeverClamp : Obligations.ClampsNeverClamp := by
  intro lo hi h
  have hhi := hi.isLt
  exact ⟨by omega, by omega, insetOf_toNat h, adjustedHi_inset h, adjustedLo_inset h, by omega⟩

/-! ### ORDER (R97, R99) -/

theorem exec_order_equal {s : State} (h : s.c0 = s.c1) : exec .order s = .next ((s.setDegen true).goto Phase.encode) :=
  if_pos (decide_eq_true h)

theorem exec_order_unequal {s : State} (h : s.c0 ≠ s.c1) :
    exec .order s = if s.c0.toNat < s.c1.toNat then
        .next (((s.setDegen false).setEndpoints s.c1 s.c0).goto Phase.palette)
      else .next ((s.setDegen false).goto Phase.palette) := by
  change execOrder s = _
  simp [execOrder, degenerate, mustExchange, h]

/-- Settles O29: of unequal endpoints the greater goes to `C0`. -/
theorem orderPhase : Obligations.OrderPhase := by
  intro s
  refine ⟨exec_order_equal, fun hgt => ?_, fun hlt => ?_⟩
  · rw [exec_order_unequal (ne_of_apply_ne BitVec.toNat hgt.ne'), if_neg (by omega)]
    rfl
  · rw [exec_order_unequal (ne_of_apply_ne BitVec.toNat hlt.ne), if_pos hlt]
    rfl

/-- "`hi_ch ≥ lo_ch`" (R99), from the inset's value. -/
theorem adjustedLo_le_adjustedHi {lo hi : Byte} {ins : BitVec 4} (h : lo.toNat ≤ hi.toNat)
    (hins : ins.toNat = (hi.toNat - lo.toNat) / 16) : (adjustedLo lo ins).toNat ≤ (adjustedHi hi ins).toNat := by
  rw [adjustedLo_toNat, adjustedHi_toNat, if_pos (by omega)]
  omega

/-- Settles O30: packing keeps the order of the adjusted channels, so the exchange is no case of `ORDER`. -/
theorem exchangeIsDead : Obligations.ExchangeIsDead := by
  intro s t u hR hG hB hinsR hinsG hinsB ht hu
  have hle : t.c1.toNat ≤ t.c0.toNat := by
    rw [exec_endpt ht]
    exact packIsMonotone _ _ _ _ _ _ (adjustedLo_le_adjustedHi hR hinsR) (adjustedLo_le_adjustedHi hG hinsG)
      (adjustedLo_le_adjustedHi hB hinsB)
  obtain ⟨-, rfl⟩ | ⟨-, hlt, -⟩ | ⟨hne, -, rfl⟩ := exec_order hu
  · exact ⟨hle, rfl, rfl, fun hd => nomatch hd⟩
  · omega
  · exact ⟨hle, rfl, rfl, fun _ => Nat.lt_of_le_of_ne hle fun he => hne (BitVec.eq_of_toNat_eq he.symm)⟩

/-! ### The single-colour block (R100) -/

theorem boxMin_replicate (q : Rgb) : boxMin (Vector.replicate 16 q) = q := by
  have key : ∀ ch : Rgb → Byte, channelMin ch (Vector.replicate 16 q) = ch q := by
    intro ch
    obtain ⟨p, hp, he⟩ := (channelMin_spec ch (Vector.replicate 16 q)).2
    rw [← he, show p = q by simpa using hp]
  simp only [boxMin, key]

theorem boxMax_replicate (q : Rgb) : boxMax (Vector.replicate 16 q) = q := by
  have key : ∀ ch : Rgb → Byte, channelMax ch (Vector.replicate 16 q) = ch q := by
    intro ch
    obtain ⟨p, hp, he⟩ := (channelMax_spec ch (Vector.replicate 16 q)).2
    rw [← he, show p = q by simpa using hp]
  simp only [boxMax, key]

@[simp] theorem insetOf_self (x : Byte) : insetOf x x = 0#4 := by
  apply BitVec.eq_of_toNat_eq
  rw [insetOf_toNat le_rfl, Nat.sub_self]
  rfl

@[simp] theorem adjustedHi_zero (x : Byte) : adjustedHi x 0#4 = x := by
  apply BitVec.eq_of_toNat_eq
  simp [adjustedHi_toNat]

@[simp] theorem adjustedLo_zero (x : Byte) : adjustedLo x 0#4 = x := by
  apply BitVec.eq_of_toNat_eq
  rw [adjustedLo_toNat]
  exact Nat.min_eq_left (Nat.le_of_lt_succ x.isLt)

/-- The box of equal pixels is their colour, twice. -/
theorem exec_bbox_of_solid {s : State} {q : Rgb} (h : s.pix = Vector.replicate 16 q) :
    exec .bbox s = .next ((s.setBox q q).goto Phase.inset) := by
  change execBbox s = _
  rw [execBbox, h, boxMin_replicate, boxMax_replicate]

/-- The inset of a box without extent is zero. -/
theorem exec_inset_of_point {s : State} (hR : s.minR = s.maxR) (hG : s.minG = s.maxG) (hB : s.minB = s.maxB) :
    exec .inset s = .next ((s.setInset 0#4 0#4 0#4).goto Phase.endpt) := by
  change execInset s = _
  simp only [execInset, hR, hG, hB, insetOf_self]

/-- Without an inset the endpoints are the packed box. -/
theorem exec_endpt_of_noInset {s : State} (hR : s.insR = 0#4) (hG : s.insG = 0#4) (hB : s.insB = 0#4) :
    exec .endpt s =
      .next ((s.setEndpoints (pack565 s.maxR s.maxG s.maxB) (pack565 s.minR s.minG s.minB)).goto Phase.order) := by
  change execEndpt s = _
  simp only [execEndpt, State.maxEndpoint, State.minEndpoint, hR, hG, hB, adjustedHi_zero, adjustedLo_zero]

/-- A degenerate block has no index word (44_encode_and_driver.md R125). -/
theorem exec_encode_degenerate {s : State} (h : s.degen = true) :
    exec .encode s = .next ((s.setWords (endpointWord s.c0 s.c1) 0#32).goto Phase.store) := by
  change execEncode s = _
  rw [execEncode, if_pos h]

/-- A run of a busy engine with a silent host, one phase at a time. -/
theorem run_phase {s t : State} {i : Instr} (he : exec i s = .next t) (k : Nat)
    (hp : .phase s.phase = encode i := by rfl) (hs : s.script = [] := by assumption)
    (hb : s.state = .busy := by assumption) : core.run (k + 1) s = core.run k t :=
  run_succ ((step_busy hs hb (hp ▸ decode_encode i)).trans he) k

/-- Settles O40: `BBOX`, `INSET`, `ENDPT`, `ORDER` on the short path, `ENCODE`. -/
theorem singleColourBlock : Obligations.SingleColourBlock := by
  intro s q hb hs hp hpix
  exact ⟨_,
    (run_phase (exec_bbox_of_solid hpix) 4 (by rw [hp]; rfl)).trans <|
    (run_phase (exec_inset_of_point rfl rfl rfl) 3).trans <|
    (run_phase (exec_endpt_of_noInset rfl rfl rfl) 2).trans <|
    (run_phase (exec_order_equal rfl) 1).trans <|
    run_phase (exec_encode_degenerate rfl) 0,
    rfl, rfl, ⟨rfl, rfl, rfl, rfl, rfl, rfl⟩, ⟨rfl, rfl, rfl⟩, ⟨rfl, rfl⟩, endpointWord_toNat _ _, rfl⟩

end Sys2Proof.Machine
end

section
/-! The palette (42_palette.md): its entries (R110, R111), and their order and distinctness on a block whose endpoints
differ (R112). -/

namespace Sys2Proof.Machine

/-! ### The entries (R110, R111) -/

/-- An expanded endpoint, channel by channel. -/
theorem expand565_toNat (c : Half) :
    (expand565 c).r.toNat = c.toNat / 2048 * 8 + c.toNat / 2048 / 4 ∧
      (expand565 c).g.toNat = c.toNat / 32 % 64 * 4 + c.toNat / 32 % 64 / 16 ∧
      (expand565 c).b.toNat = c.toNat % 32 * 8 + c.toNat % 32 / 4 := by
  refine ⟨?_, ?_, ?_⟩
  · rw [expand565_r, unpackR565_toNat, Nat.mul_comm]
  · rw [expand565_g, unpackG565_toNat, Nat.mul_comm]
  · rw [expand565_b, unpackB565_toNat, Nat.mul_comm]

/-- The sum in the order in which R110 writes it for entry 3. -/
theorem blendByte_toNat_comm (x y : Byte) : (blendByte x y).toNat = (y.toNat + 2 * x.toNat) / 3 := by
  rw [blendByte_toNat, Nat.add_comm]

/-- Settles O31: the entries are the two expanded endpoints and their two blends. -/
theorem paletteBlends : Obligations.PaletteBlends := by
  intro s
  refine ⟨expand565 s.c0, expand565 s.c1, blend (expand565 s.c0) (expand565 s.c1), blend (expand565 s.c1) (expand565 s.c0),
    rfl, expand565_toNat s.c0, expand565_toNat s.c1, ?_, ?_⟩
  · exact ⟨blendByte_toNat _ _, blendByte_toNat _ _, blendByte_toNat _ _⟩
  · exact ⟨blendByte_toNat_comm _ _, blendByte_toNat_comm _ _, blendByte_toNat_comm _ _⟩

/-! ### One channel: equal endpoints, or a gap that both blends fall into (R112) -/

@[simp] theorem blendByte_self (x : Byte) : blendByte x x = x := by
  apply BitVec.eq_of_toNat_eq
  rw [blendByte_toNat]
  omega

/-- A gap of 4 leaves room for both blends between the endpoints. -/
theorem blendByte_between {x y : Byte} (h : y.toNat + 4 ≤ x.toNat) :
    y.toNat < (blendByte y x).toNat ∧ (blendByte y x).toNat < (blendByte x y).toNat ∧
      (blendByte x y).toNat < x.toNat := by
  rw [blendByte_toNat, blendByte_toNat]
  omega

/-- Two widened values are equal, or the first is above the second by the 4 that a step of a field makes at least. -/
def EqualOrAbove (x y : Byte) : Prop := y = x ∨ y.toNat + 4 ≤ x.toNat

theorem unpackR565_equalOrAbove {c d : Half} (h : d.toNat / 2048 ≤ c.toNat / 2048) :
    EqualOrAbove (unpackR565 c) (unpackR565 d) := by
  rw [EqualOrAbove, ← BitVec.toNat_inj, unpackR565_toNat, unpackR565_toNat]
  omega

theorem unpackG565_equalOrAbove {c d : Half} (h : d.toNat / 32 % 64 ≤ c.toNat / 32 % 64) :
    EqualOrAbove (unpackG565 c) (unpackG565 d) := by
  rw [EqualOrAbove, ← BitVec.toNat_inj, unpackG565_toNat, unpackG565_toNat]
  omega

theorem unpackB565_equalOrAbove {c d : Half} (h : d.toNat % 32 ≤ c.toNat % 32) :
    EqualOrAbove (unpackB565 c) (unpackB565 d) := by
  rw [EqualOrAbove, ← BitVec.toNat_inj, unpackB565_toNat, unpackB565_toNat]
  omega

/-! ### The four entries -/

/-- An expanded colour packs back to itself (R85 b), so different endpoints expand to different colours. -/
theorem expand565_injective : Function.Injective expand565 :=
  Function.LeftInverse.injective packRgb_expand565

/-- On this channel all four entries are equal. -/
def Flat (ch : Rgb → Byte) (pal : Vector Rgb 4) : Prop :=
  (ch pal[1]).toNat = (ch pal[0]).toNat ∧ (ch pal[2]).toNat = (ch pal[0]).toNat ∧ (ch pal[3]).toNat = (ch pal[0]).toNat

/-- On this channel "the order of entries is 0, 2, 3, 1" (R111), going down, and the ends are 4 apart. -/
def Descends (ch : Rgb → Byte) (pal : Vector Rgb 4) : Prop :=
  (ch pal[1]).toNat < (ch pal[3]).toNat ∧ (ch pal[3]).toNat < (ch pal[2]).toNat ∧
    (ch pal[2]).toNat < (ch pal[0]).toNat ∧ (ch pal[1]).toNat + 4 ≤ (ch pal[0]).toNat

/-- One channel that tells the entries apart is enough. -/
theorem Descends.nodup {ch : Rgb → Byte} {p0 p1 p2 p3 : Rgb} (h : Descends ch #v[p0, p1, p2, p3]) :
    #v[p0, p1, p2, p3].toList.Nodup := by
  obtain ⟨h31, h23, h02, -⟩ := h
  apply List.Nodup.of_map fun p => (ch p).toNat
  simp at h31 h23 h02 ⊢
  omega

/-- Colours that agree on the three channels are equal. -/
theorem rgb_eq_of_channels {p q : Rgb} (h : ∀ ch ∈ [Rgb.r, Rgb.g, Rgb.b], ch p = ch q) : p = q := by
  cases p
  cases q
  simpa using h

/-- A channel of a blend is the blend of the channel. -/
theorem blend_channel {ch : Rgb → Byte} (hch : ch ∈ [Rgb.r, Rgb.g, Rgb.b]) (p q : Rgb) :
    ch (blend p q) = blendByte (ch p) (ch q) := by
  simp only [List.mem_cons, List.not_mem_nil, or_false] at hch
  obtain rfl | rfl | rfl := hch <;> rfl

theorem expand565_equalOrAbove {c d : Half} (hR : d.toNat / 2048 ≤ c.toNat / 2048)
    (hG : d.toNat / 32 % 64 ≤ c.toNat / 32 % 64) (hB : d.toNat % 32 ≤ c.toNat % 32) :
    ∀ ch ∈ [Rgb.r, Rgb.g, Rgb.b], EqualOrAbove (ch (expand565 c)) (ch (expand565 d)) := by
  simp [unpackR565_equalOrAbove hR, unpackG565_equalOrAbove hG, unpackB565_equalOrAbove hB]

section
variable {ch : Rgb → Byte} {c d : Half} (hch : ch ∈ [Rgb.r, Rgb.g, Rgb.b])
include hch

theorem paletteOf_flat (h : ch (expand565 d) = ch (expand565 c)) : Flat ch (paletteOf c d) := by
  simp [Flat, paletteOf, blend_channel hch, h]

theorem paletteOf_descends (h : (ch (expand565 d)).toNat + 4 ≤ (ch (expand565 c)).toNat) :
    Descends ch (paletteOf c d) := by
  obtain ⟨hlo, hmid, hhi⟩ := blendByte_between h
  simpa [Descends, paletteOf, blend_channel hch] using ⟨hlo, hmid, hhi, h⟩

end

/-- Settles O32: a channel is flat or descends, and one descends, since the expanded endpoints differ. -/
theorem paletteEntriesAreDistinct : Obligations.PaletteEntriesAreDistinct := by
  intro s t hR hG hB hne ht
  have channels := expand565_equalOrAbove hR hG hB
  have hpal : t.pal = paletteOf s.c0 s.c1 := by rw [exec_palette ht]; rfl
  rw [hpal]
  refine ⟨?_, fun ch hch => ?_⟩
  · have differ : ∃ ch ∈ [Rgb.r, Rgb.g, Rgb.b], ch (expand565 s.c0) ≠ ch (expand565 s.c1) := by
      by_contra! hall
      exact hne (expand565_injective (rgb_eq_of_channels hall))
    obtain ⟨ch, hch, hdiffer⟩ := differ
    have habove := (channels ch hch).resolve_left (Ne.symm hdiffer)
    exact (paletteOf_descends hch habove).nodup
  · exact (channels ch hch).imp (paletteOf_flat hch) (paletteOf_descends hch)

end Sys2Proof.Machine
end

section
/-! The index assigner (43_index_assigner.md): the two bits of a pixel name the first of the nearest entries (R115 to R118,
R120), and a palette of one colour gives the index word zero (R119). -/

namespace Sys2Proof.Machine

/-! ### The first of the nearest (R117, R118, R120) -/

/-- The entry that bits `2k+1 : 2k` of the index word name. -/
theorem indexWord_digit_nearestFirst {pal : Vector Rgb 4} {pix : Vector Rgb 16} {k : Fin 16} {best : Fin 4}
    (h : best.val = (indexWord pal pix).toNat / 4 ^ k.val % 4) (i : Fin 4) :
    dist pix[k] pal[best] ≤ dist pix[k] pal[i] ∧ (i < best → dist pix[k] pal[best] < dist pix[k] pal[i]) := by
  rw [indexWord_digit] at h
  obtain ⟨hle, hlt⟩ := nearest_spec pal pix[k]
  rw [← h] at hle hlt
  simp only [← palEntry_eq]
  exact ⟨hle i i.isLt, fun hi => hlt i hi⟩

/-- Settles O33: the sum of squares is `DIST`, whose first minimum the bits of each pixel name. -/
theorem indexIsNearestFirst : Obligations.IndexIsNearestFirst := by
  intro s
  refine ⟨indexWord s.pal s.pix, rfl, fun k i => ?_⟩
  intro d best
  have hd : ∀ j, d j = dist s.pix[k] s.pal[j] := fun j => (dist_squares s.pix[k] s.pal[j]).symm
  rw [hd, hd, Nat.cast_le, Nat.cast_lt]
  exact indexWord_digit_nearestFirst rfl i

/-! ### A palette of one colour (R119) -/

@[simp] theorem blend_self (p : Rgb) : blend p p = p := by
  simp [blend]

/-- With equal endpoints all four entries are equal. -/
theorem paletteOf_self (c : Half) : paletteOf c c = Vector.replicate 4 (expand565 c) := by
  simp [paletteOf, Vector.replicate_succ]

theorem palEntry_replicate (q : Rgb) {i : Nat} (hi : i < 4) : palEntry (Vector.replicate 4 q) i = q := by
  rw [palEntry_eq _ ⟨i, hi⟩]
  simp

/-- Four equal distances: the tie-break picks entry 0 (R117). -/
theorem nearest_replicate (q p : Rgb) : nearest (Vector.replicate 4 q) p = 0#2 := by
  have hfirst : nearestOf (fun i => dist p (palEntry (Vector.replicate 4 q) i)) = 0 := by
    refine nearestOf_unique (by decide) (fun i hi => ?_) (fun i hi => absurd hi i.not_lt_zero)
    rw [palEntry_replicate q hi, palEntry_replicate q (by decide)]
  rw [nearest, hfirst]

/-- Pixels with index 0 add no bit to the word. -/
theorem packIndices_of_zero {pal : Vector Rgb 4} (h : ∀ p, nearest pal p = 0#2) (ps : List Rgb) (k : Nat) (acc : Word) :
    packIndices pal k ps acc = acc := by
  induction ps generalizing k acc with
  | nil => rfl
  | cons p ps ih =>
    rw [packIndices, ih, h]
    simp

theorem indexWord_replicate (q : Rgb) (pix : Vector Rgb 16) : indexWord (Vector.replicate 4 q) pix = 0#32 :=
  packIndices_of_zero (nearest_replicate q) _ _ _

/-- Settles O34: equal endpoints give a palette of one colour, in which every pixel takes entry 0. -/
theorem shortCircuitChangesNothing : Obligations.ShortCircuitChangesNothing := by
  intro s h
  refine ⟨_, _, rfl, rfl, ?_⟩
  change indexWord (paletteOf s.c0 s.c1) s.pix = 0#32
  rw [h, paletteOf_self, indexWord_replicate]

end Sys2Proof.Machine
end

section
/-! The encoder and the driver, phase by phase (44_encode_and_driver.md): `ENCODE` (R125), `STORE` (R126), `NEXT` (R127),
`CHECK` (R128), and the acceptance of a command (R129). -/

namespace Sys2Proof.Machine

/-! ### ENCODE (R125) -/

/-- Settles O35: the endpoint word is the two packed endpoints, the index word the one the flag selects. -/
theorem encodeWords : Obligations.EncodeWords := by
  intro s
  refine ⟨endpointWord s.c0 s.c1, if s.degen then 0#32 else s.idx, rfl, endpointWord_toNat _ _, fun hd => ?_,
    fun hd => ?_⟩
  · rw [if_pos hd]
    rfl
  · exact if_neg (ne_true_of_eq_false hd)

/-! ### STORE (R126) -/

/-- `STORE` completes when the second of its words is backed: the first lies below it. -/
theorem exec_store_backed {s : State} (h : s.dstBacked (s.endpointSlot + 1) = true) :
    exec .store s = .next (((s.storeWord s.endpointSlot s.w0).storeWord (s.endpointSlot + 1) s.w1).goto Phase.next) := by
  have hfirst : s.dstBacked s.endpointSlot = true := by
    rw [State.dstBacked_iff] at h ⊢
    omega
  exact if_pos (Bool.and_eq_true_iff.mpr ⟨hfirst, h⟩)

/-- Outside their eight bytes two adjacent word writes change nothing. -/
theorem Memory.read_writeWord_pair_outside {m : Memory} {i a : Nat} {x y : Word} (h : a < 4 * i ∨ 4 * i + 8 ≤ a) :
    ((m.writeWord i x).writeWord (i + 1) y).read a = m.read a := by
  rw [Memory.read_writeWord_outside (by omega), Memory.read_writeWord_outside (by omega)]

/-- Settles O36: the two words are four bytes each, and the second leaves the first alone. -/
theorem storeWritesTheBlock : Obligations.StoreWritesTheBlock := by
  intro s hm hbacked hspace
  have hslot : 8 * s.cnt.toNat = 4 * s.endpointSlot := by
    rw [State.endpointSlot]
    omega
  refine ⟨(s.dst.writeWord s.endpointSlot s.w0).writeWord (s.endpointSlot + 1) s.w1,
    exec_store_backed ((s.dstBacked_iff _).mpr ⟨hbacked, hspace⟩), fun j hj => ⟨?_, ?_⟩,
    fun a ha => Memory.read_writeWord_pair_outside (hslot ▸ ha)⟩
  · rw [hslot, Memory.read_writeWord_outside (by omega), Memory.read_writeWord_byte hm _ j _ hj, wordByte_toNat]
  · rw [hslot, show 4 * s.endpointSlot + 4 + j = 4 * (s.endpointSlot + 1) + j by omega,
      Memory.read_writeWord_byte (Memory.writeWord_wf hm _ _) _ j _ hj, wordByte_toNat]

/-! ### NEXT (R127) -/

theorem exec_next_last {s : State} (h : s.cnt.toNat + 1 = s.blockCount) :
    exec .next s = .next (s.setCnt (nextCount s.cnt)).finish := if_pos (decide_eq_true h)

theorem exec_next_more {s : State} (h : s.cnt.toNat + 1 ≠ s.blockCount) :
    exec .next s = .next ((s.setCnt (nextCount s.cnt)).goto Phase.fetch) := if_neg (mt of_decide_eq_true h)

/-- Settles O38: the loop test compares the count just written with `NBLK`. -/
theorem nextPhase : Obligations.NextPhase := by
  intro s
  refine ⟨nextCount s.cnt, nextCount_toNat, ?_⟩
  rw [← s.blockCount_eq]
  exact ⟨exec_next_last, exec_next_more⟩

/-! ### CHECK (R128) -/

theorem exec_check_bad {s : State} (h : s.width.toNat % 4 ≠ 0 ∨ s.height.toNat % 4 ≠ 0) :
    exec .check s = .next (s.raise .invalidDimensions) := if_pos (s.badDimensions_iff.mpr h)

section
variable {s : State} (hw : s.width.toNat % 4 = 0) (hh : s.height.toNat % 4 = 0)
include hw hh

/-- With good dimensions `CHECK` is the test for an empty image. -/
theorem exec_check_good :
    exec .check s = if s.blockCount = 0 then .next s.finish else .next (s.goto Phase.fetch) :=
  if_neg fun hbad => (s.badDimensions_iff.mp hbad).elim (· hw) (· hh)

theorem State.blockCount_eq_zero_iff : s.blockCount = 0 ↔ s.width.toNat = 0 ∨ s.height.toNat = 0 := by
  rw [s.blockCount_eq, Nat.mul_eq_zero]
  omega

theorem exec_check_empty (h : s.width.toNat = 0 ∨ s.height.toNat = 0) : exec .check s = .next s.finish :=
  (exec_check_good hw hh).trans (if_pos ((State.blockCount_eq_zero_iff hw hh).mpr h))

theorem exec_check_blocks (h : s.blockCount ≠ 0) : exec .check s = .next (s.goto Phase.fetch) :=
  (exec_check_good hw hh).trans (if_neg h)

end

/-- Settles O13, by the two tests of `CHECK`. -/
theorem checkPhase : Obligations.CheckPhase := by
  intro s
  refine ⟨exec_check_bad, fun hw hh => ⟨exec_check_empty hw hh, fun hw0 hh0 => exec_check_blocks hw hh fun hn => ?_⟩⟩
  exact ((State.blockCount_eq_zero_iff hw hh).mp hn).elim hw0 hh0

/-! ### Acceptance (R129, 46_host_commands.md R154) -/

/-- A command word written while `STATE` is not `BUSY` runs its command. -/
theorem step_command {s : State} {v : Word} {i : Instr} {rest : List Turn} (hs : s.script = .wr 0 v :: rest)
    (hb : s.state ≠ .busy) (hd : decode (.cmd v) = .ok i) : step s = exec i (s.setScript rest) :=
  step_of_run <| (nextWork_cons hs).trans <|
    (writeWork_command (s := s.setScript rest) hb).trans (commandWork_accepted hd)

end Sys2Proof.Machine
end

section
/-! The step that ends a `COMPRESS` (44_encode_and_driver.md R127, R131). -/

namespace Sys2Proof.Safety

open Sys2Proof.Machine

/-- Settles O56: `NEXT` ends the command only at the last block, and the block in hand is delivered by then. -/
theorem successDeliversTheImage : Obligations.SuccessDeliversTheImage := by
  intro s t hi hd h hm hp hstep hdone
  obtain ⟨i, ts, decoded, ran⟩ := engineMoves_runs hm hstep
  rw [hp] at decoded
  cases decoded
  obtain ⟨hlast, rfl⟩ | ⟨-, rfl⟩ := exec_next ran
  · have hlast : s.cnt.toNat + 1 = s.blockCount := hlast
    rw [← s.blockCount_eq, ← hlast]
    exact ⟨hi.nextCount_eq (phaseIn_of_eq hp (by decide) (by decide)), delivered_succ_of_next hi hd h hp⟩
  · exact absurd (hm.1.symm.trans hdone) (by decide)

end Sys2Proof.Safety
end

section
/-! `COMPRESS` as a function (44_encode_and_driver.md R131, R132, R134): a run with a silent host, block by block. -/

namespace Sys2Proof.Safety

open Sys2Proof.Machine

/-! ### Images that can be compressed -/

/-- The dimensions pass `CHECK` (R128), and the platform backs the sixteen pixels and the two words of every block. -/
structure Compressible (s : State) : Prop where
  width : s.width.toNat % 4 = 0
  height : s.height.toNat % 4 = 0
  src : 64 * s.blockCount ≤ s.cfg.srcSize
  dst : 2 * s.blockCount ≤ s.cfg.dstSize

/-- An image of whole blocks has sixteen pixels for each. -/
theorem width_mul_height {s : State} (hw : s.width.toNat % 4 = 0) (hh : s.height.toNat % 4 = 0) :
    s.width.toNat * s.height.toNat = 16 * s.blockCount := by
  obtain ⟨a, ha⟩ := Nat.dvd_of_mod_eq_zero hw
  obtain ⟨b, hb⟩ := Nat.dvd_of_mod_eq_zero hh
  rw [s.blockCount_eq, ha, hb, Nat.mul_div_cancel_left a (by decide), Nat.mul_div_cancel_left b (by decide)]
  ring

section
variable {s : State} (h : Compressible s) (hc : s.cnt.toNat < s.blockCount)
include h hc

/-- Every pixel of block `CNT` lies in the image. -/
theorem Compressible.pixelIndex_lt {row col : Nat} (hrow : row < 4) (hcol : col < 4) :
    s.pixelIndex (row * 4 + col) < 16 * s.blockCount := by
  have hcols : 0 < s.blocksPerRow := Nat.pos_of_ne_zero (State.blocksPerRow_ne_zero hc)
  have hx : s.cnt.toNat % s.blocksPerRow < s.blocksPerRow := Nat.mod_lt _ hcols
  have hy : s.cnt.toNat / s.blocksPerRow < s.blockRows := Nat.div_lt_of_lt_mul hc
  have hwidth := h.width
  have hheight := h.height
  have hrows : s.blockRows = s.height.toNat / 4 := Nat.shiftRight_eq_div_pow _ 2
  rw [s.blocksPerRow_eq] at hx hy hcols
  rw [State.pixelIndex_eq (by omega) hcol, ← width_mul_height h.width h.height, Nat.mul_comm s.width.toNat]
  calc (4 * (s.cnt.toNat / (s.width.toNat / 4)) + row) * s.width.toNat
        + (4 * (s.cnt.toNat % (s.width.toNat / 4)) + col)
      < (4 * (s.cnt.toNat / (s.width.toNat / 4)) + row) * s.width.toNat + s.width.toNat := by omega
    _ = (4 * (s.cnt.toNat / (s.width.toNat / 4)) + row + 1) * s.width.toNat := (Nat.succ_mul _ _).symm
    _ ≤ s.height.toNat * s.width.toNat := Nat.mul_le_mul_right _ (by omega)

/-- `FETCH` is not stuck (20_memory.md R54). -/
theorem Compressible.blockBacked : s.blockBacked = true := by
  rw [State.blockBacked_iff]
  intro row col hrow hcol
  have hpixel := h.pixelIndex_lt hc hrow hcol
  have hsize := h.src
  have hcount := s.blockCount_lt
  omega

/-- `STORE` is not stuck (20_memory.md R54). -/
theorem Compressible.slotBacked : s.dstBacked (s.endpointSlot + 1) = true := by
  have hsize := h.dst
  have hcount := s.blockCount_lt
  rw [State.dstBacked_iff, State.endpointSlot]
  omega

end

/-! ### A command under way -/

/-- In `u` the `COMPRESS` accepted in `s` is about to run phase `p` of block `c`, with a silent host: the first `n` blocks are
in DST, which is otherwise as it was, and so is all that the command reads. -/
structure Underway (s : State) (p : BitVec 4) (c n : Nat) (u : State) : Prop where
  silent : u.script = []
  busy : u.state = .busy
  phase : u.phase = p
  cause : u.cause = 0#4
  cnt : u.cnt.toNat = c
  width : u.width = s.width
  height : u.height = s.height
  src : u.src = s.src
  cfg : u.cfg = s.cfg
  canonical : u.dst.wf = true
  dataflow : Dataflow u
  delivered : Delivered u n
  untouched : ∀ a, 8 * n ≤ a → u.dst.read a = s.dst.read a

section
variable {s u t : State} {p q : BitVec 4} {c d n m : Nat} {i : Instr} (h : Underway s p c n u)
include h

theorem Underway.blockCount : u.blockCount = s.blockCount := State.blockCount_congr h.width h.height

theorem Underway.compressible (hs : Compressible s) : Compressible u := by
  obtain ⟨hw, hh, hsrc, hdst⟩ := hs
  rw [← h.blockCount, ← h.cfg] at hsrc hdst
  exact ⟨h.width ▸ hw, h.height ▸ hh, hsrc, hdst⟩

theorem Underway.lt_blockCount (hc : c < s.blockCount) : u.cnt.toNat < u.blockCount := by
  rwa [h.cnt, h.blockCount]

theorem Underway.decoded (hp : encode i = .phase p) : decode (.phase u.phase) = .ok i := by
  rw [h.phase, ← hp, decode_encode]

/-- The step runs the phase; what no phase can change, and what the registers hold, needs no further argument. -/
theorem Underway.ran (he : exec i u = .next t) (hp : encode i = .phase p) (hq : t.phase = q) (hb : t.state = u.state)
    (hc : t.cause = u.cause) (hcnt : t.cnt.toNat = d) (hm : t.dst.wf = true) (hd : Dataflow t → Delivered t m)
    (hu : ∀ a, 8 * m ≤ a → t.dst.read a = s.dst.read a) : step u = .next t ∧ Underway s q d m t := by
  have hdec := h.decoded hp
  have hflow := h.dataflow.phase h.canonical hdec he
  obtain ⟨hw, hh, hs, hg, hscript, -⟩ := exec_keeps_operands he
  exact ⟨(step_busy h.silent h.busy hdec).trans he,
    { silent := hscript.trans h.silent, busy := hb.trans h.busy, phase := hq, cause := hc.trans h.cause, cnt := hcnt,
      width := hw.trans h.width, height := hh.trans h.height, src := hs.trans h.src, cfg := hg.trans h.cfg,
      canonical := hm, dataflow := hflow, delivered := hd hflow, untouched := hu }⟩

/-- A phase that leaves DST alone delivers nothing. -/
theorem Underway.ran_keeping_dst (he : exec i u = .next t) (hp : encode i = .phase p) (hq : t.phase = q)
    (hb : t.state = u.state) (hc : t.cause = u.cause) (hcnt : t.cnt.toNat = d) (hdst : t.dst = u.dst) :
    step u = .next t ∧ Underway s q d n t := by
  obtain ⟨hw, -, hs, -⟩ := exec_keeps_operands he
  exact h.ran he hp hq hb hc hcnt (hdst ▸ h.canonical)
    (fun _ => h.delivered.congr hw hs fun i _ => by rw [hdst]) (hdst ▸ h.untouched)

/-- `FETCH` to `ENCODE` change only the datapath registers and `PHASE`. -/
theorem Underway.datapath (i : Instr) (q : BitVec 4) (he : ∃ t, exec i u = .next t ∧ t.phase = q)
    (hp : encode i = .phase p := by rfl) (hin : 2 ≤ p.toNat ∧ p.toNat ≤ 9 := by decide) :
    ∃ t, step u = .next t ∧ Underway s q c n t := by
  obtain ⟨t, he, hq⟩ := he
  have hphase := h.phase
  cases phase_cases (h.decoded hp) he with
  | datapath _ _ frame dst =>
    exact ⟨t, h.ran_keeping_dst he hp hq frame.state frame.cause ((congrArg BitVec.toNat frame.cnt).trans h.cnt) dst⟩
  | idle phase | badDimensions phase | emptyImage phase | loopEntered phase | stored phase | lastCounted phase
  | counted phase | fillEnded phase | filled phase =>
    subst hphase
    simp [phase] at hin

end

/-! ### The phases of a block -/

section
variable {s u : State} {c n : Nat}

/-- `FETCH`, `BBOX`, `INSET` and `ENDPT`. -/
theorem Underway.run_analyzer (h : Underway s Phase.fetch c n u) (hb : u.blockBacked = true) :
    ∃ t, core.run 4 u = .next t ∧ Underway s Phase.order c n t := by
  obtain ⟨t₁, e₁, h₁⟩ := h.datapath .fetch Phase.bbox ⟨_, exec_fetch_backed hb, rfl⟩
  obtain ⟨t₂, e₂, h₂⟩ := h₁.datapath .bbox Phase.inset ⟨_, rfl, rfl⟩
  obtain ⟨t₃, e₃, h₃⟩ := h₂.datapath .inset Phase.endpt ⟨_, rfl, rfl⟩
  obtain ⟨t₄, e₄, h₄⟩ := h₃.datapath .endpt Phase.order ⟨_, rfl, rfl⟩
  exact ⟨t₄, by rw [run_succ e₁, run_succ e₂, run_succ e₃, run_succ e₄, run_zero], h₄⟩

/-- `ORDER`, and on the long path `PALETTE` and `INDEX`. -/
theorem Underway.run_indexer (h : Underway s Phase.order c n u) :
    ∃ t, core.run (if u.c0 = u.c1 then 1 else 3) u = .next t ∧ Underway s Phase.encode c n t := by
  by_cases heq : u.c0 = u.c1
  · obtain ⟨t, e, ht⟩ := h.datapath .order Phase.encode ⟨_, exec_order_equal heq, rfl⟩
    exact ⟨t, by rw [if_pos heq, run_succ e, run_zero], ht⟩
  · obtain ⟨t₁, e₁, h₁⟩ := h.datapath .order Phase.palette (by
      rw [exec_order_unequal heq]
      split <;> exact ⟨_, rfl, rfl⟩)
    obtain ⟨t₂, e₂, h₂⟩ := h₁.datapath .palette Phase.index ⟨_, rfl, rfl⟩
    obtain ⟨t₃, e₃, h₃⟩ := h₂.datapath .index Phase.encode ⟨_, rfl, rfl⟩
    exact ⟨t₃, by rw [if_neg heq, run_succ e₁, run_succ e₂, run_succ e₃, run_zero], h₃⟩

/-- `STORE` delivers the block in hand. -/
theorem Underway.store (h : Underway s Phase.store c c u) (hc : c < s.blockCount)
    (hb : u.dstBacked (u.endpointSlot + 1) = true) : ∃ t, step u = .next t ∧ Underway s Phase.next c (c + 1) t := by
  have hcols := State.blocksPerRow_ne_zero (h.lt_blockCount hc)
  have hslot : u.endpointSlot = 2 * c := congrArg (2 * ·) h.cnt
  refine ⟨_, h.ran (exec_store_backed hb) rfl rfl rfl rfl h.cnt
    (Memory.writeWord_wf (Memory.writeWord_wf h.canonical _ _) _ _) (fun hflow => ?_) fun a ha => ?_⟩
  · have hblock := (hflow.hasStored ⟨le_rfl, le_rfl⟩).compressedBlock hcols
    refine Delivered.succ (h.delivered.congr rfl rfl fun i hi => ?_) (h.cnt ▸ hblock)
    exact (Memory.readWord_writeWord_other (by omega)).trans (Memory.readWord_writeWord_other (by omega))
  · exact (Memory.read_writeWord_pair_outside (by omega)).trans (h.untouched a (by omega))

/-- `ENCODE` and `STORE`. -/
theorem Underway.run_encoder (h : Underway s Phase.encode c c u) (hs : Compressible s) (hc : c < s.blockCount) :
    ∃ t, core.run 2 u = .next t ∧ Underway s Phase.next c (c + 1) t := by
  obtain ⟨t₁, e₁, h₁⟩ := h.datapath .encode Phase.store ⟨_, rfl, rfl⟩
  obtain ⟨t₂, e₂, h₂⟩ := h₁.store hc ((h₁.compressible hs).slotBacked (h₁.lt_blockCount hc))
  exact ⟨t₂, by rw [run_succ e₁, run_succ e₂, run_zero], h₂⟩

/-- The endpoints of the block in hand are the halves of its endpoint word (30_encoding.md R68). -/
theorem Underway.degenerateBlock (h : Underway s Phase.order c n u) (hcols : u.blocksPerRow ≠ 0) :
    DegenerateBlock s c = decide (u.c0 = u.c1) := by
  have held := h.dataflow.hasEndpoints (phaseIn_of_eq h.phase (by decide) (by decide))
  have hword : (Reference.compressedBlock s.src s.width.toNat c).1 = endpointWord u.c0 u.c1 := by
    rw [← h.src, ← h.width, ← h.cnt, Reference.compressedBlock, ← State.fetchedBlock_toList hcols, ← held.pixels,
      held.analyzed.block, held.endpointMax, held.endpointMin]
  have h0 := u.c0.isLt
  simp only [DegenerateBlock, hword, endpointWord_toNat, ← BitVec.toNat_inj]
  exact decide_eq_decide.mpr (by omega)

end

/-! ### The loop over the blocks -/

/-- The steps a block takes (R134). -/
def blockSteps (s : State) (b : Nat) : Nat := if DegenerateBlock s b then 8 else 10

/-- The steps the first `n` blocks take. -/
def loopSteps (s : State) : Nat → Nat
  | 0 => 0
  | n + 1 => loopSteps s n + blockSteps s n

/-- The degenerate blocks among the first `n` save two steps each. -/
theorem loopSteps_add_degenerate (s : State) (n : Nat) :
    loopSteps s n + 2 * ((List.range n).filter (DegenerateBlock s)).length = 10 * n := by
  induction n with
  | zero => rfl
  | succ n ih =>
    rw [loopSteps, List.range_succ, List.filter_append, List.length_append, blockSteps]
    cases hd : DegenerateBlock s n <;> simp [hd] <;> omega

section
variable {s u v : State} {c : Nat}

/-- From the step before its `FETCH` to its `NEXT` a block takes its steps. -/
theorem Underway.run_block (h : Underway s Phase.fetch c c u) (hs : Compressible s) (hc : c < s.blockCount)
    (e : step v = .next u) : ∃ t, core.run (blockSteps s c) v = .next t ∧ Underway s Phase.next c (c + 1) t := by
  obtain ⟨t₁, e₁, h₁⟩ := h.run_analyzer ((h.compressible hs).blockBacked (h.lt_blockCount hc))
  obtain ⟨t₂, e₂, h₂⟩ := h₁.run_indexer
  obtain ⟨t₃, e₃, h₃⟩ := h₂.run_encoder hs hc
  have hdeg := h₁.degenerateBlock (State.blocksPerRow_ne_zero (h₁.lt_blockCount hc))
  have hsteps : blockSteps s c = 4 + ((if t₁.c0 = t₁.c1 then 1 else 3) + 2) + 1 := by
    rw [blockSteps, hdeg]
    by_cases heq : t₁.c0 = t₁.c1 <;> simp [heq]
  exact ⟨t₃, by rw [hsteps, run_succ e, run_add e₁, run_add e₂, e₃], h₃⟩

/-- `CHECK` of an image with blocks enters the loop. -/
theorem Underway.check (h : Underway s Phase.check 0 0 u) (hs : Compressible s) (hn : s.blockCount ≠ 0) :
    ∃ t, step u = .next t ∧ Underway s Phase.fetch 0 0 t :=
  have hu := h.compressible hs
  ⟨_, h.ran_keeping_dst (exec_check_blocks hu.width hu.height (h.blockCount ▸ hn)) rfl rfl rfl rfl h.cnt rfl⟩

theorem Underway.nextCount_eq (h : Underway s Phase.next c (c + 1) u) (hc : c < s.blockCount) :
    (nextCount u.cnt).toNat = c + 1 := by
  have hn := s.blockCount_lt
  rw [nextCount_toNat (by rw [h.cnt]; omega), h.cnt]

/-- `NEXT` before the last block goes on to the next. -/
theorem Underway.next (h : Underway s Phase.next c (c + 1) u) (hc : c + 1 < s.blockCount) :
    ∃ t, step u = .next t ∧ Underway s Phase.fetch (c + 1) (c + 1) t := by
  have hmore : u.cnt.toNat + 1 ≠ u.blockCount := by
    rw [h.cnt, h.blockCount]
    omega
  exact ⟨_, h.ran_keeping_dst (exec_next_more hmore) rfl rfl rfl rfl (h.nextCount_eq (by omega)) rfl⟩

/-- From `CHECK` to the `NEXT` of block `c`, by induction over the blocks. -/
theorem Underway.run_loop (h : Underway s Phase.check 0 0 u) (hs : Compressible s) (hc : c < s.blockCount) :
    ∃ t, core.run (loopSteps s (c + 1)) u = .next t ∧ Underway s Phase.next c (c + 1) t := by
  induction c with
  | zero =>
    obtain ⟨t, e, ht⟩ := h.check hs (by omega)
    simpa [loopSteps] using ht.run_block hs hc e
  | succ c ih =>
    obtain ⟨t₁, e₁, h₁⟩ := ih (by omega)
    obtain ⟨t₂, e₂, h₂⟩ := h₁.next hc
    rw [loopSteps, run_add e₁]
    exact h₂.run_block hs hc e₂

end

/-! ### The command -/

/-- The state in which `CHECK` is about to run, the host silent from then on (R129). -/
def compressAccepted (s : State) : State := (s.setScript []).start Phase.check

section
variable {s : State}

theorem step_compress (hb : s.state ≠ .busy) : step (s.setScript [.wr 0 1#32]) = .next (compressAccepted s) :=
  (step_command (s := s.setScript [.wr 0 1#32]) rfl hb rfl).trans (if_neg hb)

theorem step_compressAccepted : step (compressAccepted s) = exec .check (compressAccepted s) :=
  step_busy rfl rfl (decode_encode .check)

theorem underway_compressAccepted (hm : s.dst.wf = true) : Underway s Phase.check 0 0 (compressAccepted s) where
  silent := rfl
  busy := rfl
  phase := rfl
  cause := rfl
  cnt := rfl
  width := rfl
  height := rfl
  src := rfl
  cfg := rfl
  canonical := hm
  dataflow := dataflow_of_unfetched (by simp [PhaseIn, compressAccepted])
  delivered := fun b hb => absurd hb b.not_lt_zero
  untouched := fun _ _ => rfl

/-- What a successful `COMPRESS` of `s` has left in `t` (R131). -/
structure Compressed (s t : State) : Prop where
  state : t.state = .doneOk
  cause : t.cause = 0#4
  cnt : t.cnt.toNat = s.blockCount
  src : t.src = s.src
  delivered : ∀ b, b < s.blockCount →
    (t.dst.readWord (2 * b), t.dst.readWord (2 * b + 1)) = Reference.compressedBlock s.src s.width.toNat b
  untouched : ∀ a, 8 * s.blockCount ≤ a → t.dst.read a = s.dst.read a

/-- The `NEXT` of the last block ends the command. -/
theorem Underway.finish {u : State} {c : Nat} (h : Underway s Phase.next c (c + 1) u) (hc : c + 1 = s.blockCount) :
    ∃ t, step u = .next t ∧ Compressed s t := by
  have hlast : u.cnt.toNat + 1 = u.blockCount := by rw [h.cnt, h.blockCount, hc]
  have hcnt := h.nextCount_eq (by omega)
  have hdone := h.delivered
  have hrest := h.untouched
  rw [hc] at hcnt hdone hrest
  rw [Delivered, h.src, h.width] at hdone
  exact ⟨_, (step_busy h.silent h.busy (h.decoded rfl)).trans (exec_next_last hlast),
    { state := rfl, cause := h.cause, cnt := hcnt, src := h.src, delivered := hdone, untouched := hrest }⟩

/-- The whole run: acceptance, `CHECK` and the blocks up to the last `NEXT`, which is one more step. -/
theorem run_compress (hb : s.state ≠ .busy) (hm : s.dst.wf = true) (hs : Compressible s) (hn : s.blockCount ≠ 0) :
    ∃ u t, core.run (1 + loopSteps s s.blockCount) (s.setScript [.wr 0 1#32]) = .next u ∧ u.state = .busy ∧
      step u = .next t ∧ Compressed s t := by
  obtain ⟨c, hc⟩ := Nat.exists_eq_add_one_of_ne_zero hn
  obtain ⟨u, hrun, hu⟩ := (underway_compressAccepted hm).run_loop hs (c := c) (by omega)
  obtain ⟨t, hend, ht⟩ := hu.finish hc.symm
  exact ⟨u, t, by rw [Nat.add_comm, run_succ (step_compress hb), hc, hrun], hu.busy, hend, ht⟩

end

/-- Settles O57: `CHECK` ends the command at once, or it is the run over the blocks. -/
theorem compressComputesTheReference : Obligations.CompressComputesTheReference := by
  intro s hb start busyAfter
  have e₀ : step start = .next (compressAccepted s) := step_compress hb
  have hbusy : busyAfter 1 := ⟨_, run_succ e₀ 0, rfl⟩
  refine ⟨fun hbad => ⟨hbusy, ?_⟩, fun hw hh hempty => ⟨hbusy, ?_⟩, fun hm hw hh hw0 hh0 hsrc hdst => ?_⟩
  · rw [run_succ e₀, run_succ (step_compressAccepted.trans (exec_check_bad hbad))]
    rfl
  · rw [run_succ e₀, run_succ (step_compressAccepted.trans (exec_check_empty hw hh hempty))]
    rfl
  · rw [Nat.mul_assoc] at hsrc
    rw [← s.blockCount_eq]
    have himage := width_mul_height hw hh
    have hs : Compressible s := ⟨hw, hh, by omega, by omega⟩
    have hn : s.blockCount ≠ 0 := fun h0 => ((State.blockCount_eq_zero_iff hw hh).mp h0).elim hw0 hh0
    obtain ⟨u, t, hrun, hubusy, hend, ht⟩ := run_compress hb hm hs hn
    intro nblk nd
    have hsteps : loopSteps s nblk + 2 * nd = 10 * nblk := loopSteps_add_degenerate s nblk
    have hlen : 1 + 10 * nblk - 2 * nd = 1 + loopSteps s nblk := by omega
    refine ⟨by omega, by omega, ⟨u, hlen ▸ hrun, hubusy⟩, t, ?_, ht.state, ht.cause, ht.cnt, ht.src, ht.delivered,
      fun a ha => ht.untouched a (by omega)⟩
    rw [hlen, Nat.add_comm]
    exact (run_add hrun 1).trans (run_succ hend 0)

end Sys2Proof.Safety
end

section
/-! The transparent-image generator (45_transparent_fill.md): the phase `FILL` (R146). -/

namespace Sys2Proof.Machine

theorem wordByte_fillWord : ∀ j < 4, wordByte fillWord j = 255#8 := by decide

/-- The four bytes of a word filled. -/
theorem Memory.read_writeWord_fillWord {m : Memory} (hm : m.wf = true) {i a : Nat} (hlo : 4 * i ≤ a)
    (hhi : a < 4 * i + 4) : (m.writeWord i fillWord).read a = 255#8 := by
  obtain ⟨j, rfl⟩ := Nat.exists_eq_add_of_le hlo
  have hj : j < 4 := by omega
  rw [Memory.read_writeWord_byte hm i j _ hj, wordByte_fillWord j hj]

theorem exec_fill_done {s : State} (h : s.fillDone = true) : exec .fill s = .next s.finish := if_pos h

theorem exec_fill_more {s : State} (hmore : ¬s.fillDone = true) (hbacked : s.dstBacked s.fillSlot = true) :
    exec .fill s = .next ((s.storeWord s.fillSlot fillWord).setCnt (nextCount s.cnt)) :=
  (if_neg hmore).trans (if_pos hbacked)

/-- Every 29-bit count is a word address of DST, so the platform alone decides whether the slot is backed (R54). -/
theorem State.fillSlot_backed {s : State} (h : s.cnt.toNat < s.cfg.dstSize) : s.dstBacked s.fillSlot = true :=
  (s.dstBacked_iff _).mpr ⟨h, s.cnt.isLt⟩

/-- Settles O39, by the loop test of `FILL`. -/
theorem fillPhase : Obligations.FillPhase := by
  intro s
  refine ⟨fun hdone => exec_fill_done (s.fillDone_iff.mpr hdone), fun hmore hm hsize => ?_⟩
  exact ⟨s.dst.writeWord s.fillSlot fillWord, nextCount s.cnt,
    exec_fill_more (mt s.fillDone_iff.mp hmore) (State.fillSlot_backed hsize), nextCount_toNat,
    fun j hj => Memory.read_writeWord_fillWord hm (Nat.le_add_right _ _) (Nat.add_lt_add_left hj _),
    fun a ha => Memory.read_writeWord_outside ha⟩

end Sys2Proof.Machine
end

section
/-! `TFILL` as a function (45_transparent_fill.md R145 to R148): a run with a silent host, word by word. -/

namespace Sys2Proof.Safety

open Sys2Proof.Machine

/-- In `u` the `TFILL` accepted in `s` has written its first `n` words, and nothing else of DST; the host is silent. -/
structure Filling (s : State) (n : Nat) (u : State) : Prop where
  silent : u.script = []
  busy : u.state = .busy
  phase : u.phase = Phase.fill
  cause : u.cause = 0#4
  cnt : u.cnt.toNat = n
  width : u.width = s.width
  height : u.height = s.height
  src : u.src = s.src
  cfg : u.cfg = s.cfg
  canonical : u.dst.wf = true
  filled : ∀ a, a < 4 * n → u.dst.read a = 255#8
  untouched : ∀ a, 4 * n ≤ a → u.dst.read a = s.dst.read a

/-- The state in which `FILL` is about to run for the first time, the host silent from then on (R145). -/
def fillAccepted (s : State) : State := (s.setScript []).start Phase.fill

section
variable {s u : State} {n : Nat}

theorem step_tfill (hb : s.state ≠ .busy) : step (s.setScript [.wr 0 2#32]) = .next (fillAccepted s) :=
  (step_command (s := s.setScript [.wr 0 2#32]) rfl hb rfl).trans (if_neg hb)

theorem filling_fillAccepted (hm : s.dst.wf = true) : Filling s 0 (fillAccepted s) where
  silent := rfl
  busy := rfl
  phase := rfl
  cause := rfl
  cnt := rfl
  width := rfl
  height := rfl
  src := rfl
  cfg := rfl
  canonical := hm
  filled := fun a ha => absurd ha a.not_lt_zero
  untouched := fun _ _ => rfl

theorem Filling.step_eq (h : Filling s n u) : step u = exec .fill u :=
  step_busy h.silent h.busy (by rw [h.phase]; exact decode_encode .fill)

theorem Filling.fillDone_iff (h : Filling s n u) : u.fillDone = true ↔ n = s.fillWords := by
  rw [State.fillDone, decide_eq_true_eq, h.cnt, State.fillWords_congr h.width h.height]

/-- Before the last word a step of `FILL` writes one more. -/
theorem Filling.more (h : Filling s n u) (hn : n < s.fillWords) (hsize : s.fillWords ≤ s.cfg.dstSize) :
    ∃ t, step u = .next t ∧ Filling s (n + 1) t := by
  have hslot : u.fillSlot = n := h.cnt
  have hbacked : u.dstBacked u.fillSlot = true := State.fillSlot_backed (by rw [h.cnt, h.cfg]; omega)
  have hcnt : (nextCount u.cnt).toNat = n + 1 := by
    have hlt := s.fillWords_lt
    rw [nextCount_toNat (by rw [h.cnt]; omega), h.cnt]
  refine ⟨_, h.step_eq.trans (exec_fill_more (fun hdone => hn.ne (h.fillDone_iff.mp hdone)) hbacked),
    { h with cnt := hcnt, canonical := Memory.writeWord_wf h.canonical _ _, filled := fun a ha => ?_,
             untouched := fun a ha => ?_ }⟩
  · by_cases hold : a < 4 * n
    · exact (Memory.read_writeWord_outside (by omega)).trans (h.filled a hold)
    · exact Memory.read_writeWord_fillWord h.canonical (by omega) (by omega)
  · exact (Memory.read_writeWord_outside (by omega)).trans (h.untouched a (by omega))

/-- The first `n` steps write the first `n` words, by induction over the words. -/
theorem run_fill (hm : s.dst.wf = true) (hsize : s.fillWords ≤ s.cfg.dstSize) (hn : n ≤ s.fillWords) :
    ∃ u, core.run n (fillAccepted s) = .next u ∧ Filling s n u := by
  induction n with
  | zero => exact ⟨_, run_zero _, filling_fillAccepted hm⟩
  | succ n ih =>
    obtain ⟨u, hrun, hu⟩ := ih (by omega)
    obtain ⟨t, hstep, ht⟩ := hu.more hn hsize
    exact ⟨t, (run_add hrun 1).trans (run_succ hstep 0), ht⟩

/-- With every word written the next step ends the command and leaves all else as it was. -/
theorem Filling.ended (h : Filling s s.fillWords u) : step u = .next u.finish :=
  h.step_eq.trans (exec_fill_done (h.fillDone_iff.mpr rfl))

end

/-- Settles O58: acceptance, the run over the words, and the step that finds the count at `NW`. -/
theorem fillComputesThePlaceholder : Obligations.FillComputesThePlaceholder := by
  intro s hb hm hsize
  rw [← s.fillWords_eq] at hsize ⊢
  intro nw start
  have hstart : step start = .next (fillAccepted s) := step_tfill hb
  obtain ⟨u, hrun, hu⟩ := run_fill hm hsize le_rfl
  refine ⟨⟨u, ?_, hu.busy⟩, u.finish, ?_, rfl, hu.cause, hu.cnt, hu.src, hu.filled, hu.untouched⟩
  · rw [Nat.add_comm, run_succ hstart, hrun]
  · rw [Nat.add_comm, run_succ hstart, run_add hrun, run_succ hu.ended, run_zero]

end Sys2Proof.Safety
end

section
/-! The host's side (46_host_commands.md): the commands (R150, R151) and their acceptance (R154), the register
transactions (R152, R153), the host's accesses to the memories (R159), and which instruction a step runs (R158). -/

namespace Sys2Proof.Machine

section
variable {s : State} {i : Instr} {v : Word} {rest : List Turn}

/-! ### The commands (R150, R151, R129, R145) -/

theorem exec_compress_busy (hb : s.state = .busy) : exec .compress s = .next s := if_pos hb

theorem exec_tfill_busy (hb : s.state = .busy) : exec .tfill s = .next s := if_pos hb

theorem exec_clear_busy (hb : s.state = .busy) : exec .clear s = .next s := if_pos hb

theorem exec_compress_ready (hb : s.state ≠ .busy) : exec .compress s = .next (s.start Phase.check) := if_neg hb

theorem exec_tfill_ready (hb : s.state ≠ .busy) : exec .tfill s = .next (s.start Phase.fill) := if_neg hb

theorem exec_clear_ready (hb : s.state ≠ .busy) : exec .clear s = .next s.acknowledge := if_neg hb

/-- A word with the value of an instruction's command word is read as that instruction. -/
theorem decode_cmd_of_toNat {w : Word} (hi : encode i = .cmd w) (hv : v.toNat = w.toNat) :
    decode (.cmd v) = .ok i := by
  rw [BitVec.eq_of_toNat_eq hv, ← hi]
  exact decode_encode i

/-! ### Register transactions (R152, R153) -/

/-- A read takes the turn and returns what the register holds, in every `STATE`. -/
theorem step_read {off : Nat} (hs : s.script = .rd off :: rest) :
    step s = .next ((s.setScript rest).setHostData (s.readReg off)) :=
  step_of_done (nextWork_cons hs)

theorem State.readReg_reserved {off : Nat} (h : 6 ≤ off) : s.readReg off = 0#32 := by
  obtain ⟨k, rfl⟩ := Nat.exists_eq_add_of_le' h
  rfl

/-- A write to a register other than `CMD` while `STATE` is not `BUSY`. -/
theorem step_write_register {off : Nat} (hs : s.script = .wr off v :: rest) (hb : s.state ≠ .busy) (ho : off ≠ 0) :
    step s = .next ((s.setScript rest).writeReg off v) :=
  step_of_done <| (nextWork_cons hs).trans (writeWork_register (s := s.setScript rest) hb ho)

/-- Every register but `WIDTH` and `HEIGHT` ignores a write. -/
theorem State.writeReg_ignored {off : Nat} (hw : off ≠ 2) (hh : off ≠ 3) : s.writeReg off v = s := by
  obtain ⟨h, -⟩ | ⟨h, -⟩ | h := writeReg_cases s off v
  · exact absurd h hw
  · exact absurd h hh
  · exact h

/-- The half of a written value that `WIDTH` and `HEIGHT` keep. -/
theorem lowHalf_toNat (v : Word) : (v.extractLsb' 0 16).toNat = v.toNat % 65536 := BitVec.extractLsb'_toNat 0 16 v

/-! ### Host accesses to backed memory (R159) -/

theorem step_srcWrite {a : Nat} {b : Byte} (hs : s.script = .srcw a b :: rest) (hb : s.state ≠ .busy)
    (ha : s.srcBacked a = true) : step s = .next ((s.setScript rest).storeSrc a b) :=
  (step_of_done (nextWork_cons hs)).trans <| (if_neg hb).trans (if_pos ha)

theorem step_srcRead {a : Nat} (hs : s.script = .srcr a :: rest) (hb : s.state ≠ .busy) (ha : s.srcBacked a = true) :
    step s = .next ((s.setScript rest).setHostData ((s.src.read a).setWidth 32)) :=
  (step_of_done (nextWork_cons hs)).trans <| (if_neg hb).trans (if_pos ha)

theorem step_dstWrite {j : Nat} (hs : s.script = .dstw j v :: rest) (hb : s.state ≠ .busy)
    (hj : s.dstBacked j = true) : step s = .next ((s.setScript rest).storeWord j v) :=
  (step_of_done (nextWork_cons hs)).trans <| (if_neg hb).trans (if_pos hj)

theorem step_dstRead {j : Nat} (hs : s.script = .dstr j :: rest) (hb : s.state ≠ .busy) (hj : s.dstBacked j = true) :
    step s = .next ((s.setScript rest).setHostData (s.dst.readWord j)) :=
  (step_of_done (nextWork_cons hs)).trans <| (if_neg hb).trans (if_pos hj)

/-! ### The instruction a step runs (R158, 30_encoding.md R72) -/

/-- An engine turn while `BUSY` is taken and runs the phase. -/
theorem step_engineTurn (hs : s.script = .engine :: rest) (hb : s.state = .busy)
    (hd : decode (.phase s.phase) = .ok i) : step s = exec i (s.setScript rest) :=
  step_of_run <| (nextWork_cons hs).trans (engineWork_busy (s := s.setScript rest) hb hd)

/-- `WAIT` while `BUSY` runs the phase and stays at the head of the script. -/
theorem step_wait_busy (hs : s.script = .wait :: rest) (hb : s.state = .busy)
    (hd : decode (.phase s.phase) = .ok i) : step s = exec i s :=
  step_of_run <| (nextWork_cons hs).trans <| (if_pos hb).trans (engineWork_busy hb hd)

/-- `WAIT` while `STATE` is not `BUSY` is a read of `STATUS`. -/
theorem step_wait_ready (hs : s.script = .wait :: rest) (hb : s.state ≠ .busy) :
    step s = .next ((s.setScript rest).setHostData s.statusWord) :=
  step_of_done <| (nextWork_cons hs).trans (if_neg hb)

theorem turnWork_pack {x : BitVec 24} (hd : decode (.pack x) = .ok i) :
    turnWork (.pack x) rest s = .run i (s.setScript rest) := by
  rw [turnWork, hd]

theorem turnWork_unpack {ch : Channel} {x : BitVec 16} (hd : decode (.unpack ch x) = .ok i) :
    turnWork (.unpack ch x) rest s = .run i (s.setScript rest) := by
  rw [turnWork, hd]

end

/-- Settles O9: a word is reserved from 4 on, and each smaller one is the word of its command. -/
theorem commandAcceptance : Obligations.CommandAcceptance := by
  intro s v rest hs
  refine ⟨step_write_busy hs, fun hb => ⟨fun hv => ?_, fun hv => ?_, fun hv => ?_, fun hv => ?_, fun hv => ?_⟩⟩
  · exact step_reservedCommand hs hb ((decode_cmd_reserved_iff v).mpr (by omega))
  · exact step_command hs hb (decode_cmd_of_toNat (i := .nop) rfl hv)
  · exact (step_command hs hb (decode_cmd_of_toNat (i := .compress) rfl hv)).trans (exec_compress_ready hb)
  · exact (step_command hs hb (decode_cmd_of_toNat (i := .tfill) rfl hv)).trans (exec_tfill_ready hb)
  · exact (step_command hs hb (decode_cmd_of_toNat (i := .clear) rfl hv)).trans (exec_clear_ready hb)

/-- Settles O42, turn by turn, from the laws of a memory. -/
theorem hostMemoryAccesses : Obligations.HostMemoryAccesses := by
  intro s rest hb hsrc hdst
  refine ⟨fun a b hs hsize hspace => ?_, fun a hs hsize hspace => ?_, fun i v hs hsize hspace => ?_,
    fun i hs hsize hspace => ?_⟩
  · exact ⟨s.src.write a b, step_srcWrite hs hb ((s.srcBacked_iff a).mpr ⟨hsize, hspace⟩),
      Memory.read_write_same hsrc, fun _ hne => Memory.read_write_other hne⟩
  · exact ⟨(s.src.read a).setWidth 32, step_srcRead hs hb ((s.srcBacked_iff a).mpr ⟨hsize, hspace⟩),
      BitVec.toNat_setWidth_of_le (by decide)⟩
  · exact ⟨s.dst.writeWord i v, step_dstWrite hs hb ((s.dstBacked_iff i).mpr ⟨hsize, hspace⟩),
      Memory.readWord_writeWord_same hdst i v, fun _ ha => Memory.read_writeWord_outside ha⟩
  · refine ⟨s.dst.readWord i, step_dstRead hs hb ((s.dstBacked_iff i).mpr ⟨hsize, hspace⟩), fun j hj => ?_⟩
    rw [← wordByte_toNat, wordByte_readWord _ _ _ hj]

/-- Settles O5, for each way the script gives an instruction its turn. -/
theorem stepRunsTheDecodedInstruction : Obligations.StepRunsTheDecodedInstruction := by
  intro s
  refine ⟨fun i _ => ⟨fun hb hd => ⟨fun hs => ?_, fun rest hs => ?_, fun rest hs => ?_⟩, fun v rest hs hb hd => ?_,
    fun x rest hs hd => ?_, fun ch x rest hs hd => ?_⟩, fun rest hs hb => ?_⟩
  · exact step_busy hs hb hd
  · exact step_engineTurn hs hb hd
  · exact step_wait_busy hs hb hd
  · exact step_command hs hb hd
  · exact step_of_run ((nextWork_cons hs).trans (turnWork_pack hd))
  · exact step_of_run ((nextWork_cons hs).trans (turnWork_unpack hd))
  · exact step_wait_ready hs hb

/-- Settles O7, offset by offset; zero-extension keeps the value. -/
theorem registerReads : Obligations.RegisterReads := by
  intro s off rest hs
  refine ⟨s.readReg off, step_read hs, ?_, ?_, ?_, ?_, ?_, ?_, fun hoff => by rw [State.readReg_reserved hoff]; rfl⟩
  · rintro rfl
    rfl
  · rintro rfl
    rfl
  all_goals
    rintro rfl
    exact BitVec.toNat_setWidth_of_le (by decide)

/-- Settles O8: the two dimension registers keep the low half, the others ignore the write. -/
theorem registerWrites : Obligations.RegisterWrites := by
  intro s off v rest hs
  refine ⟨step_write_busy hs, fun hb => ⟨?_, ?_, fun hoff => ?_⟩⟩
  · rintro rfl
    exact ⟨v.extractLsb' 0 16, lowHalf_toNat v, step_write_register hs hb (by decide)⟩
  · rintro rfl
    exact ⟨v.extractLsb' 0 16, lowHalf_toNat v, step_write_register hs hb (by decide)⟩
  · rw [step_write_register hs hb (by omega), State.writeReg_ignored (by omega) (by omega)]
    rfl

/-- Settles O10: the test for `BUSY` is the only one a command makes. -/
theorem commandsComplete : Obligations.CommandsComplete :=
  fun _ => ⟨rfl, fun hb => ⟨exec_compress_busy hb, exec_tfill_busy hb, exec_clear_busy hb⟩,
    fun hb => ⟨exec_compress_ready hb, exec_tfill_ready hb, exec_clear_ready hb⟩⟩

/-- Settles O11: an engine that is not `BUSY` is given `IDLE`, which keeps the state. -/
theorem idleEngineStands : Obligations.IdleEngineStands := by
  intro s
  refine ⟨rfl, fun hb hs => ?_, fun rest hb hs => ?_⟩
  · exact step_of_run ((nextWork_nil hs).trans (engineWork_idle hb))
  · exact step_of_run ((nextWork_cons hs).trans (engineWork_idle (s := s.setScript rest) hb))

end Sys2Proof.Machine
end

section
/-! Faults (60_exceptions.md): they do not nest (R177), they persist (R176), and they are precise (R174, R175). -/

namespace Sys2Proof.Machine

open Sys2Proof.Safety

/-- Settles O14: the engine has no step unless `BUSY`, and a reserved word traps in every other `STATE`. -/
theorem faultsDoNotNest : Obligations.FaultsDoNotNest := by
  intro s rest herr
  have hb : s.state ≠ .busy := by simp [herr]
  refine ⟨(idleEngineStands s).2.2 rest hb, fun v hs hv => ?_⟩
  obtain ⟨-, htrap, -⟩ := reservedCommandWords s v rest hs
  exact ⟨_, htrap hv hb, rfl, rfl⟩

/-- No command faults: it changes nothing, or it is one of the three that leave `DONE_ERR` (R176). -/
theorem command_same_or_not_doneErr {s t : State} {v : Word} {i : Instr} (hd : decode (.cmd v) = .ok i)
    (hr : exec i s = .next t) : t = s ∨ (v = 1#32 ∨ v = 2#32 ∨ v = 3#32) ∧ t.state ≠ .doneErr := by
  rcases command_cases hd with ⟨-, rfl⟩ | ⟨hv, rfl⟩ | ⟨hv, rfl⟩ | ⟨hv, rfl⟩
  · exact .inl (exec_nop hr)
  · obtain ⟨-, ht⟩ | ⟨-, rfl⟩ := exec_compress hr
    · exact .inl ht
    · exact .inr ⟨.inl hv, by simp⟩
  · obtain ⟨-, ht⟩ | ⟨-, rfl⟩ := exec_tfill hr
    · exact .inl ht
    · exact .inr ⟨.inr (.inl hv), by simp⟩
  · obtain ⟨-, ht⟩ | ⟨-, rfl⟩ := exec_clear hr
    · exact .inl ht
    · exact .inr ⟨.inr (.inr hv), by simp⟩

/-- Settles O15, by the kinds of step: the engine stands, and of the host's turns only a command or reset clears
`CAUSE`. -/
theorem faultPersists : Obligations.FaultPersists := by
  intro s t herr hcause hstep
  cases step_kind hstep with
  | engine _ _ moves => exact absurd (moves.1.symm.trans herr) (by decide)
  | outside ts w p u same =>
    subst same
    exact .inl ⟨herr, hcause⟩
  | command v i ts turn _ decoded ran =>
    obtain rfl | ⟨rfl | rfl | rfl, -⟩ := command_same_or_not_doneErr decoded ran
    · exact .inl ⟨herr, hcause⟩
    · exact .inr (.inl ⟨ts, turn⟩)
    · exact .inr (.inr (.inl ⟨ts, turn⟩))
    · exact .inr (.inr (.inr (.inl ⟨ts, turn⟩)))
  | illegal _ ts _ _ trapped =>
    subst trapped
    exact .inl ⟨rfl, by simp [Cause.code]⟩
  | hostWrite _ wrote =>
    rw [wrote.frame]
    exact .inl ⟨herr, hcause⟩
  | reset resets => exact .inr (.inr (.inr (.inr resets)))

/-- Of the phases, only `CHECK` enters `DONE_ERR` (R171). -/
theorem phaseCase_doneErr {s t : State} (hc : PhaseCase s t) (hs : s.state ≠ .doneErr) (ht : t.state = .doneErr) :
    s.phase = Phase.check ∧ t = s.raise .invalidDimensions := by
  have hne : t.state ≠ s.state := fun h => hs (h ▸ ht)
  cases hc with
  | badDimensions phase trapped => exact ⟨phase, trapped⟩
  | idle _ same => exact absurd (congrArg State.state same) hne
  | emptyImage _ ended | lastCounted _ _ ended | fillEnded _ ended => simp [ended] at ht
  | loopEntered _ _ _ next | stored _ next | counted _ _ next | filled _ _ next =>
    exact absurd (congrArg State.state next) hne
  | datapath _ _ frame _ => exact absurd frame.state hne

/-- Settles O16, by the kinds of step: `CHECK` and a reserved word trap, and no other step enters `DONE_ERR`. -/
theorem faultsArePrecise : Obligations.FaultsArePrecise := by
  intro s t hs hstep ht
  have hne : t.state ≠ s.state := fun h => hs (h ▸ ht)
  cases step_kind hstep with
  | engine i ts moves decoded ran =>
    have hc : PhaseCase (s.setScript ts) t := phase_cases decoded ran
    obtain ⟨phase, rfl⟩ := phaseCase_doneErr hc hs ht
    exact ⟨rfl, .inl ⟨moves, phase, rfl⟩⟩
  | outside ts w p u same => exact absurd (congrArg State.state same) hne
  | command v i ts _ _ decoded ran =>
    obtain rfl | ⟨-, hleft⟩ := command_same_or_not_doneErr decoded ran
    · exact absurd ht hs
    · exact absurd ht hleft
  | illegal v ts turn ready trapped =>
    subst trapped
    exact ⟨rfl, .inr ⟨⟨v, ts, turn⟩, ready, rfl⟩⟩
  | hostWrite _ wrote => exact absurd (congrArg State.state wrote.frame) hne
  | reset _ m ts _ done => simp [done] at ht

end Sys2Proof.Machine
end

section
/-! Reset and the hazards around it (70_reset_and_hazards.md): what `rst` does with a write in flight (R191), that holding
it adds nothing (R190), and the host's accesses to the memories while `BUSY` (R194, R195). -/

namespace Sys2Proof.Machine

section
variable {s : State} {b : Bool} {i : Nat} {w : Word} {rest : List Turn}

/-! ### The write that could be in flight (R191) -/

theorem firstWrite_store (hb : s.state = .busy) (hp : s.phase = Phase.store) :
    s.firstWrite = some (s.endpointSlot, s.w0) := by
  rw [State.firstWrite, portAccesses_store hb hp]
  rfl

theorem firstWrite_fill (hb : s.state = .busy) (hp : s.phase = Phase.fill) (hmore : ¬s.fillDone = true) :
    s.firstWrite = some (s.fillSlot, fillWord) := by
  rw [State.firstWrite, portAccesses_fill hb hp, if_neg hmore]
  rfl

/-- `FETCH` only reads. -/
theorem firstWrite_fetch (hb : s.state = .busy) (hp : s.phase = Phase.fetch) : s.firstWrite = none := by
  rw [State.firstWrite, portAccesses_fetch hb hp, List.findSome?_eq_none_iff]
  exact List.forall_mem_map.mpr fun _ _ => rfl

/-- Only `STORE`, and `FILL` with a word left to write, have a write. -/
theorem firstWrite_eq_none
    (h : ¬(s.state = .busy ∧ (s.phase = Phase.store ∨ s.phase = Phase.fill ∧ ¬s.fillDone = true))) :
    s.firstWrite = none := by
  by_cases hb : s.state = .busy
  · have hstore : s.phase ≠ Phase.store := fun hp => h ⟨hb, .inl hp⟩
    by_cases hfetch : s.phase = Phase.fetch
    · exact firstWrite_fetch hb hfetch
    by_cases hfill : s.phase = Phase.fill
    · have hdone : s.fillDone = true := not_not.mp fun hmore => h ⟨hb, .inr ⟨hfill, hmore⟩⟩
      rw [State.firstWrite, portAccesses_fill hb hfill, if_pos hdone]
      rfl
    · rw [State.firstWrite, portAccesses_other hfetch hstore hfill]
      rfl
  · exact firstWrite_of_not_busy hb

/-! ### Asserting `rst`: the three outcomes -/

theorem assertReset_no_write (hw : s.firstWrite = none) : assertReset b s = .next s.resetRegisters := by
  rw [assertReset, hw, ite_self]

theorem assertReset_backed (hw : s.firstWrite = some (i, w)) (hi : s.dstBacked i = true) :
    assertReset true s = .next (s.storeWord i w).resetRegisters := by
  rw [assertReset, if_pos rfl, hw]
  exact if_pos hi

theorem assertReset_unbacked (hw : s.firstWrite = some (i, w)) (hi : ¬s.dstBacked i = true) :
    assertReset true s = .fault .dstUnbacked := by
  rw [assertReset, if_pos rfl, hw]
  exact if_neg hi

/-- A reset that completes does the same to every other part of the state whatever turns follow it. -/
theorem assertReset_with_any_script {t : State} (h : assertReset b s = .next t) :
    ∃ u : State, ∀ ts, assertReset b (s.setScript ts) = .next (u.setScript ts).resetRegisters := by
  cases b with
  | false => exact ⟨s, fun _ => rfl⟩
  | true =>
    cases hw : s.firstWrite with
    | none => exact ⟨s, fun ts => assertReset_no_write hw⟩
    | some write =>
      by_cases hi : s.dstBacked write.1 = true
      · exact ⟨s.storeWord write.1 write.2, fun ts => assertReset_backed (s := s.setScript ts) hw hi⟩
      · rw [assertReset_unbacked hw hi] at h
        cases h

/-- The registers of 10_state.md R34 after a reset, and what it keeps. -/
theorem resetRegisters_cleared (u : State) :
    u.resetRegisters.state = .idle ∧ u.resetRegisters.phase = 0#4 ∧ u.resetRegisters.degen = false ∧
      u.resetRegisters.cause = 0#4 ∧ u.resetRegisters.cnt = 0#29 ∧ u.resetRegisters.width = 0#16 ∧
      u.resetRegisters.height = 0#16 ∧ u.resetRegisters.src = u.src ∧ u.resetRegisters.dst = u.dst ∧
      u.resetRegisters.cfg = u.cfg ∧ u.resetRegisters.script = u.script :=
  ⟨rfl, rfl, rfl, rfl, rfl, rfl, rfl, rfl, rfl, rfl, rfl⟩

theorem resetRegisters_not_busy (u : State) : u.resetRegisters.state ≠ .busy :=
  show EngineState.idle ≠ .busy by decide

/-! ### The turns that assert `rst` -/

theorem step_rst (hs : s.script = .rst b :: rest) : step s = assertReset b (s.setScript rest) :=
  step_of_done (nextWork_cons hs)

/-- The same where the turn is put at the head of a script. -/
theorem step_setScript_rst (s : State) (b : Bool) (rest : List Turn) :
    step (s.setScript (.rst b :: rest)) = assertReset b (s.setScript rest) :=
  step_rst rfl

theorem step_rstWr {off : Nat} {v : Word} (hs : s.script = .rstWr off v :: rest) :
    step s = .next (s.setScript rest).resetRegisters :=
  step_of_done (nextWork_cons hs)

theorem step_rstRd {off : Nat} (hs : s.script = .rstRd off :: rest) :
    step s = .next (s.setScript rest).resetRegisters :=
  step_of_done (nextWork_cons hs)

/-- The first step of a reset with a write in flight, where the word is backed and where it is not. -/
theorem step_rst_inFlight (hs : s.script = .rst true :: rest) (hw : s.firstWrite = some (i, w)) :
    (s.dstBacked i = true → step s = .next ((s.setScript rest).storeWord i w).resetRegisters) ∧
    (s.cfg.dstSize ≤ i → step s = .fault .dstUnbacked) := by
  rw [step_rst hs]
  refine ⟨assertReset_backed (s := s.setScript rest) hw, fun hbeyond => ?_⟩
  exact assertReset_unbacked (s := s.setScript rest) hw fun hi =>
    absurd ((s.dstBacked_iff i).mp hi).1 (Nat.not_lt.mpr hbeyond)

/-- Turns that go on asserting `rst` after a reset only use themselves up. -/
theorem run_held_reset (u : State) {held : List Turn} (hheld : ∀ x ∈ held, x.assertsReset = true) :
    core.run held.length (u.setScript (held ++ rest)).resetRegisters = .next (u.setScript rest).resetRegisters := by
  induction held with
  | nil => exact run_zero _
  | cons x held ih =>
    obtain ⟨hx, htail⟩ := List.forall_mem_cons.mp hheld
    exact (run_succ (step_assertsReset rfl hx (resetRegisters_not_busy _)) held.length).trans (ih htail)

end

/-- Settles O47: one reset leaves the state that each further turn asserting `rst` leaves alone. -/
theorem heldResetIsOneReset : Obligations.HeldResetIsOneReset := by
  intro s t b held rest hs hheld hstep
  have honce : assertReset b (s.setScript rest) = .next t := (step_setScript_rst s b rest).symm.trans hstep
  obtain ⟨u, hu⟩ := assertReset_with_any_script honce
  have ht : t = (u.setScript rest).resetRegisters := Host.Outcome.next.inj (honce.symm.trans (hu rest))
  subst ht
  have hasserted : ∀ x ∈ held, x.assertsReset = true := by
    intro x hx
    obtain ⟨_, rfl⟩ | ⟨_, _, rfl⟩ | ⟨_, rfl⟩ := hheld x hx <;> rfl
  refine ⟨rfl, rfl, ?_⟩
  rw [Nat.add_comm, run_succ ((step_rst hs).trans (hu _))]
  exact run_held_reset u hasserted

/-- Settles O43: each of the four accesses tests `BUSY` first. -/
theorem hostMemoryRefusedWhileBusy : Obligations.HostMemoryRefusedWhileBusy :=
  fun _ _ hb => ⟨fun _ _ hs => (step_of_done (nextWork_cons hs)).trans (if_pos hb),
    fun _ hs => (step_of_done (nextWork_cons hs)).trans (if_pos hb),
    fun _ _ hs => (step_of_done (nextWork_cons hs)).trans (if_pos hb),
    fun _ hs => (step_of_done (nextWork_cons hs)).trans (if_pos hb)⟩

/-- Settles O46: the turn's flag counts only where the phase has a first write. -/
theorem resetAbortsTheCommand : Obligations.ResetAbortsTheCommand := by
  intro s rest cleared filling
  have hcleared : cleared (s.setScript rest).resetRegisters s.dst := resetRegisters_cleared (s.setScript rest)
  have hwritten (i : Nat) (w : Word) :
      cleared ((s.setScript rest).storeWord i w).resetRegisters (s.dst.writeWord i w) :=
    resetRegisters_cleared ((s.setScript rest).storeWord i w)
  have halone : step { s with script := .rst false :: rest } = .next (s.setScript rest).resetRegisters :=
    step_setScript_rst s false rest
  refine ⟨fun hs => ⟨_, step_rst hs, hcleared⟩, fun off v hs => ⟨_, step_rstWr hs, hcleared, rfl, halone⟩,
    fun off hs => ⟨_, step_rstRd hs, hcleared, rfl, halone⟩, fun hs hno => ?_, fun hs hb hp => ?_,
    fun hs hb ⟨hp, hmore⟩ => ?_⟩
  · have hw : s.firstWrite = none := firstWrite_eq_none fun ⟨hb, hp⟩ =>
      hno ⟨hb, hp.imp_right fun ⟨hfill, hleft⟩ => ⟨hfill, mt s.fillDone_iff.mpr hleft⟩⟩
    have hstep : step s = .next (s.setScript rest).resetRegisters :=
      (step_rst hs).trans (assertReset_no_write (s := s.setScript rest) hw)
    exact ⟨hstep.trans halone.symm, _, hstep, hcleared⟩
  · obtain ⟨hbacked, hstuck⟩ := step_rst_inFlight hs (firstWrite_store hb hp)
    exact ⟨fun hsize hspace => ⟨_, hbacked ((s.dstBacked_iff _).mpr ⟨hsize, hspace⟩), hwritten _ _⟩, hstuck⟩
  · obtain ⟨hbacked, hstuck⟩ := step_rst_inFlight hs (firstWrite_fill hb hp (mt s.fillDone_iff.mp hmore))
    exact ⟨fun hsize => ⟨_, hbacked (State.fillSlot_backed hsize), hwritten _ _⟩, hstuck⟩

end Sys2Proof.Machine
end
